-- ==== Sys2Proof/Word.lean ====
section
/-!
DEFINITION. The widths of ANSD's words: names for the bit vectors the spec treats as bits, and nothing else.
-/

namespace Sys2Proof

/-- A command word or a register-window word (30_encoding.md R80, 10_state.md R47). -/
abbrev Word32 := BitVec 32

/-- A byte of a frame (44_framer.md R210). -/
abbrev Byte := BitVec 8

/-- A sample on SIN: a signed 16-bit two's-complement integer (10_state.md R21). -/
abbrev Sample := BitVec 16

/-- A raw symbol or a queued symbol: 0x0000 to 0x7FFF, or 0xFFFF (10_state.md R24). -/
abbrev Symbol := BitVec 16

/-- A level in 1/256 dB, a signed 16-bit two's-complement integer (41_detector.md R130). -/
abbrev Level := BitVec 16

/-- An identifier: sync, candidate and frame ids and block indices (10_state.md R26, R28, R41, R42). -/
abbrev Id := BitVec 32

/-- A count of samples (10_state.md R26, R27). -/
abbrev SampleCount := BitVec 64

end Sys2Proof
end

