-- ==== Sys2Proof/Machine/Tone.lean ====
section
/-!
DEFINITION. The reference tone block of 45_tx_sequencer.md R247, `clamp16(rha(A * sin(2*pi*k0*n/N)))`, by exact
integer arithmetic: N is a power of two, so the comparison of a cosine of `pi/2 * m / 2^K` with a rational number is
decided exactly by the double-angle formula. Laws/Tone.lean proves that these functions are the real ones of R247.
-/

namespace Sys2Proof.Machine

/-- How `cos(pi/2 * m / 2^K)` compares with `a / b`, for `m ≤ 2^(K+1)` and `b > 0`. Between 0 and pi/2 the cosine is
not negative and `cos x` against `q ≥ 0` is `cos 2x` against `2*q^2 - 1`; beyond pi/2 it is the negative of
`cos (pi - x)`. -/
def cosCompare : Nat → Nat → Int → Nat → Ordering
  | 0, m, a, b => compare ((1 - (m : Int)) * b) a
  | K + 1, m, a, b =>
    if m ≤ 2 ^ (K + 1) then
      if a < 0 then .gt else cosCompare K m (2 * a ^ 2 - (b : Int) ^ 2) (b ^ 2)
    else
      if 0 < a then .lt else (cosCompare K (2 ^ (K + 2) - m) (2 * a ^ 2 - (b : Int) ^ 2) (b ^ 2)).swap

/-- Whether `2*v - 1 ≤ 2*A*sin(pi/2 * m / 2^K)`, for `m ≤ 2^K` and `A > 0`: the rounded value is at least `v`. -/
def sineReaches (K m A v : Nat) : Bool :=
  cosCompare K (2 ^ K - m) (2 * (v : Int) - 1) (2 * A) != .lt

/-- The largest `v < acc + 2^bits` with `p v`, found bit by bit, when `p` holds of `acc` and of every number below
a number it holds of. -/
def greatest (p : Nat → Bool) : Nat → Nat → Nat
  | 0, acc => acc
  | bits + 1, acc => if p (acc + 2 ^ bits) then greatest p bits (acc + 2 ^ bits) else greatest p bits acc

/-- `rha(A * sin(pi/2 * m / 2^K))` for `m ≤ 2^K`: the nearest integer, ties away from zero. -/
def quarterSine (K A m : Nat) : Nat :=
  if A = 0 then 0 else greatest (sineReaches K m A) 17 0

/-- `rha(A * sin(2*pi*j/N))` for `N = 2^logN`, `logN ≥ 2` and `j < N`, folded to the first quarter. -/
def roundedSine (logN A j : Nat) : Int :=
  let quarter := 2 ^ (logN - 2)
  let r := j % quarter
  match j / quarter with
  | 0 => quarterSine (logN - 2) A r
  | 1 => quarterSine (logN - 2) A (quarter - r)
  | 2 => -(quarterSine (logN - 2) A r : Int)
  | _ => -(quarterSine (logN - 2) A (quarter - r) : Int)

/-- `clamp16(v) = max(-32768, min(32767, v))` (45_tx_sequencer.md R247). -/
def clamp16 (v : Int) : Int := max (-32768) (min 32767 v)

/-- Sample n of `ToneBlock(A, k0)` (45_tx_sequencer.md R247). -/
def toneSample (logN A k0 n : Nat) : Sample :=
  BitVec.ofInt 16 (clamp16 (roundedSine logN A (k0 * n % 2 ^ logN)))

/-- `ToneBlock(A, k0)`: N samples, phase 0 at n = 0, exactly k0 cycles in the block (45_tx_sequencer.md R247). DESIGN
CHOICE, log 18: the same formula, rounded and clamped, for an amplitude word above 0x8000, where the rule defines
nothing. -/
def toneBlock (logN A k0 : Nat) : List Sample :=
  (List.range (2 ^ logN)).map (toneSample logN A k0)

/-- N samples of value 0: the silent block (45_tx_sequencer.md R247, 41_detector.md R133). -/
def silentBlock (logN : Nat) : List Sample := List.replicate (2 ^ logN) 0

/-- Whether every sample of a block is 0. -/
def isSilent (xs : List Sample) : Bool := xs.all (· == 0)

end Sys2Proof.Machine
end

