-- ==== Sys2Proof/Config.lean ====
section
/-!
DEFINITION. What an implementation fixes: the static parameters (00_scope.md R5) with the spec's defaults, and the one
free function of the spec, the level an implementation's transform computes (41_detector.md R133).
-/

namespace Sys2Proof

/-- The static parameters of an instance (00_scope.md R5). `FFT_SIZE` is a power of two and is held as its logarithm;
`PBUF_DEPTH` is fixed at 32 by LDP's encoding and is no field. DESIGN CHOICE, log 1: the record is carried by the
state, so that a claim about every state is a claim about every instance. -/
structure Params where
  /-- log2 of `FFT_SIZE`. -/
  logFftSize : Nat
  /-- `FFT_SIZE_FACTOR`, F: transform bins per symbol step. -/
  fftFactor : Nat
  /-- `RAW_SYMBOL_MAX`: capacity of the history. -/
  rawSymbolMax : Nat
  /-- `SYMBOL_PERIOD_BLOCKS`, P. -/
  periodBlocks : Nat
  /-- `GUARD_BLOCKS`, G. -/
  guardBlocks : Nat
  /-- `SAMPLE_OFFSET_BLOCKS`, OFFSET. -/
  offsetBlocks : Nat
  /-- `DRIFT_TOLERANCE`, in samples. -/
  driftTolerance : Nat
  /-- `PAYLOAD_MAX`: largest accepted payload length in bytes. -/
  payloadMax : Nat
  /-- `MAX_CANDIDATES`: capacity of the candidate table. -/
  maxCandidates : Nat
  /-- `TXQ_DEPTH`: capacity of the outbound symbol queue. -/
  txqDepth : Nat
  /-- `SAMPLE_RATE_MIN`, in hertz. -/
  sampleRateMin : Nat
  /-- `SAMPLE_RATE_MAX`, in hertz. -/
  sampleRateMax : Nat
deriving DecidableEq, Repr

/-- `FFT_SIZE`, N: samples per block (00_scope.md R5). -/
def Params.fftSize (p : Params) : Nat := 2 ^ p.logFftSize

/-- The defaults of 00_scope.md R5. -/
def Params.default : Params :=
  { logFftSize := 13
    fftFactor := 3
    rawSymbolMax := 10
    periodBlocks := 3
    guardBlocks := 1
    offsetBlocks := 2
    driftTolerance := 0
    payloadMax := 8
    maxCandidates := 8
    txqDepth := 64
    sampleRateMin := 8000
    sampleRateMax := 192000 }

/-- DET-SILENCE (41_detector.md R133): a level function with the level of every bin of a silent block put at
−32768, which every implementation's has. DESIGN CHOICE, log 5; and log 18: a list of zeros of another length than N,
the empty one included, counts as silence. -/
def withSilenceFloor (level : Nat → List Sample → Nat → Level) (logN : Nat) (X : List Sample) (k : Nat) : Level :=
  if Machine.isSilent X then 0x8000 else level logN X k

/-- `v` is at least DET-TONE's bound for amplitude word A, `floor(256*20*log10((A − 1)/32768))`, in exact real
arithmetic (41_detector.md R133). -/
def AtLeastToneBound (A : Nat) (v : Int) : Prop :=
  ⌊(256 * 20 : ℝ) * Real.logb 10 (((A : ℝ) - 1) / 32768)⌋ ≤ v

/-- `v` is at most that bound: the condition of 45_tx_sequencer.md R248 on the threshold. -/
def AtMostToneBound (A : Nat) (v : Int) : Prop :=
  v ≤ ⌊(256 * 20 : ℝ) * Real.logb 10 (((A : ℝ) - 1) / 32768)⌋

/-- What a model may assume of an implementation's level function `binDb` (41_detector.md R133,
93_implementation_defined.md U1): DET-FUNCTION, since it is a function; DET-SILENCE, by `withSilenceFloor`; and
DET-TONE, the two laws. The first argument of the function is log2 of the block length. -/
structure Detector where
  /-- The level of bin k of block X. -/
  level : Nat → List Sample → Nat → Level
  /-- DET-TONE, first half: the tone's own bin has at least the bound. -/
  tone_level : ∀ logN A k0, 3 ≤ logN → logN ≤ 16 → 3 ≤ A → A ≤ 0x8000 → 0 < k0 → k0 < 2 ^ logN / 2 →
    AtLeastToneBound A (withSilenceFloor level logN (Machine.toneBlock logN A k0) k0).toInt
  /-- DET-TONE, second half: every other bin is strictly below the tone's. -/
  tone_peak : ∀ logN A k0 k, 3 ≤ logN → logN ≤ 16 → 3 ≤ A → A ≤ 0x8000 → 0 < k0 → k0 < 2 ^ logN / 2 →
    k < 2 ^ logN / 2 → k ≠ k0 →
    (withSilenceFloor level logN (Machine.toneBlock logN A k0) k).toInt <
      (withSilenceFloor level logN (Machine.toneBlock logN A k0) k0).toInt

/-- The free level function of the implementation at hand: opaque and without a body, so that nothing is known of it
but the laws `Detector` carries. The argument says only that some level function has the laws. DESIGN CHOICE, log 4. -/
opaque Config.detector [Inhabited Detector] : Detector

end Sys2Proof
end

