-- ==== Sys2Proof/Laws/Tone.lean ====
section
/-!
SUPPORT. The integer arithmetic of Machine/Tone.lean is the real arithmetic of 45_tx_sequencer.md R247: a sample of
`toneBlock` is `clamp16(rha(A * sin(2*pi*k0*n/N)))`, exactly.
-/

namespace Sys2Proof.Machine

/-- `rha(x)`: the nearest integer, ties away from zero (45_tx_sequencer.md R247). -/
noncomputable def roundHalfAway (x : ℝ) : ℤ := if 0 ≤ x then ⌊x + 1 / 2⌋ else -⌊-x + 1 / 2⌋

theorem cos_quarter_nonneg {K m : ℕ} (hm : m ≤ 2 ^ K) : 0 ≤ Real.cos (Real.pi / 2 * m / 2 ^ K) := by
  have hK : (0 : ℝ) < 2 ^ K := by positivity
  have hm' : (m : ℝ) ≤ 2 ^ K := by exact_mod_cast hm
  have h1 : (m : ℝ) / 2 ^ K ≤ 1 := (div_le_one hK).2 hm'
  have h0 : (0 : ℝ) ≤ (m : ℝ) / 2 ^ K := by positivity
  have e : Real.pi / 2 * m / 2 ^ K = Real.pi / 2 * ((m : ℝ) / 2 ^ K) := by ring
  rw [e]
  apply Real.cos_nonneg_of_neg_pi_div_two_le_of_le
  · have := Real.pi_pos; nlinarith
  · have := Real.pi_pos; nlinarith

theorem cos_quarter_double (K m : ℕ) :
    Real.cos (Real.pi / 2 * m / 2 ^ K) = 2 * Real.cos (Real.pi / 2 * m / 2 ^ (K + 1)) ^ 2 - 1 := by
  rw [← Real.cos_two_mul]
  congr 1
  rw [pow_succ]
  field_simp

theorem cos_quarter_reflect {K m : ℕ} (hm : m ≤ 2 ^ (K + 1)) :
    Real.cos (Real.pi / 2 * ((2 ^ (K + 1) - m : ℕ) : ℝ) / 2 ^ K) = -Real.cos (Real.pi / 2 * m / 2 ^ K) := by
  rw [← Real.cos_pi_sub]
  congr 1
  rw [Nat.cast_sub hm]
  push_cast
  rw [pow_succ]
  field_simp

/-- A nonnegative `c` against a nonnegative `q` is `2*c^2 - 1` against `2*q^2 - 1`. -/
theorem lt_iff_double_lt {c q : ℝ} (hc : 0 ≤ c) (hq : 0 ≤ q) : c < q ↔ 2 * c ^ 2 - 1 < 2 * q ^ 2 - 1 := by
  rw [← sq_lt_sq₀ hc hq]
  constructor <;> intro h <;> linarith

/-- What `cosCompare` answers: the order of the cosine and the rational number. -/
theorem cosCompare_spec (K : ℕ) : ∀ (m : ℕ) (a : ℤ) (b : ℕ), 0 < b → m ≤ 2 ^ (K + 1) →
    (cosCompare K m a b = .lt ↔ Real.cos (Real.pi / 2 * m / 2 ^ K) < (a : ℝ) / b) ∧
    (cosCompare K m a b = .gt ↔ (a : ℝ) / b < Real.cos (Real.pi / 2 * m / 2 ^ K)) := by
  induction K with
  | zero =>
    intro m a b hb hm
    have hb' : (0 : ℝ) < b := by exact_mod_cast hb
    have hcos : Real.cos (Real.pi / 2 * m / 2 ^ 0) = 1 - m := by
      have hm' : m ≤ 2 := by simpa using hm
      interval_cases m
      · simp
      · simp
      · have e : Real.pi / 2 * ((2 : ℕ) : ℝ) / 2 ^ 0 = Real.pi := by push_cast; ring
        rw [e, Real.cos_pi]; norm_num
    rw [hcos]
    simp only [cosCompare, compare_lt_iff_lt, compare_gt_iff_gt]
    constructor
    · rw [lt_div_iff₀ hb']
      exact_mod_cast Iff.rfl
    · rw [div_lt_iff₀ hb']
      exact_mod_cast Iff.rfl
  | succ K ih =>
    intro m a b hb hm
    have hb' : (0 : ℝ) < b := by exact_mod_cast hb
    have hb2 : 0 < b ^ 2 := by positivity
    have hq2 : (((2 * a ^ 2 - (b : ℤ) ^ 2 : ℤ) : ℝ)) / ((b ^ 2 : ℕ) : ℝ) = 2 * ((a : ℝ) / b) ^ 2 - 1 := by
      push_cast
      field_simp
    by_cases hle : m ≤ 2 ^ (K + 1)
    · have hc := cos_quarter_nonneg (K := K + 1) hle
      by_cases ha : a < 0
      · have ha' : (a : ℝ) / b < 0 := div_neg_of_neg_of_pos (by exact_mod_cast ha) hb'
        simp only [cosCompare, hle, ha, if_true]
        constructor
        · simp only [reduceCtorEq, false_iff, not_lt]; linarith
        · simp only [true_iff]; linarith
      · have ha' : 0 ≤ (a : ℝ) / b := div_nonneg (by exact_mod_cast not_lt.1 ha) hb'.le
        simp only [cosCompare, hle, ha, if_true, if_false]
        obtain ⟨h1, h2⟩ := ih m (2 * a ^ 2 - (b : ℤ) ^ 2) (b ^ 2) hb2 hle
        rw [h1, h2, hq2, cos_quarter_double, ← lt_iff_double_lt hc ha', ← lt_iff_double_lt ha' hc]
        exact ⟨Iff.rfl, Iff.rfl⟩
    · have hm' : 2 ^ (K + 2) - m ≤ 2 ^ (K + 1) := by
        have : 2 ^ (K + 2) = 2 ^ (K + 1) + 2 ^ (K + 1) := by ring
        omega
      have hc := cos_quarter_nonneg (K := K + 1) hm'
      have hr := cos_quarter_reflect (K := K + 1) (m := m) hm
      rw [show K + 1 + 1 = K + 2 from rfl] at hr
      by_cases ha : 0 < a
      · have ha' : 0 < (a : ℝ) / b := div_pos (by exact_mod_cast ha) hb'
        simp only [cosCompare, hle, ha, if_true, if_false]
        rw [hr] at hc
        constructor
        · simp only [true_iff]; linarith
        · simp only [reduceCtorEq, false_iff, not_lt]; linarith
      · have ha' : 0 ≤ -((a : ℝ) / b) := by
          have : (a : ℝ) / b ≤ 0 := div_nonpos_of_nonpos_of_nonneg (by exact_mod_cast not_lt.1 ha) hb'.le
          linarith
        simp only [cosCompare, hle, ha, if_false]
        obtain ⟨h1, h2⟩ := ih (2 ^ (K + 2) - m) (2 * a ^ 2 - (b : ℤ) ^ 2) (b ^ 2) hb2 hm'
        have hq2' : 2 * ((a : ℝ) / b) ^ 2 - 1 = 2 * (-((a : ℝ) / b)) ^ 2 - 1 := by ring
        rw [hq2, cos_quarter_double, hq2'] at h1 h2
        rw [← lt_iff_double_lt hc ha'] at h1
        rw [← lt_iff_double_lt ha' hc] at h2
        rw [hr] at h1 h2
        rw [Ordering.swap_eq_lt, Ordering.swap_eq_gt, h1, h2]
        constructor <;> constructor <;> intro h <;> linarith

theorem sineReaches_iff {K m A v : ℕ} (hm : m ≤ 2 ^ K) (hA : 0 < A) :
    sineReaches K m A v = true ↔ 2 * (v : ℝ) - 1 ≤ 2 * (A * Real.sin (Real.pi / 2 * m / 2 ^ K)) := by
  have hm' : 2 ^ K - m ≤ 2 ^ (K + 1) := by
    have : 2 ^ (K + 1) = 2 ^ K + 2 ^ K := by ring
    omega
  have h := (cosCompare_spec K (2 ^ K - m) (2 * (v : ℤ) - 1) (2 * A) (by omega) hm').1
  have hcos : Real.cos (Real.pi / 2 * ((2 ^ K - m : ℕ) : ℝ) / 2 ^ K) = Real.sin (Real.pi / 2 * m / 2 ^ K) := by
    rw [← Real.cos_pi_div_two_sub]
    congr 1
    rw [Nat.cast_sub hm]
    push_cast
    field_simp
  rw [hcos] at h
  have hA' : (0 : ℝ) < ((2 * A : ℕ) : ℝ) := by exact_mod_cast (by omega : 0 < 2 * A)
  rw [lt_div_iff₀ hA'] at h
  simp only [sineReaches, bne_iff_ne, ne_eq, h, not_lt]
  push_cast
  constructor <;> intro h <;> linarith

/-- What `greatest` answers: the last number the predicate holds of. -/
theorem greatest_spec (p : ℕ → Bool) (bits : ℕ) :
    ∀ acc, p acc = true → p (acc + 2 ^ bits) = false →
      p (greatest p bits acc) = true ∧ p (greatest p bits acc + 1) = false := by
  induction bits with
  | zero => intro acc h0 h1; exact ⟨h0, h1⟩
  | succ bits ih =>
    intro acc h0 h1
    have e : acc + 2 ^ bits + 2 ^ bits = acc + 2 ^ (bits + 1) := by ring
    by_cases h : p (acc + 2 ^ bits) = true
    · simp only [greatest, h, if_true]
      exact ih _ h (by rw [e]; exact h1)
    · simp only [greatest, h]
      exact ih _ h0 (by simpa using h)

/-- The first quarter of the rounded sine, with the two sides of the rounding. -/
theorem quarterSine_spec {K A m : ℕ} (hm : m ≤ 2 ^ K) (hA : A ≤ 0x8000) :
    2 * (quarterSine K A m : ℝ) - 1 ≤ 2 * (A * Real.sin (Real.pi / 2 * m / 2 ^ K)) ∧
    2 * (A * Real.sin (Real.pi / 2 * m / 2 ^ K)) < 2 * (quarterSine K A m : ℝ) + 1 := by
  by_cases h0 : A = 0
  · subst h0; simp [quarterSine]
  have hpos : 0 < A := Nat.pos_of_ne_zero h0
  have hs1 := Real.sin_le_one (Real.pi / 2 * m / 2 ^ K)
  have hs0 : 0 ≤ Real.sin (Real.pi / 2 * m / 2 ^ K) := by
    apply Real.sin_nonneg_of_nonneg_of_le_pi
    · positivity
    · have hK : (0 : ℝ) < 2 ^ K := by positivity
      have : (m : ℝ) / 2 ^ K ≤ 1 := (div_le_one hK).2 (by exact_mod_cast hm)
      have e : Real.pi / 2 * m / 2 ^ K = Real.pi / 2 * ((m : ℝ) / 2 ^ K) := by ring
      rw [e]
      have := Real.pi_pos
      nlinarith
  have hA' : (0 : ℝ) < A := by exact_mod_cast hpos
  have hA2 : (A : ℝ) ≤ 32768 := by exact_mod_cast hA
  have key := greatest_spec (sineReaches K m A) 17 0
    (by rw [sineReaches_iff hm hpos]; push_cast; have := mul_nonneg hA'.le hs0; linarith)
    (by
      rw [← Bool.not_eq_true, sineReaches_iff hm hpos]
      push_cast
      have : (A : ℝ) * Real.sin (Real.pi / 2 * m / 2 ^ K) ≤ 32768 := by nlinarith
      norm_num
      linarith)
  have e : quarterSine K A m = greatest (sineReaches K m A) 17 0 := by simp [quarterSine, h0]
  rw [e]
  obtain ⟨k1, k2⟩ := key
  rw [sineReaches_iff hm hpos] at k1
  rw [← Bool.not_eq_true, sineReaches_iff hm hpos, not_le] at k2
  push_cast at k2
  exact ⟨k1, by linarith⟩

theorem roundHalfAway_eq {x : ℝ} {r : ℕ} (hx : 0 ≤ x) (h1 : 2 * (r : ℝ) - 1 ≤ 2 * x) (h2 : 2 * x < 2 * (r : ℝ) + 1) :
    roundHalfAway x = r := by
  rw [roundHalfAway, if_pos hx, Int.floor_eq_iff]
  push_cast
  constructor <;> linarith

theorem roundHalfAway_neg (x : ℝ) : roundHalfAway (-x) = -roundHalfAway x := by
  rcases lt_trichotomy x 0 with h | h | h
  · rw [roundHalfAway, roundHalfAway, if_pos (by linarith), if_neg (by linarith)]
    simp
  · subst h; norm_num [roundHalfAway]
  · rw [roundHalfAway, roundHalfAway, if_neg (by linarith), if_pos h.le]
    simp

theorem quarterSine_eq {K A m : ℕ} (hm : m ≤ 2 ^ K) (hA : A ≤ 0x8000) :
    (quarterSine K A m : ℤ) = roundHalfAway (A * Real.sin (Real.pi / 2 * m / 2 ^ K)) := by
  obtain ⟨h1, h2⟩ := quarterSine_spec hm hA
  refine (roundHalfAway_eq (mul_nonneg (Nat.cast_nonneg A) ?_) h1 h2).symm
  have hK : (0 : ℝ) < 2 ^ K := by positivity
  have hle : (m : ℝ) / 2 ^ K ≤ 1 := (div_le_one hK).2 (by exact_mod_cast hm)
  have e : Real.pi / 2 * m / 2 ^ K = Real.pi / 2 * ((m : ℝ) / 2 ^ K) := by ring
  apply Real.sin_nonneg_of_nonneg_of_le_pi
  · positivity
  · rw [e]
    have := Real.pi_pos
    nlinarith

/-- The rounded sine of a whole period is `rha(A * sin(2*pi*j/N))`. -/
theorem roundedSine_eq {logN A j : ℕ} (hN : 2 ≤ logN) (hA : A ≤ 0x8000) (hj : j < 2 ^ logN) :
    roundedSine logN A j = roundHalfAway (A * Real.sin (2 * Real.pi * j / 2 ^ logN)) := by
  obtain ⟨K, rfl⟩ := Nat.exists_eq_add_of_le hN
  have hsub : 2 + K - 2 = K := by omega
  have hpow : 2 ^ (2 + K) = 4 * 2 ^ K := by ring
  have hKpos : 0 < 2 ^ K := by positivity
  have hr : j % 2 ^ K < 2 ^ K := Nat.mod_lt _ hKpos
  have hdm : 2 ^ K * (j / 2 ^ K) + j % 2 ^ K = j := Nat.div_add_mod j (2 ^ K)
  have hq : j / 2 ^ K = 0 ∨ j / 2 ^ K = 1 ∨ j / 2 ^ K = 2 ∨ j / 2 ^ K = 3 := by
    have : j / 2 ^ K < 4 := by rw [Nat.div_lt_iff_lt_mul hKpos]; omega
    generalize j / 2 ^ K = q at this ⊢
    omega
  have hangle : 2 * Real.pi * (j : ℝ) / 2 ^ (2 + K) =
      Real.pi / 2 * ((j / 2 ^ K : ℕ) : ℝ) + Real.pi / 2 * ((j % 2 ^ K : ℕ) : ℝ) / 2 ^ K := by
    have : (j : ℝ) = 2 ^ K * ((j / 2 ^ K : ℕ) : ℝ) + ((j % 2 ^ K : ℕ) : ℝ) := by
      conv_lhs => rw [← hdm]
      push_cast
      rfl
    rw [this, pow_add]
    field_simp
  have hreflect : Real.sin (Real.pi / 2 * ((2 ^ K - j % 2 ^ K : ℕ) : ℝ) / 2 ^ K) =
      Real.cos (Real.pi / 2 * ((j % 2 ^ K : ℕ) : ℝ) / 2 ^ K) := by
    rw [← Real.sin_pi_div_two_sub]
    congr 1
    rw [Nat.cast_sub hr.le]
    push_cast
    field_simp
  rw [hangle]
  simp only [roundedSine, hsub]
  generalize hy : Real.pi / 2 * ((j % 2 ^ K : ℕ) : ℝ) / 2 ^ K = y at *
  obtain h | h | h | h := hq
  · simp only [h, Nat.cast_zero, mul_zero, zero_add]
    rw [quarterSine_eq hr.le hA, hy]
  · simp only [h]
    rw [quarterSine_eq (Nat.sub_le _ _) hA, hreflect, Nat.cast_one, mul_one, add_comm, Real.sin_add_pi_div_two]
  · simp only [h]
    have e : Real.pi / 2 * ((2 : ℕ) : ℝ) + y = y + Real.pi := by push_cast; ring
    rw [quarterSine_eq hr.le hA, hy, e, Real.sin_add_pi, mul_neg, roundHalfAway_neg]
  · simp only [h]
    have e : Real.pi / 2 * ((3 : ℕ) : ℝ) + y = y + Real.pi / 2 + Real.pi := by push_cast; ring
    rw [quarterSine_eq (Nat.sub_le _ _) hA, hreflect, e, Real.sin_add_pi, Real.sin_add_pi_div_two, mul_neg,
      roundHalfAway_neg]

theorem sin_mod_period (logN k : ℕ) :
    Real.sin (2 * Real.pi * ((k % 2 ^ logN : ℕ) : ℝ) / 2 ^ logN) = Real.sin (2 * Real.pi * (k : ℝ) / 2 ^ logN) := by
  have hN : (0 : ℝ) < 2 ^ logN := by positivity
  have hk : (k : ℝ) = ((k % 2 ^ logN : ℕ) : ℝ) + 2 ^ logN * ((k / 2 ^ logN : ℕ) : ℝ) := by
    have := Nat.mod_add_div k (2 ^ logN)
    exact_mod_cast this.symm
  have e : 2 * Real.pi * (k : ℝ) / 2 ^ logN =
      2 * Real.pi * ((k % 2 ^ logN : ℕ) : ℝ) / 2 ^ logN + ((k / 2 ^ logN : ℕ) : ℝ) * (2 * Real.pi) := by
    rw [hk]
    field_simp
  rw [e, Real.sin_add_nat_mul_two_pi]

theorem toInt_clamp16 (v : ℤ) : (BitVec.ofInt 16 (clamp16 v)).toInt = clamp16 v := by
  rw [BitVec.toInt_ofInt]
  apply Int.bmod_eq_of_le <;> simp only [clamp16] <;> omega

/-- R247: a sample of the tone block is `clamp16(rha(A * sin(2*pi*k0*n/N)))`. -/
theorem toneSample_eq {logN A : ℕ} (k0 n : ℕ) (hN : 2 ≤ logN) (hA : A ≤ 0x8000) :
    (toneSample logN A k0 n).toInt =
      clamp16 (roundHalfAway (A * Real.sin (2 * Real.pi * (k0 * n : ℕ) / 2 ^ logN))) := by
  have hpos : 0 < 2 ^ logN := by positivity
  rw [toneSample, toInt_clamp16, roundedSine_eq hN hA (Nat.mod_lt _ hpos), sin_mod_period]

@[simp] theorem toneBlock_length (logN A k0 : ℕ) : (toneBlock logN A k0).length = 2 ^ logN := by
  simp [toneBlock]

@[simp] theorem silentBlock_length (logN : ℕ) : (silentBlock logN).length = 2 ^ logN := by
  simp [silentBlock]

@[simp] theorem isSilent_silentBlock (logN : ℕ) : isSilent (silentBlock logN) = true := by
  simp [isSilent, silentBlock]

end Sys2Proof.Machine
end

