-- ==== Sys2Proof/Machine/Reference.lean ====
section
/-!
DEFINITION. The reference level of a transform bin, in exact real arithmetic (41_detector.md R132). It is what the
spec's vectors are computed with; an implementation's level function need not equal it (R133), so no step uses it.
Real numbers cannot be computed with: these definitions stand in propositions only.
-/

namespace Sys2Proof.Machine

/-- `Xf(k)`: the N-point DFT of the block, no window function (41_detector.md R132). DESIGN CHOICE, log 18: a list
shorter than N is read as if zeros followed it, and samples past the N-th are not looked at. -/
noncomputable def transform (logN : ℕ) (X : List Sample) (k : ℕ) : ℂ :=
  ∑ n ∈ Finset.range (2 ^ logN), ((X.getD n 0).toInt : ℂ) *
    (Real.cos (2 * Real.pi * k * n / 2 ^ logN) - Complex.I * Real.sin (2 * Real.pi * k * n / 2 ^ logN))

/-- `mag(k) = 2*|Xf(k)| / (N*32768)` (41_detector.md R132). -/
noncomputable def magnitude (logN : ℕ) (X : List Sample) (k : ℕ) : ℝ :=
  2 * ‖transform logN X k‖ / (2 ^ logN * 32768)

open Classical in
/-- `RefDb` as a function of the magnitude (41_detector.md R132). -/
noncomputable def levelOf (mag : ℝ) : ℤ :=
  if mag = 0 then -32768 else clamp16 ⌊(256 * 20 : ℝ) * Real.logb 10 mag⌋

/-- `RefDb(X, k)` (41_detector.md R132). DESIGN CHOICE, log 18: the same formula for k at or above N/2, where the rule
defines nothing. -/
noncomputable def refDb (logN : ℕ) (X : List Sample) (k : ℕ) : ℤ := levelOf (magnitude logN X k)

end Sys2Proof.Machine
end

