-- ==== Sys2Proof/Laws/Reference.lean ====
section
/-!
SUPPORT. Facts about the reference level (41_detector.md R142): silence, the transform of a tone at an exact bin, and
the two halves of DET-TONE for the reference tone of 45_tx_sequencer.md R247.
-/

namespace Sys2Proof.Machine

open Finset

/-! ### Levels -/

theorem levelOf_zero : levelOf 0 = -32768 := by simp [levelOf]

theorem levelOf_pos {m : ℝ} (h : 0 < m) : levelOf m = clamp16 ⌊(256 * 20 : ℝ) * Real.logb 10 m⌋ := by
  simp [levelOf, h.ne']

theorem logb_mono {x y : ℝ} (hx : 0 < x) (h : x ≤ y) : Real.logb 10 x ≤ Real.logb 10 y :=
  Real.logb_le_logb_of_le (by norm_num) hx h

/-- A magnitude has at least the level of a smaller one that is at most 1. -/
theorem le_levelOf {b m : ℝ} (hb : 0 < b) (hb1 : b ≤ 1) (h : b ≤ m) :
    ⌊(256 * 20 : ℝ) * Real.logb 10 b⌋ ≤ levelOf m := by
  have hm : 0 < m := lt_of_lt_of_le hb h
  rw [levelOf_pos hm]
  have h1 : ⌊(256 * 20 : ℝ) * Real.logb 10 b⌋ ≤ ⌊(256 * 20 : ℝ) * Real.logb 10 m⌋ :=
    Int.floor_le_floor (by have := logb_mono hb h; linarith)
  have h2 : ⌊(256 * 20 : ℝ) * Real.logb 10 b⌋ ≤ 0 := by
    rw [← Int.lt_add_one_iff, Int.floor_lt]
    have : Real.logb 10 b ≤ 0 := Real.logb_nonpos (by norm_num) hb.le hb1
    push_cast
    linarith
  simp only [clamp16]
  omega

theorem logb_two_bounds : 1 / 5120 ≤ Real.logb 10 2 ∧ Real.logb 10 2 ≤ 1 / 3 := by
  constructor
  · rw [Real.le_logb_iff_rpow_le (by norm_num) (by norm_num)]
    calc (10 : ℝ) ^ (1 / 5120 : ℝ) ≤ (1024 : ℝ) ^ (1 / 5120 : ℝ) :=
          Real.rpow_le_rpow (by norm_num) (by norm_num) (by norm_num)
      _ = ((2 : ℝ) ^ (10 : ℝ)) ^ (1 / 5120 : ℝ) := by norm_num
      _ = (2 : ℝ) ^ (1 / 512 : ℝ) := by rw [← Real.rpow_mul (by norm_num)]; norm_num
      _ ≤ (2 : ℝ) ^ (1 : ℝ) := Real.rpow_le_rpow_of_exponent_le (by norm_num) (by norm_num)
      _ = 2 := by norm_num
  · rw [Real.logb_le_iff_le_rpow (by norm_num) (by norm_num)]
    calc (2 : ℝ) = (8 : ℝ) ^ (1 / 3 : ℝ) := by
          rw [show (8 : ℝ) = (2 : ℝ) ^ (3 : ℝ) by norm_num, ← Real.rpow_mul (by norm_num)]; norm_num
      _ ≤ (10 : ℝ) ^ (1 / 3 : ℝ) := Real.rpow_le_rpow (by norm_num) (by norm_num) (by norm_num)

/-- Half the magnitude is a strictly lower level, for a magnitude of at least two sample units. -/
theorem levelOf_lt {m m0 : ℝ} (hm : 0 ≤ m) (hm1 : m ≤ 1) (h2 : 2 * m ≤ m0) (h0 : 2 / 32768 ≤ m0) :
    levelOf m < levelOf m0 := by
  have hpos : 0 < m0 := lt_of_lt_of_le (by norm_num) h0
  obtain ⟨hl, hu⟩ := logb_two_bounds
  have hlow : (-32767 : ℤ) ≤ ⌊(256 * 20 : ℝ) * Real.logb 10 m0⌋ := by
    rw [Int.le_floor]
    have e : Real.logb 10 (2 / 32768) = -14 * Real.logb 10 2 := by
      rw [show (2 / 32768 : ℝ) = (2 ^ 14)⁻¹ by norm_num, Real.logb_inv, Real.logb_pow]
      push_cast; ring
    have := logb_mono (by norm_num) h0
    rw [e] at this
    push_cast
    linarith
  rw [levelOf_pos hpos]
  rcases hm.eq_or_lt with rfl | hm
  · rw [levelOf_zero]
    simp only [clamp16]
    omega
  · rw [levelOf_pos hm]
    have hneg : ⌊(256 * 20 : ℝ) * Real.logb 10 m⌋ ≤ 0 := by
      rw [← Int.lt_add_one_iff, Int.floor_lt]
      have : Real.logb 10 m ≤ 0 := Real.logb_nonpos (by norm_num) hm.le hm1
      push_cast
      linarith
    have hlt : ⌊(256 * 20 : ℝ) * Real.logb 10 m⌋ + 1 ≤ ⌊(256 * 20 : ℝ) * Real.logb 10 m0⌋ := by
      rw [Int.le_floor]
      have h1 := logb_mono (by positivity) h2
      rw [Real.logb_mul (by norm_num) hm.ne'] at h1
      have := Int.floor_le ((256 * 20 : ℝ) * Real.logb 10 m)
      push_cast
      linarith
    simp only [clamp16]
    omega

/-! ### Silence -/

/-- R142 (a): a block of zeros has level −32768 in every bin. -/
theorem refDb_silent {logN : ℕ} {X : List Sample} (hX : isSilent X = true) (k : ℕ) : refDb logN X k = -32768 := by
  have hz : ∀ n, X.getD n 0 = 0 := by
    intro n
    rw [List.getD_eq_getElem?_getD]
    rcases h : X[n]? with _ | x
    · rfl
    · have := List.mem_of_getElem? h
      simp only [isSilent, List.all_eq_true, beq_iff_eq] at hX
      simpa using hX x this
  have : transform logN X k = 0 := by
    rw [transform]
    apply sum_eq_zero
    intro n _
    rw [hz]
    simp
  simp [refDb, magnitude, this, levelOf_zero]

/-! ### The transform of a tone -/

/-- A whole number of turns in N steps sums to nothing, unless each step is a whole number of turns. -/
theorem root_sum_eq_zero {N : ℕ} {m : ℤ} (hN : 0 < N) (hm : ¬ (N : ℤ) ∣ m) :
    ∑ n ∈ range N, Complex.exp (2 * Real.pi * Complex.I * (m * n / N)) = 0 := by
  have hN' : (N : ℂ) ≠ 0 := by exact_mod_cast hN.ne'
  have hpi : (2 * Real.pi * Complex.I : ℂ) ≠ 0 := Complex.two_pi_I_ne_zero
  set r : ℂ := Complex.exp (2 * Real.pi * Complex.I * (m / N)) with hr
  have hterm : ∀ n ∈ range N, Complex.exp (2 * Real.pi * Complex.I * (m * n / N)) = r ^ n := by
    intro n _
    rw [hr, ← Complex.exp_nat_mul]
    congr 1
    ring
  rw [sum_congr rfl hterm]
  have hrN : r ^ N = 1 := by
    rw [hr, ← Complex.exp_nat_mul, Complex.exp_eq_one_iff]
    refine ⟨m, ?_⟩
    field_simp
  have hr1 : r ≠ 1 := by
    intro h
    rw [hr, Complex.exp_eq_one_iff] at h
    obtain ⟨q, hq⟩ := h
    apply hm
    refine ⟨q, ?_⟩
    have : (m : ℂ) / N = q := by
      apply mul_left_cancel₀ hpi
      rw [hq]; ring
    rw [div_eq_iff hN'] at this
    have h' : (m : ℂ) = (N : ℂ) * q := by rw [this]; ring
    exact_mod_cast h'
  rw [geom_sum_eq hr1, hrN]
  simp

/-- The sine at bin k0 against the kernel of bin k, term by term. -/
theorem sine_mul_kernel (N k0 k n : ℕ) :
    (Real.sin (2 * Real.pi * (k0 * n : ℕ) / N) : ℂ) *
      (Real.cos (2 * Real.pi * k * n / N) - Complex.I * Real.sin (2 * Real.pi * k * n / N)) =
    Complex.I / 2 * (Complex.exp (2 * Real.pi * Complex.I * ((-(k0 + k : ℤ) : ℤ) * n / N)) -
      Complex.exp (2 * Real.pi * Complex.I * (((k0 : ℤ) - k : ℤ) * n / N))) := by
  set α : ℂ := 2 * Real.pi * (k0 * n : ℕ) / N with hα
  set β : ℂ := 2 * Real.pi * k * n / N with hβ
  have h1 : (Real.sin (2 * Real.pi * (k0 * n : ℕ) / N) : ℂ) =
      (Complex.exp (-α * Complex.I) - Complex.exp (α * Complex.I)) * Complex.I / 2 := by
    rw [Complex.ofReal_sin, Complex.sin]
    simp [hα]
  have h2 : (Real.cos (2 * Real.pi * k * n / N) : ℂ) - Complex.I * Real.sin (2 * Real.pi * k * n / N) =
      Complex.exp (-β * Complex.I) := by
    rw [Complex.exp_mul_I, Complex.cos_neg, Complex.sin_neg, Complex.ofReal_cos, Complex.ofReal_sin]
    simp only [hβ]
    push_cast
    ring
  have h3 : 2 * Real.pi * Complex.I * ((-(k0 + k : ℤ) : ℤ) * n / N) = -α * Complex.I + -β * Complex.I := by
    rw [hα, hβ]; push_cast; ring
  have h4 : 2 * Real.pi * Complex.I * (((k0 : ℤ) - k : ℤ) * n / N) = α * Complex.I + -β * Complex.I := by
    rw [hα, hβ]; push_cast; ring
  rw [h1, h2, h3, h4, Complex.exp_add, Complex.exp_add]
  ring

/-- The transform of the ideal sine: half the block length at its own bin, nothing at every other (R142 (b)). -/
theorem norm_sine_transform {N k0 k : ℕ} (h0 : 0 < k0) (h1 : k0 < N / 2) (hk : k < N / 2) :
    ‖∑ n ∈ range N, (Real.sin (2 * Real.pi * (k0 * n : ℕ) / N) : ℂ) *
      (Real.cos (2 * Real.pi * k * n / N) - Complex.I * Real.sin (2 * Real.pi * k * n / N))‖ =
    if k = k0 then (N : ℝ) / 2 else 0 := by
  have hN : 0 < N := by omega
  have hsum : ∀ m : ℤ, m ≠ 0 → -(N : ℤ) < m → m < N → ¬ (N : ℤ) ∣ m := by
    intro m hm hl hu ⟨q, hq⟩
    have hNZ : (0 : ℤ) < N := by exact_mod_cast hN
    rcases lt_trichotomy q 0 with h | h | h
    · have : (N : ℤ) * q ≤ N * (-1) := mul_le_mul_of_nonneg_left (by omega) hNZ.le
      omega
    · subst h; simp at hq; exact hm hq
    · have : (N : ℤ) * 1 ≤ N * q := mul_le_mul_of_nonneg_left (by omega) hNZ.le
      omega
  rw [sum_congr rfl fun n _ => sine_mul_kernel N k0 k n, ← mul_sum, sum_sub_distrib,
    root_sum_eq_zero hN (hsum _ (by omega) (by omega) (by omega)), zero_sub]
  split_ifs with h
  · subst h
    have : ∀ n ∈ range N, Complex.exp (2 * Real.pi * Complex.I * (((k : ℤ) - k : ℤ) * n / N)) = 1 := by
      intro n _; simp
    rw [sum_congr rfl this]
    simp
    ring
  · rw [root_sum_eq_zero hN (hsum _ (by omega) (by omega) (by omega))]
    simp

/-! ### The reference tone -/

theorem abs_roundHalfAway_sub (x : ℝ) : |(roundHalfAway x : ℝ) - x| ≤ 1 / 2 := by
  have h1 := Int.floor_le (x + 1 / 2)
  have h2 := Int.lt_floor_add_one (x + 1 / 2)
  have h3 := Int.floor_le (-x + 1 / 2)
  have h4 := Int.lt_floor_add_one (-x + 1 / 2)
  rw [abs_le]
  rw [roundHalfAway]
  split_ifs
  · constructor <;> linarith
  · push_cast
    constructor <;> linarith

/-- How far a sample of the tone may be from the ideal sine (R142 (b)). -/
noncomputable def toneError (A : ℕ) : ℝ := if A = 0x8000 then 1 else 1 / 2

theorem abs_toneSample_sub {logN A : ℕ} (k0 n : ℕ) (hN : 2 ≤ logN) (hA : A ≤ 0x8000) :
    |((toneSample logN A k0 n).toInt : ℝ) - A * Real.sin (2 * Real.pi * (k0 * n : ℕ) / 2 ^ logN)| ≤ toneError A := by
  rw [toneSample_eq k0 n hN hA]
  set x : ℝ := A * Real.sin (2 * Real.pi * (k0 * n : ℕ) / 2 ^ logN) with hx
  have hr := abs_le.1 (abs_roundHalfAway_sub x)
  have hA0 : (0 : ℝ) ≤ A := Nat.cast_nonneg A
  have hx1 : x ≤ A := by
    rw [hx]; exact mul_le_of_le_one_right hA0 (Real.sin_le_one _)
  have hx2 : -(A : ℝ) ≤ x := by
    have := mul_le_mul_of_nonneg_left (Real.neg_one_le_sin (2 * Real.pi * (k0 * n : ℕ) / 2 ^ logN)) hA0
    rw [hx]; linarith
  rw [toneError]
  split_ifs with h
  · subst h
    push_cast at hx1 hx2
    have hu : roundHalfAway x ≤ 32768 := by
      have : (roundHalfAway x : ℝ) < 32769 := by linarith
      have : roundHalfAway x < 32769 := by exact_mod_cast this
      omega
    have hl : -32768 ≤ roundHalfAway x := by
      have : (-32769 : ℝ) < roundHalfAway x := by linarith
      have : -32769 < roundHalfAway x := by exact_mod_cast this
      omega
    by_cases h8 : roundHalfAway x = 32768
    · have : clamp16 (roundHalfAway x) = 32767 := by rw [h8]; rfl
      rw [this, abs_le]
      rw [h8] at hr
      push_cast at hr ⊢
      constructor <;> linarith
    · have : clamp16 (roundHalfAway x) = roundHalfAway x := by simp only [clamp16]; omega
      rw [this, abs_le]
      constructor <;> linarith
  · have hA' : (A : ℝ) ≤ 32767 := by
      have : A ≤ 32767 := by omega
      exact_mod_cast this
    have hu : roundHalfAway x < 32768 := by
      have : (roundHalfAway x : ℝ) < 32768 := by linarith
      exact_mod_cast this
    have hl : -32768 < roundHalfAway x := by
      have : (-32768 : ℝ) < roundHalfAway x := by linarith
      exact_mod_cast this
    have : clamp16 (roundHalfAway x) = roundHalfAway x := by simp only [clamp16]; omega
    rw [this]
    exact abs_roundHalfAway_sub x

/-- The transform of the tone block is that of the ideal sine up to the samples' errors. -/
theorem transform_tone_near {logN A k0 k : ℕ} (hN : 2 ≤ logN) (hA : A ≤ 0x8000) (h0 : 0 < k0) (h1 : k0 < 2 ^ logN / 2)
    (hk : k < 2 ^ logN / 2) :
    |‖transform logN (toneBlock logN A k0) k‖ - if k = k0 then (A : ℝ) * (2 ^ logN / 2) else 0| ≤
      2 ^ logN * toneError A := by
  have hideal := norm_sine_transform h0 h1 hk
  set S : ℂ := ∑ n ∈ range (2 ^ logN), (Real.sin (2 * Real.pi * (k0 * n : ℕ) / (2 ^ logN : ℕ)) : ℂ) *
      (Real.cos (2 * Real.pi * k * n / (2 ^ logN : ℕ)) - Complex.I * Real.sin (2 * Real.pi * k * n / (2 ^ logN : ℕ)))
    with hS
  have hAS : ‖(A : ℂ) * S‖ = if k = k0 then (A : ℝ) * (2 ^ logN / 2) else 0 := by
    rw [norm_mul, hideal, Complex.norm_natCast]
    split_ifs
    · push_cast; ring
    · simp
  rw [← hAS]
  refine (abs_norm_sub_norm_le _ _).trans ?_
  rw [transform, hS, mul_sum, ← sum_sub_distrib]
  refine (norm_sum_le _ _).trans ?_
  have hterm : ∀ n ∈ range (2 ^ logN), ‖((((toneBlock logN A k0).getD n 0).toInt : ℂ) *
      (Real.cos (2 * Real.pi * k * n / 2 ^ logN) - Complex.I * Real.sin (2 * Real.pi * k * n / 2 ^ logN)) -
      (A : ℂ) * ((Real.sin (2 * Real.pi * (k0 * n : ℕ) / (2 ^ logN : ℕ)) : ℂ) *
      (Real.cos (2 * Real.pi * k * n / (2 ^ logN : ℕ)) -
        Complex.I * Real.sin (2 * Real.pi * k * n / (2 ^ logN : ℕ)))))‖ ≤ toneError A := by
    intro n hn
    have hn' : n < 2 ^ logN := by simpa using hn
    have hget : (toneBlock logN A k0).getD n 0 = toneSample logN A k0 n := by
      simp [toneBlock, List.getD_eq_getElem?_getD, hn']
    rw [hget]
    push_cast
    set w : ℂ := Complex.cos (2 * Real.pi * k * n / 2 ^ logN) - Complex.I * Complex.sin (2 * Real.pi * k * n / 2 ^ logN)
      with hw
    have hwn : ‖w‖ = 1 := by
      have : w = Complex.exp (((-(2 * Real.pi * k * n / 2 ^ logN) : ℝ) : ℂ) * Complex.I) := by
        rw [hw, Complex.exp_mul_I]
        push_cast
        rw [Complex.cos_neg, Complex.sin_neg]
        ring
      rw [this, Complex.norm_exp_ofReal_mul_I]
    have e : ((toneSample logN A k0 n).toInt : ℂ) * w -
        A * (Complex.sin (2 * Real.pi * (k0 * n) / 2 ^ logN) * w) =
        ((((toneSample logN A k0 n).toInt : ℝ) - A * Real.sin (2 * Real.pi * (k0 * n : ℕ) / 2 ^ logN) : ℝ) : ℂ) * w := by
      push_cast
      ring
    rw [e, norm_mul, hwn, mul_one, Complex.norm_real, Real.norm_eq_abs]
    exact abs_toneSample_sub k0 n hN hA
  refine (sum_le_sum hterm).trans ?_
  simp

/-- The magnitudes of the tone block: its own bin, and every other below half the block length. -/
theorem magnitude_tone {logN A k0 k : ℕ} (hN : 2 ≤ logN) (hA : A ≤ 0x8000) (h0 : 0 < k0) (h1 : k0 < 2 ^ logN / 2)
    (hk : k < 2 ^ logN / 2) :
    (k = k0 → ((A : ℝ) - 2 * toneError A) / 32768 ≤ magnitude logN (toneBlock logN A k0) k) ∧
    (k ≠ k0 → magnitude logN (toneBlock logN A k0) k ≤ 2 * toneError A / 32768) := by
  have h := abs_le.1 (transform_tone_near hN hA h0 h1 hk)
  have hN' : (0 : ℝ) < 2 ^ logN := by positivity
  rw [magnitude]
  constructor
  · intro e
    rw [if_pos e] at h
    rw [div_le_div_iff₀ (by norm_num) (by positivity)]
    nlinarith [h.1]
  · intro e
    rw [if_neg e] at h
    rw [div_le_div_iff₀ (by positivity) (by norm_num)]
    nlinarith [h.2]

/-- DET-TONE, first half, for the reference level. -/
theorem refDb_tone_level {logN A k0 : ℕ} (hN : 2 ≤ logN) (hA3 : 3 ≤ A) (hA : A ≤ 0x8000) (h0 : 0 < k0)
    (h1 : k0 < 2 ^ logN / 2) :
    ⌊(256 * 20 : ℝ) * Real.logb 10 (((A : ℝ) - 1) / 32768)⌋ ≤ refDb logN (toneBlock logN A k0) k0 := by
  have h := (magnitude_tone hN hA h0 h1 h1).1 rfl
  have hA3' : (3 : ℝ) ≤ A := by exact_mod_cast hA3
  have hA' : (A : ℝ) ≤ 32768 := by exact_mod_cast hA
  rw [toneError] at h
  split_ifs at h with h8
  · have hA8 : (A : ℝ) = 32768 := by exact_mod_cast h8
    have hx : (32766 / 32768 : ℝ) ≤ magnitude logN (toneBlock logN A k0) k0 := by
      rw [hA8] at h; norm_num at h ⊢; linarith
    refine le_trans ?_ (le_levelOf (by norm_num) (by norm_num) hx)
    have hle : ⌊(256 * 20 : ℝ) * Real.logb 10 (((A : ℝ) - 1) / 32768)⌋ ≤ -1 := by
      rw [← Int.lt_add_one_iff, Int.floor_lt]
      have : Real.logb 10 (((A : ℝ) - 1) / 32768) < 0 :=
        Real.logb_neg (by norm_num) (by rw [hA8]; norm_num) (by rw [hA8]; norm_num)
      push_cast
      linarith
    refine hle.trans ?_
    rw [Int.le_floor]
    have hb : (1 / 10 : ℝ) ≤ (32766 / 32768) ^ 5120 := by
      have h1 := one_add_mul_le_pow (a := (-(2 / 32768) : ℝ)) (by norm_num) 5120
      rw [show (1 : ℝ) + -(2 / 32768) = 32766 / 32768 by norm_num] at h1
      exact le_trans (by norm_num) h1
    have hl := logb_mono (by norm_num) hb
    rw [Real.logb_pow, show (1 / 10 : ℝ) = 10⁻¹ by norm_num, Real.logb_inv, Real.logb_self_eq_one (by norm_num)] at hl
    push_cast at hl ⊢
    linarith
  · refine le_levelOf (by apply div_pos <;> linarith) (by rw [div_le_one (by norm_num)]; linarith) ?_
    have e : ((A : ℝ) - 2 * (1 / 2)) / 32768 = ((A : ℝ) - 1) / 32768 := by ring
    rw [e] at h
    exact h

/-- DET-TONE, second half, for the reference level. -/
theorem refDb_tone_peak {logN A k0 k : ℕ} (hN : 2 ≤ logN) (hA3 : 3 ≤ A) (hA : A ≤ 0x8000) (h0 : 0 < k0)
    (h1 : k0 < 2 ^ logN / 2) (hk : k < 2 ^ logN / 2) (hne : k ≠ k0) :
    refDb logN (toneBlock logN A k0) k < refDb logN (toneBlock logN A k0) k0 := by
  have hown := (magnitude_tone hN hA h0 h1 h1).1 rfl
  have hother := (magnitude_tone hN hA h0 h1 hk).2 hne
  have hA3' : (3 : ℝ) ≤ A := by exact_mod_cast hA3
  have hm : 0 ≤ magnitude logN (toneBlock logN A k0) k := by rw [magnitude]; positivity
  have he : toneError A ≤ 1 ∧ 4 * toneError A ≤ (A : ℝ) - 2 * toneError A ∧ 2 ≤ (A : ℝ) - 2 * toneError A := by
    rw [toneError]
    split_ifs with h8
    · have hA8 : (A : ℝ) = 32768 := by exact_mod_cast h8
      rw [hA8]; norm_num
    · refine ⟨by norm_num, by linarith, by linarith⟩
  obtain ⟨e1, e2, e3⟩ := he
  apply levelOf_lt hm
  · refine hother.trans ?_
    rw [div_le_one (by norm_num)]
    linarith
  · calc 2 * magnitude logN (toneBlock logN A k0) k ≤ 4 * toneError A / 32768 := by linarith
      _ ≤ ((A : ℝ) - 2 * toneError A) / 32768 := by gcongr
      _ ≤ _ := hown
  · refine le_trans ?_ hown
    gcongr

/-- R142 (c): no level of a block of 16-bit samples exceeds 1541. -/
theorem refDb_le {logN : ℕ} (X : List Sample) (k : ℕ) : refDb logN X k ≤ 1541 := by
  have hN' : (0 : ℝ) < 2 ^ logN := by positivity
  have hb : ‖transform logN X k‖ ≤ 2 ^ logN * 32768 := by
    rw [transform]
    refine (norm_sum_le _ _).trans ?_
    have hterm : ∀ n ∈ range (2 ^ logN), ‖((X.getD n 0).toInt : ℂ) *
        (Real.cos (2 * Real.pi * k * n / 2 ^ logN) - Complex.I * Real.sin (2 * Real.pi * k * n / 2 ^ logN))‖ ≤
        32768 := by
      intro n _
      have hw : ‖(Real.cos (2 * Real.pi * k * n / 2 ^ logN) : ℂ) -
          Complex.I * Real.sin (2 * Real.pi * k * n / 2 ^ logN)‖ = 1 := by
        have e : (Real.cos (2 * Real.pi * k * n / 2 ^ logN) : ℂ) -
            Complex.I * Real.sin (2 * Real.pi * k * n / 2 ^ logN) =
            Complex.exp (((-(2 * Real.pi * k * n / 2 ^ logN) : ℝ) : ℂ) * Complex.I) := by
          rw [Complex.exp_mul_I]
          push_cast
          rw [Complex.cos_neg, Complex.sin_neg]
          ring
        rw [e, Complex.norm_exp_ofReal_mul_I]
      rw [norm_mul, hw, mul_one, Complex.norm_intCast, abs_le]
      have h1 := BitVec.le_toInt (X.getD n 0)
      have h2 := BitVec.toInt_lt (x := X.getD n 0)
      norm_num at h1 h2
      constructor
      · exact_mod_cast h1
      · exact_mod_cast h2.le
    refine (sum_le_sum hterm).trans ?_
    simp
  have hm : magnitude logN X k ≤ 2 := by
    rw [magnitude, div_le_iff₀ (by positivity)]
    linarith
  have hm0 : 0 ≤ magnitude logN X k := by rw [magnitude]; positivity
  rcases hm0.eq_or_lt with h | h
  · rw [refDb, ← h, levelOf_zero]; norm_num
  · rw [refDb, levelOf_pos h]
    have hlog : Real.logb 10 2 ≤ 0.3011 := by
      rw [Real.logb_le_iff_le_rpow (by norm_num) (by norm_num)]
      calc (2 : ℝ) = ((2 : ℝ) ^ (10000 : ℝ)) ^ (1 / 10000 : ℝ) := by
            rw [← Real.rpow_mul (by norm_num)]; norm_num
        _ ≤ ((10 : ℝ) ^ (3011 : ℝ)) ^ (1 / 10000 : ℝ) := by
            apply Real.rpow_le_rpow (by positivity) _ (by norm_num)
            have : (2 : ℝ) ^ (10000 : ℕ) ≤ (10 : ℝ) ^ (3011 : ℕ) := by
              exact_mod_cast (by decide +kernel : 2 ^ 10000 ≤ 10 ^ 3011)
            exact_mod_cast this
        _ = 10 ^ (0.3011 : ℝ) := by rw [← Real.rpow_mul (by norm_num)]; norm_num
    have hf : ⌊(256 * 20 : ℝ) * Real.logb 10 (magnitude logN X k)⌋ ≤ 1541 := by
      rw [← Int.lt_add_one_iff, Int.floor_lt]
      have := logb_mono h hm
      push_cast
      linarith
    simp only [clamp16]
    omega

/-- The tone block is never silent. -/
theorem toneBlock_not_silent {logN A k0 : ℕ} (hN : 3 ≤ logN) (hA3 : 3 ≤ A) (hA : A ≤ 0x8000) (h0 : 0 < k0)
    (h1 : k0 < 2 ^ logN / 2) : isSilent (toneBlock logN A k0) = false := by
  rw [← Bool.not_eq_true]
  intro h
  have := refDb_tone_peak (by omega) hA3 hA h0 h1 (by omega) h0.ne
  rw [refDb_silent h, refDb_silent h] at this
  exact lt_irrefl _ this

/-- Tone blocks of different bins differ. -/
theorem toneBlock_bin_injective {logN A B j k : ℕ} (hN : 3 ≤ logN) (hA3 : 3 ≤ A) (hA : A ≤ 0x8000) (hB3 : 3 ≤ B)
    (hB : B ≤ 0x8000) (hj : 0 < j) (hj2 : j < 2 ^ logN / 2) (hk : 0 < k) (hk2 : k < 2 ^ logN / 2)
    (h : toneBlock logN A j = toneBlock logN B k) : j = k := by
  by_contra hne
  have h1 := refDb_tone_peak (by omega) hA3 hA hj hj2 hk2 (Ne.symm hne)
  have h2 := refDb_tone_peak (by omega) hB3 hB hk hk2 hj2 hne
  rw [← h] at h2
  exact lt_asymm h1 h2

end Sys2Proof.Machine
end

