-- ==== Sys2Proof/Laws/DetectorExists.lean ====
section
/-!
SUPPORT. Some level function has the laws an implementation's has (41_detector.md R133): the reference level has them
(R142), and here is one that can be computed. It is the evidence that `Config.detector` asks for, and nothing is
known of `Config.detector` because of which function this is.
-/

namespace Sys2Proof

open Machine

/-- The largest level at bin k of a tone block of bin k, the smallest level everywhere else. -/
def Detector.sampleLevel (logN : Nat) (X : List Sample) (k : Nat) : Level :=
  if 0 < k ∧ k < 2 ^ logN / 2 ∧ ∃ A : Fin 0x8001, 3 ≤ A.val ∧ X = toneBlock logN A k then 0x7FFF else 0x8000

theorem sampleLevel_own {logN A k0 : Nat} (hA3 : 3 ≤ A) (hA : A ≤ 0x8000) (h0 : 0 < k0) (h1 : k0 < 2 ^ logN / 2) :
    Detector.sampleLevel logN (toneBlock logN A k0) k0 = 0x7FFF := by
  rw [Detector.sampleLevel, if_pos ⟨h0, h1, ⟨A, by omega⟩, hA3, rfl⟩]

theorem sampleLevel_other {logN A k0 k : Nat} (hN : 3 ≤ logN) (hA3 : 3 ≤ A) (hA : A ≤ 0x8000) (h0 : 0 < k0)
    (h1 : k0 < 2 ^ logN / 2) (hne : k ≠ k0) : Detector.sampleLevel logN (toneBlock logN A k0) k = 0x8000 := by
  rw [Detector.sampleLevel, if_neg]
  rintro ⟨hk, hk2, ⟨B, hB⟩, hB3, heq⟩
  exact hne (toneBlock_bin_injective hN hA3 hA hB3 (by omega) h0 h1 hk hk2 heq).symm

theorem withSilenceFloor_tone (level : Nat → List Sample → Nat → Level) {logN A k0 : Nat} (k : Nat) (hN : 3 ≤ logN)
    (hA3 : 3 ≤ A) (hA : A ≤ 0x8000) (h0 : 0 < k0) (h1 : k0 < 2 ^ logN / 2) :
    withSilenceFloor level logN (toneBlock logN A k0) k = level logN (toneBlock logN A k0) k := by
  simp [withSilenceFloor, toneBlock_not_silent hN hA3 hA h0 h1]

/-- A level function with the laws of `Detector`. -/
def Detector.witness : Detector where
  level := Detector.sampleLevel
  tone_level := by
    intro logN A k0 hN _ hA3 hA h0 h1
    rw [withSilenceFloor_tone _ _ hN hA3 hA h0 h1, sampleLevel_own hA3 hA h0 h1, AtLeastToneBound]
    have hA' : (A : ℝ) ≤ 32768 := by exact_mod_cast hA
    have hA3' : (3 : ℝ) ≤ A := by exact_mod_cast hA3
    have hle : ⌊(256 * 20 : ℝ) * Real.logb 10 (((A : ℝ) - 1) / 32768)⌋ ≤ 0 := by
      rw [← Int.lt_add_one_iff, Int.floor_lt]
      have : Real.logb 10 (((A : ℝ) - 1) / 32768) ≤ 0 :=
        Real.logb_nonpos (by norm_num) (by apply div_nonneg <;> linarith) (by rw [div_le_one (by norm_num)]; linarith)
      push_cast
      linarith
    exact hle.trans (by decide)
  tone_peak := by
    intro logN A k0 k hN _ hA3 hA h0 h1 _ hne
    rw [withSilenceFloor_tone _ _ hN hA3 hA h0 h1, withSilenceFloor_tone _ _ hN hA3 hA h0 h1,
      sampleLevel_own hA3 hA h0 h1, sampleLevel_other hN hA3 hA h0 h1 hne]
    decide

/-- The reference level, as a function with bit-vector values, has the laws too (41_detector.md R133, R142). -/
theorem reference_has_tone_laws :
    ∀ logN A k0, 3 ≤ logN → 3 ≤ A → A ≤ 0x8000 → 0 < k0 → k0 < 2 ^ logN / 2 →
      AtLeastToneBound A (refDb logN (toneBlock logN A k0) k0) ∧
      ∀ k < 2 ^ logN / 2, k ≠ k0 → refDb logN (toneBlock logN A k0) k < refDb logN (toneBlock logN A k0) k0 := by
  intro logN A k0 hN hA3 hA h0 h1
  exact ⟨refDb_tone_level (by omega) hA3 hA h0 h1, fun k hk hne => refDb_tone_peak (by omega) hA3 hA h0 h1 hk hne⟩

end Sys2Proof
end

