-- ==== Sys2Proof/Machine/State.lean ====
section
/-!
DEFINITION. The state of ANSD as plain data (10_state.md), the records it emits, the reasons a step can stop, and the
machine right after power-on reset (70_reset_and_hazards.md R290, R291).
-/

namespace Sys2Proof.Machine

/-- NO_SYMBOL, DOC0's "silence/no-symbol" marker (10_state.md R24). -/
def noSymbol : Symbol := 0xFFFF

/-- The nine values of `RXSTATE` (10_state.md R25); codes 9 to 15 never occur (93_implementation_defined.md U9). -/
inductive RxState where
  | idleInit
  | firstSyncWait
  | firstSync
  | idle
  | symbol
  | sync
  | guard
  | error
  | fatalError
deriving DecidableEq, Repr

/-- The tri-state `isValid` of a frame candidate (10_state.md R41). -/
inductive Verdict where
  | unknown
  | valid
  | invalid
deriving DecidableEq, Repr

/-- A FrameCandidate record (10_state.md R41). `expected` is `none` while its known bit is 0. -/
structure Candidate where
  id : Id
  received : List Byte
  expected : Option (BitVec 8)
  isValid : Verdict
  symbolId : List Id
  syncId : Id
deriving DecidableEq, Repr

/-- A Frame record (10_state.md R42). -/
structure Frame where
  id : Id
  header : Byte
  payload : List Byte
  checksum : Byte
  isCommand : Bool
  frameCandidateId : Id
deriving DecidableEq, Repr

/-- The snapshot of one Config instance carried by a CFG event (10_state.md R22, 40_config_ops.md R108). -/
structure ConfigSnapshot where
  symbolMin : BitVec 15
  symbolMax : BitVec 15
  sampleRate : BitVec 24
  amplitude : BitVec 16
  loopbackEnabled : Bool
deriving DecidableEq, Repr

/-- The seven kinds of event record (10_state.md R22). -/
inductive Event where
  /-- FRAME: one Frame record (44_framer.md R218). -/
  | frame (f : Frame)
  /-- CANDS: the table after the operation and the records it removed (44_framer.md R221). DEDUCED, log 12: a
  removed record is reported by the required pair. -/
  | cands (inflight : List Candidate) (resolved : List (Id × Verdict))
  /-- CFG: the setter's opcode and both snapshots after the write (40_config_ops.md R108). -/
  | cfg (which : BitVec 8) (tx rx : ConfigSnapshot) (thresh : BitVec 16)
  /-- TXERR: the send failure's code (60_exceptions.md R262). -/
  | txerr (code : BitVec 4)
  /-- SETERR: the setter's opcode and the rejection's code (60_exceptions.md R265). -/
  | seterr (which : BitVec 8) (code : BitVec 4)
  /-- FATAL: the fatal configuration's code (60_exceptions.md R264). -/
  | fatal (code : BitVec 4)
  /-- CMDERR: the rejected command word (30_encoding.md R92). -/
  | cmderr (word : Word32)
deriving DecidableEq, Repr

/-- The tone descriptor on TOUT (45_tx_sequencer.md R244). -/
structure ToneDescriptor where
  valid : Bool
  symbol : Symbol
  bin : BitVec 16
  amplitude : BitVec 16
  sampleRate : BitVec 24
deriving DecidableEq, Repr

/-- What the host can present on CMD and RST (10_state.md R21): a command word, or a power-on reset
(70_reset_and_hazards.md R290). -/
inductive HostInput where
  | por
  | word (w : Word32)
deriving DecidableEq, Repr

/-- The configuration registers (10_state.md R30 to R37), written only by setters, IRQEN and POR. -/
structure ConfigRegs where
  txRate : BitVec 24
  rxRate : BitVec 24
  txMin : BitVec 15
  txMax : BitVec 15
  rxMin : BitVec 15
  rxMax : BitVec 15
  txAmp : BitVec 16
  rxAmp : BitVec 16
  loop : Bool
  rxLoop : Bool
  thresh : BitVec 16
  irqEn : BitVec 7
deriving DecidableEq, Repr

/-- The receive path's registers: RXSTATE, the timing state, the latches and the history (10_state.md R25 to R29,
R40). -/
structure RxRegs where
  rxState : RxState
  sampCnt : SampleCount
  nextSp : SampleCount
  clockValid : Bool
  guardLeft : BitVec 8
  syncId : Id
  syncValid : Bool
  nextSyncId : Id
  lastRaw : Symbol
  lastPeak : Level
  lastSp : Bool
  lastSync : Bool
  hist : List Symbol
  histWr : Nat
  histCnt : Nat
deriving DecidableEq, Repr

/-- The framer's state (10_state.md R41, R42). -/
structure FramerRegs where
  cand : List Candidate
  nextCandId : Id
  lastFrame : Frame
  lastFrameValid : Bool
  nextFrameId : Id
deriving DecidableEq, Repr

/-- The transmit path's state (10_state.md R43, R44). -/
structure TxRegs where
  txq : List Symbol
  txCur : Symbol
  txHold : BitVec 8
  pbuf : Vector (BitVec 16) 32
deriving DecidableEq, Repr

/-- STATUS and the error information registers (10_state.md R38, R39). -/
structure DiagRegs where
  status : BitVec 7
  errCode : BitVec 4
  errCount : BitVec 16
  fatalCode : BitVec 4
  txErrCode : BitVec 4
  setErrCode : BitVec 4
  cmdErrWord : Word32
deriving DecidableEq, Repr

/-- The ports (10_state.md R21), the MODEL's own lists: what the host has presented and ANSD not yet taken, in order
(`pending`, log 2, and `sin`, log 3), and what ANSD has put out so far, oldest first (`evt`, R22, and `tout`, log 7). -/
structure Ports where
  pending : List HostInput
  sin : List (List Sample)
  evt : List Event
  tout : List ToneDescriptor
deriving DecidableEq, Repr

/-- The state of one instance: everything 10_state.md names, and the ports. There is no other state (R46). -/
structure State where
  params : Params
  cfg : ConfigRegs
  rx : RxRegs
  frm : FramerRegs
  tx : TxRegs
  diag : DiagRegs
  port : Ports
deriving DecidableEq, Repr

/-- `s` with other configuration registers. -/
def State.withCfg (s : State) (c : ConfigRegs) : State := { s with cfg := c }

/-- `s` with other receive registers. -/
def State.withRx (s : State) (r : RxRegs) : State := { s with rx := r }

/-- `s` with another framer state. -/
def State.withFrm (s : State) (f : FramerRegs) : State := { s with frm := f }

/-- `s` with another transmit state. -/
def State.withTx (s : State) (t : TxRegs) : State := { s with tx := t }

/-- `s` with other flags and diagnostics. -/
def State.withDiag (s : State) (d : DiagRegs) : State := { s with diag := d }

/-- `s` with other port lists. -/
def State.withPort (s : State) (p : Ports) : State := { s with port := p }

/-- Why a step stops with a fault: never. Every condition of ANSD is handled inside the operation that raises it and
the next command is taken normally (60_exceptions.md R260, R270), so the type has no constructor. DEDUCED, log 14. Safe. -/
inductive Fault where
deriving DecidableEq, Repr

/-- Why a step is refused. -/
inductive Refusal where
  /-- Raised by an arm of `exec` for an instruction with no meaning yet: by none now. Safe. -/
  | notModelled (mnemonic : String)
  /-- Raised by BLOCK with LOOP = 0 when the head of SIN is not a block of exactly N samples: "outside the model"
  (70_reset_and_hazards.md R300, 93_implementation_defined.md U4). DESIGN CHOICE, log 3. Safe. -/
  | sinNotOneBlock
deriving DecidableEq, Repr

/-- The configuration registers after POR (10_state.md R30 to R37). -/
def ConfigRegs.por : ConfigRegs :=
  { txRate := 48000
    rxRate := 48000
    txMin := 100
    txMax := 357
    rxMin := 100
    rxMax := 357
    txAmp := 0x199A
    rxAmp := 0x199A
    loop := false
    rxLoop := false
    thresh := 0xC400
    irqEn := 0 }

/-- The receive registers after POR (10_state.md R25 to R29, R40). -/
def RxRegs.por (p : Params) : RxRegs :=
  { rxState := .idleInit
    sampCnt := 0
    nextSp := 0
    clockValid := false
    guardLeft := 0
    syncId := 0
    syncValid := false
    nextSyncId := 0
    lastRaw := 0xFFFF
    lastPeak := 0x8000
    lastSp := false
    lastSync := false
    hist := List.replicate p.rawSymbolMax noSymbol
    histWr := 0
    histCnt := 0 }

/-- A Frame of zeros: LASTFRAME after POR and RESET (70_reset_and_hazards.md R291). -/
def Frame.zero : Frame :=
  { id := 0, header := 0, payload := [], checksum := 0, isCommand := false, frameCandidateId := 0 }

/-- The framer after POR (10_state.md R41, R42). -/
def FramerRegs.por : FramerRegs :=
  { cand := [], nextCandId := 0, lastFrame := .zero, lastFrameValid := false, nextFrameId := 0 }

/-- The transmit path after POR (10_state.md R43, R44). -/
def TxRegs.por : TxRegs :=
  { txq := [], txCur := 0xFFFF, txHold := 0, pbuf := Vector.replicate 32 0 }

/-- Flags and diagnostics after POR (10_state.md R38, R39). -/
def DiagRegs.por : DiagRegs :=
  { status := 0, errCode := 0, errCount := 0, fatalCode := 0, txErrCode := 0, setErrCode := 0, cmdErrWord := 0 }

/-- An instance with the given parameters right after POR, nothing waiting on its ports (70_reset_and_hazards.md
R290, R291). -/
def State.afterPor (p : Params) : State :=
  { params := p
    cfg := .por
    rx := .por p
    frm := .por
    tx := .por
    diag := .por
    port := { pending := [], sin := [], evt := [], tout := [] } }

/-- The machine right after reset: the POR column of 70_reset_and_hazards.md R291, with the default parameters of
00_scope.md R5. -/
def State.reset : State := State.afterPor Params.default

end Sys2Proof.Machine
end

