-- ==== Sys2Proof/Machine/Operands.lean ====
section
/-!
DEFINITION. Operand assembly (30_encoding.md section 2) and the symbol alphabet functions (00_scope.md section 5).
-/

namespace Sys2Proof.Machine

/-- An unsigned immediate: the integer its bits spell (30_encoding.md R87). -/
def zext {w : Nat} (imm : BitVec w) : Nat := imm.toNat

/-- A signed 16-bit value: SETTHRESH's immediate and every level (30_encoding.md R87, 10_state.md R36). -/
def sext16 (imm : BitVec 16) : Int := imm.toInt

/-- SYNC_A of an alphabet, `symbolMax − 1` (00_scope.md R11), as a 16-bit symbol. -/
def syncA (symbolMax : BitVec 15) : Symbol := symbolMax.setWidth 16 - 1

/-- SYNC_B of an alphabet, `symbolMax` (00_scope.md R11), as a 16-bit symbol. -/
def syncB (symbolMax : BitVec 15) : Symbol := symbolMax.setWidth 16

/-- The data symbols, `symbolMin ≤ s ≤ symbolMax − 2` (00_scope.md R11). -/
def isDataSymbol (symbolMin symbolMax : BitVec 15) (s : Nat) : Bool :=
  symbolMin.toNat ≤ s && s + 2 ≤ symbolMax.toNat

/-- `SymbolToBin(s) = F*s` (00_scope.md R12). -/
def symbolToBin (p : Params) (s : Nat) : Nat := p.fftFactor * s

/-- `BinToSymbol(k) = k / F` (00_scope.md R13). DESIGN CHOICE, log 16: for k not a multiple of F, where the rule defines
nothing, the quotient rounded down. -/
def binToSymbol (p : Params) (k : Nat) : Nat := k / p.fftFactor

/-- `SymbolToFrequency(c, s) = F*s*sampleRate / N` hertz, exactly (00_scope.md R12). No register holds it. -/
def symbolToFrequency (p : Params) (sampleRate s : Nat) : Rat := (p.fftFactor * s * sampleRate : Nat) / (p.fftSize : Nat)

/-- `FrequencyToSymbol(c, f) = floor(f*N / (F*sampleRate) + 1/2)` (00_scope.md R13), for a frequency of any ordered
field with a floor: a rational one is computed with, a real one stands in statements. No datapath rule uses it. -/
def frequencyToSymbol {K : Type} [Field K] [LinearOrder K] [FloorRing K] (p : Params) (sampleRate : Nat) (f : K) : Int :=
  ⌊f * (p.fftSize : K) / ((p.fftFactor * sampleRate : Nat) : K) + 1 / 2⌋

/-- Whether `ByteToSymbol(c, b)` is defined: `symbolMin + b ≤ symbolMax − 2` (00_scope.md R14). -/
def byteEncodable (symbolMin symbolMax : BitVec 15) (b : Byte) : Bool :=
  symbolMin.toNat + b.toNat + 2 ≤ symbolMax.toNat

/-- `ByteToSymbol(c, b) = symbolMin + b` (00_scope.md R14), as a 16-bit symbol. DESIGN CHOICE, log 16: the same sum for
a byte that has no data symbol, where the rule defines nothing. -/
def byteToSymbol (symbolMin : BitVec 15) (b : Byte) : Symbol := symbolMin.setWidth 16 + b.setWidth 16

/-- `SymbolToValue(c, s) = s − symbolMin` for a data symbol s (00_scope.md R14). DESIGN CHOICE, log 16: for s below
symbolMin, which is no data symbol, 0. -/
def symbolToValue (symbolMin : BitVec 15) (s : Nat) : Nat := s - symbolMin.toNat

/-- BLOCK's operand with LOOP = 0: the block at the head of SIN, when it has exactly N samples, and the blocks that
wait behind it (30_encoding.md R88, 70_reset_and_hazards.md R300). -/
def sinBlock (s : State) : Option (List Sample × List (List Sample)) :=
  match s.port.sin with
  | [] => none
  | X :: rest => if X.length = s.params.fftSize then some (X, rest) else none

/-- SENDFRAME's payload operand: `PBUF[0 .. len−1]` (45_tx_sequencer.md R234). -/
def payloadOperand (s : State) (len : Nat) : List (BitVec 16) := s.tx.pbuf.toList.take len

end Sys2Proof.Machine
end

