-- ==== Sys2Proof/Machine/Detector.lean ====
section
/-!
DEFINITION. DET, the spectral symbol detector (41_detector.md): a pure function of one block and the Rx
configuration, over the implementation's free level function.
-/

namespace Sys2Proof.Machine

/-- The level function of the implementation at hand: free, with the laws of `Detector` (41_detector.md R133,
log 4). -/
def implementationDetector : Detector := @Config.detector ⟨Detector.witness⟩

/-- `binDb(X, k)`, the level of transform bin k of block X (41_detector.md R133). -/
def binDb (p : Params) (X : List Sample) (k : Nat) : Level :=
  withSilenceFloor implementationDetector.level p.logFftSize X k

/-- `SymDb(X, s) = binDb(X, F*s)`: of every F transform bins only the one at the symbol's frequency is looked at
(41_detector.md R135). -/
def symDb (p : Params) (X : List Sample) (s : Nat) : Level := binDb p X (symbolToBin p s)

/-- The smallest of `lo .. lo + n` at which `level` is greatest (41_detector.md R136). -/
def peakSymbol (level : Nat → Int) (lo : Nat) : Nat → Nat
  | 0 => lo
  | n + 1 => if level (peakSymbol level lo n) < level (lo + n + 1) then lo + n + 1 else peakSymbol level lo n

/-- `sPeak` of 41_detector.md R136 over the window `[RXSYM.MIN, RXSYM.MAX]` (R134). -/
def windowPeak (p : Params) (c : ConfigRegs) (X : List Sample) : Nat :=
  peakSymbol (fun s => sext16 (symDb p X s)) c.rxMin.toNat (c.rxMax.toNat - c.rxMin.toNat)

/-- `Detect(X, cfg)`: the raw symbol and the peak level (41_detector.md R137). Below the threshold is strict.
DESIGN CHOICE, log 18: outside R130's precondition (an empty window, a window that reaches N/2, a block that is not N
samples), where it is never called, the same scan. -/
def detect (p : Params) (c : ConfigRegs) (X : List Sample) : Symbol × Level :=
  let sPeak := windowPeak p c X
  let peak := symDb p X sPeak
  if sext16 peak < sext16 c.thresh then (noSymbol, peak) else (BitVec.ofNat 16 sPeak, peak)

end Sys2Proof.Machine
end

