-- ==== Sys2Proof/Syntax.lean ====
section
/-!
DEFINITION. The commands of ANSD-CS version 1, one constructor for each row of spec/opcode_table.json
(30_encoding.md R89), with the operand fields of their formats (R81 to R86).
-/

namespace Sys2Proof

/-- A command. BLOCK's sample block is no part of the word (R88): it stands in the state's SIN list. -/
inductive Instr where
  /-- NOP, format Z, 40_config_ops.md R101. -/
  | nop
  /-- RESET, format Z, 40_config_ops.md R103. -/
  | reset
  /-- BLOCK, format Z, 43_rx_state_machine.md R170. -/
  | block
  /-- TXTICK, format Z, 45_tx_sequencer.md R242. -/
  | txtick
  /-- ACK `imm16`, format I16, 40_config_ops.md R102. -/
  | ack (imm : BitVec 16)
  /-- IRQEN `imm16`, format I16, 40_config_ops.md R105. -/
  | irqen (imm : BitVec 16)
  /-- SETLOOP `b`, format B, 40_config_ops.md R110. -/
  | setloop (b : Bool)
  /-- SETTXRATE `imm24`, format I24, 40_config_ops.md R111. -/
  | settxrate (imm : BitVec 24)
  /-- SETRXRATE `imm24`, format I24, 40_config_ops.md R112. -/
  | setrxrate (imm : BitVec 24)
  /-- SETAMP `imm16`, format I16, 40_config_ops.md R113. -/
  | setamp (imm : BitVec 16)
  /-- SETTXMIN `imm16`, format I16, 40_config_ops.md R114. -/
  | settxmin (imm : BitVec 16)
  /-- SETTXMAX `imm16`, format I16, 40_config_ops.md R115. -/
  | settxmax (imm : BitVec 16)
  /-- SETRXMIN `imm16`, format I16, 40_config_ops.md R116. -/
  | setrxmin (imm : BitVec 16)
  /-- SETRXMAX `imm16`, format I16, 40_config_ops.md R117. -/
  | setrxmax (imm : BitVec 16)
  /-- SETTHRESH `imm16`, format I16, 40_config_ops.md R118. -/
  | setthresh (imm : BitVec 16)
  /-- LDP `idx, val`, format W, 45_tx_sequencer.md R231. -/
  | ldp (idx : BitVec 8) (val : BitVec 16)
  /-- SENDFRAME `len, cmd`, format S, 45_tx_sequencer.md R234. -/
  | sendframe (len : BitVec 8) (cmd : Bool)
  /-- SENDSYNC, format Z, 45_tx_sequencer.md R239. -/
  | sendsync
deriving DecidableEq, Repr

end Sys2Proof
end

