-- ==== Sys2Proof/WellFormed.lean ====
section
/-!
DEFINITION. Which commands are well formed: the ones some command word encodes (30_encoding.md R91). The widths of
the operand fields are in their types; the one check left is LDP's index.
-/

namespace Sys2Proof

/-- A command is well formed when every field fits its place in the word and, for LDP, `idx < 32`
(30_encoding.md R91, R92). -/
abbrev Instr.WellFormed : Instr → Prop
  | .ldp idx _ => idx.toNat < 32
  | _ => True

end Sys2Proof
end

