-- ==== Sys2Proof/Decode.lean ====
section
/-!
DEFINITION. The decoder of command words, total on 32-bit words (30_encoding.md R90), the byte order of a word on a
byte bus (20_memory.md R65), and after them the encoder, its inverse on well-formed commands (R91).
-/

namespace Sys2Proof

/-- Bits [31:24], the opcode (30_encoding.md R80). -/
def opField (w : Word32) : BitVec 8 := w.extractLsb' 24 8

/-- Bits [23:0], the operand fields (30_encoding.md R80). -/
def operandField (w : Word32) : BitVec 24 := w.extractLsb' 0 24

/-- Format Z (30_encoding.md R81): bits [23:0] must be zero. -/
def decodeZ (i : Instr) (x : BitVec 24) : Option Instr :=
  if x = 0 then some i else none

/-- Format B (30_encoding.md R82): bit [0] is the flag and bits [23:1] must be zero. -/
def decodeB (f : Bool → Instr) (x : BitVec 24) : Option Instr :=
  if x.extractLsb' 1 23 = 0 then some (f (x.getLsbD 0)) else none

/-- Format I16 (30_encoding.md R83): bits [15:0] are the immediate and bits [23:16] must be zero. -/
def decodeI16 (f : BitVec 16 → Instr) (x : BitVec 24) : Option Instr :=
  if x.extractLsb' 16 8 = 0 then some (f (x.extractLsb' 0 16)) else none

/-- Format I24 (30_encoding.md R84): bits [23:0] are the immediate. -/
def decodeI24 (f : BitVec 24 → Instr) (x : BitVec 24) : Option Instr :=
  some (f x)

/-- Format S (30_encoding.md R85): bits [7:0] are `len`, bit [8] is `cmd` and bits [23:9] must be zero. -/
def decodeS (f : BitVec 8 → Bool → Instr) (x : BitVec 24) : Option Instr :=
  if x.extractLsb' 9 15 = 0 then some (f (x.extractLsb' 0 8) (x.getLsbD 8)) else none

/-- Format W (30_encoding.md R86): bits [23:16] are `idx`, bits [15:0] are `val`; an index of 32 to 255 is
reserved (R92). -/
def decodeW (f : BitVec 8 → BitVec 16 → Instr) (x : BitVec 24) : Option Instr :=
  if (x.extractLsb' 16 8).toNat < 32 then some (f (x.extractLsb' 16 8) (x.extractLsb' 0 16)) else none

/-- `Decode(w)` of 30_encoding.md R90 over the opcode map of R89: a command, or `none` for Reserved. -/
def decode (w : Word32) : Option Instr :=
  let x := operandField w
  match (opField w).toNat with
  | 0x00 => decodeZ .nop x
  | 0x01 => decodeZ .reset x
  | 0x02 => decodeZ .block x
  | 0x03 => decodeZ .txtick x
  | 0x04 => decodeI16 .ack x
  | 0x05 => decodeI16 .irqen x
  | 0x10 => decodeB .setloop x
  | 0x11 => decodeI24 .settxrate x
  | 0x12 => decodeI24 .setrxrate x
  | 0x13 => decodeI16 .setamp x
  | 0x14 => decodeI16 .settxmin x
  | 0x15 => decodeI16 .settxmax x
  | 0x16 => decodeI16 .setrxmin x
  | 0x17 => decodeI16 .setrxmax x
  | 0x18 => decodeI16 .setthresh x
  | 0x20 => decodeW .ldp x
  | 0x21 => decodeS .sendframe x
  | 0x22 => decodeZ .sendsync x
  | _ => none

/-- The word four bytes spell on a byte-addressed bus: little-endian, the byte at the lowest address holds
bits [7:0] (20_memory.md R65). -/
def wordOfBytes (b0 b1 b2 b3 : Byte) : Word32 := b3 ++ b2 ++ b1 ++ b0

/-- The bytes of a word on a byte-addressed bus, lowest address first (20_memory.md R65). -/
def bytesOfWord (w : Word32) : List Byte :=
  [w.extractLsb' 0 8, w.extractLsb' 8 8, w.extractLsb' 16 8, w.extractLsb' 24 8]

/-- Decoding on any bytes: a command is exactly four bytes (30_encoding.md R80); every other length is refused. -/
def decodeBytes : List Byte → Option Instr
  | [b0, b1, b2, b3] => decode (wordOfBytes b0 b1 b2 b3)
  | _ => none

/-- The host's view of the decoder: the low `nbits` bits of `w` are the instruction, bits above are 0, laid out as
the four bytes of one word. -/
def decodeTableWord (nbits w : Nat) : Option Instr :=
  decodeBytes (bytesOfWord (BitVec.ofNat 32 (w % 2 ^ nbits)))

/-- The opcode of each command (30_encoding.md R89). -/
def Instr.opcode : Instr → BitVec 8
  | .nop => 0x00
  | .reset => 0x01
  | .block => 0x02
  | .txtick => 0x03
  | .ack _ => 0x04
  | .irqen _ => 0x05
  | .setloop _ => 0x10
  | .settxrate _ => 0x11
  | .setrxrate _ => 0x12
  | .setamp _ => 0x13
  | .settxmin _ => 0x14
  | .settxmax _ => 0x15
  | .setrxmin _ => 0x16
  | .setrxmax _ => 0x17
  | .setthresh _ => 0x18
  | .ldp _ _ => 0x20
  | .sendframe _ _ => 0x21
  | .sendsync => 0x22

/-- The operand fields of each command at their positions, zeros elsewhere (30_encoding.md R81 to R86). -/
def Instr.operands : Instr → BitVec 24
  | .nop => 0
  | .reset => 0
  | .block => 0
  | .txtick => 0
  | .ack imm => 0#8 ++ imm
  | .irqen imm => 0#8 ++ imm
  | .setloop b => 0#23 ++ BitVec.ofBool b
  | .settxrate imm => imm
  | .setrxrate imm => imm
  | .setamp imm => 0#8 ++ imm
  | .settxmin imm => 0#8 ++ imm
  | .settxmax imm => 0#8 ++ imm
  | .setrxmin imm => 0#8 ++ imm
  | .setrxmax imm => 0#8 ++ imm
  | .setthresh imm => 0#8 ++ imm
  | .ldp idx val => idx ++ val
  | .sendframe len cmd => 0#15 ++ BitVec.ofBool cmd ++ len
  | .sendsync => 0

/-- `Encode` of 30_encoding.md R91: the opcode in bits [31:24], the operand fields below it. -/
def encode (i : Instr) : Word32 := i.opcode ++ i.operands

end Sys2Proof
end

