-- ==== Sys2Proof/Machine/Flags.lean ====
section
/-!
DEFINITION. The STATUS flags (10_state.md R38), how they are set and acknowledged, and the interrupt level computed
from them (60_exceptions.md R272).
-/

namespace Sys2Proof.Machine

/-- STATUS bit 0, FRAME: a FRAME event is emitted. -/
def flagFrame : BitVec 7 := 0x01
/-- STATUS bit 1, CANDS: a CANDS event is emitted. -/
def flagCands : BitVec 7 := 0x02
/-- STATUS bit 2, CFG: a CFG event is emitted. -/
def flagCfg : BitVec 7 := 0x04
/-- STATUS bit 3, TXERR: a send command fails. -/
def flagTxErr : BitVec 7 := 0x08
/-- STATUS bit 4, FATAL: RXSM enters FatalError. -/
def flagFatal : BitVec 7 := 0x10
/-- STATUS bit 5, CMDERR: a command word is rejected. -/
def flagCmdErr : BitVec 7 := 0x20
/-- STATUS bit 6, SETERR: a setter's value is rejected. -/
def flagSetErr : BitVec 7 := 0x40

/-- Setting a sticky flag: the others keep their values, and one already set stays set (60_exceptions.md R273). -/
def setFlag (f : BitVec 7) (status : BitVec 7) : BitVec 7 := status ||| f

/-- ACK's effect on STATUS: `STATUS & ~imm16[6:0]`; bits [15:7] of the mask are ignored (40_config_ops.md R102). -/
def acknowledge (mask : BitVec 16) (status : BitVec 7) : BitVec 7 := status &&& ~~~(mask.extractLsb' 0 7)

/-- The interrupt output, a level: `(STATUS & IRQEN) != 0` (60_exceptions.md R272). -/
def irq (s : State) : Bool := (s.diag.status &&& s.cfg.irqEn) != 0

end Sys2Proof.Machine
end

