-- ==== Sys2Proof/Machine/Ops.lean ====
section
/-!
DEFINITION. The operations the commands share: the ports, the history ring and the payload buffer, raising a condition
(60_exceptions.md, the one shared entry procedure) and the ways back from one (RESET, RxClear, POR).
-/

namespace Sys2Proof.Machine

/-! ### Ports -/

/-- `emit`: one record appended to EVT (00_scope.md R9, 10_state.md R22). -/
def emit (e : Event) (s : State) : State := s.withPort { s.port with evt := s.port.evt ++ [e] }

/-- One descriptor driven on TOUT (45_tx_sequencer.md R242). -/
def driveTone (t : ToneDescriptor) (s : State) : State := s.withPort { s.port with tout := s.port.tout ++ [t] }

/-- A flag set in STATUS (10_state.md R38). -/
def raiseFlag (f : BitVec 7) (s : State) : State := s.withDiag { s.diag with status := setFlag f s.diag.status }

/-- What waits on CMD and RST at the start of a step. -/
inductive Waiting where
  /-- Nothing: no operation takes place. -/
  | nothing
  /-- RST is asserted; the state with that input taken. -/
  | por (s : State)
  /-- A command word; the state with it taken from CMD. -/
  | command (w : Word32) (s : State)
deriving DecidableEq, Repr

/-- Taking the next input from CMD or RST, in the order the host presented them (20_memory.md R67). -/
def takeInput (s : State) : Waiting :=
  match s.port.pending with
  | [] => .nothing
  | .por :: rest => .por (s.withPort { s.port with pending := rest })
  | .word w :: rest => .command w (s.withPort { s.port with pending := rest })

/-- A command word presented ahead of whatever waits on CMD. BLOCK with LOOP = 0 has an operand outside its word, so
when the word is BLOCK and no block of N samples is on SIN, a silent block is put there (log 2). -/
def presentFirst (w : Word32) (s : State) : State :=
  let sin := if decode w = some .block ∧ s.cfg.loop = false ∧ sinBlock s = none
    then silentBlock s.params.logFftSize :: s.port.sin else s.port.sin
  s.withPort { s.port with pending := .word w :: s.port.pending, sin := sin }

/-! ### The history ring and the payload buffer -/

/-- `HistPush(r)` (42_sync_tracker.md R151). -/
def histPush (r : Symbol) (s : State) : State :=
  s.withRx { s.rx with
    hist := s.rx.hist.set s.rx.histWr r
    histWr := (s.rx.histWr + 1) % s.params.rawSymbolMax
    histCnt := min (s.rx.histCnt + 1) s.params.rawSymbolMax }

/-- `HistAll()`: the valid entries, oldest first (42_sync_tracker.md R152). -/
def histAll (s : State) : List Symbol :=
  (List.range s.rx.histCnt).map fun i =>
    s.rx.hist.getD ((s.rx.histWr + s.params.rawSymbolMax - s.rx.histCnt + i) % s.params.rawSymbolMax) noSymbol

/-- `HistTail(n)`: the n most recent entries, oldest of them first (42_sync_tracker.md R152). -/
def histTail (n : Nat) (s : State) : List Symbol := (histAll s).drop ((histAll s).length - n)

/-- `PBUF[idx] <- val` (45_tx_sequencer.md R231). -/
def pbufWrite (idx : Nat) (val : BitVec 16) (s : State) : State :=
  s.withTx { s.tx with pbuf := s.tx.pbuf.setIfInBounds idx val }

/-! ### Raising a condition -/

/-- The state in the middle of a BLOCK operation, with the framer's two transient items, both empty at its start
(44_framer.md section 2): the records removed so far and whether the in-flight set changed. -/
structure Work where
  s : State
  resolved : List (Id × Verdict)
  changed : Bool
deriving DecidableEq, Repr

/-- The start of an operation: nothing resolved, nothing changed. -/
def Work.start (s : State) : Work := ⟨s, [], false⟩

/-- The conditions an operation can raise by an entry procedure (60_exceptions.md R260). A checksum mismatch and a
malformed length are the framer's own (44_framer.md R214, R217). -/
inductive Condition where
  /-- SendFailed (45_tx_sequencer.md R236, R240). -/
  | sendFailed (code : BitVec 4)
  /-- SetterRejected (40_config_ops.md R107). -/
  | setterRejected (which : BitVec 8) (code : BitVec 4)
  /-- CommandRejected (30_encoding.md R92). -/
  | commandRejected (w : Word32)
  /-- DecodeAnomaly (43_rx_state_machine.md R192, 60_exceptions.md R267). -/
  | decodeAnomaly (code : BitVec 4)
  /-- FatalConfig (43_rx_state_machine.md R174, 60_exceptions.md R269). -/
  | fatalConfig (code : BitVec 4)
deriving DecidableEq, Repr

/-- `ClearSync()` (42_sync_tracker.md R165): all four registers (90_conflicts.md C13). -/
def clearSync (s : State) : State :=
  s.withRx { s.rx with syncValid := false, syncId := 0, clockValid := false, guardLeft := 0 }

/-- `FrmDiscardAll()` (44_framer.md R220). -/
def frmDiscardAll (k : Work) : Work :=
  if k.s.frm.cand = [] then k
  else
    { s := k.s.withFrm { k.s.frm with cand := [] }
      resolved := k.resolved ++ k.s.frm.cand.map fun x => (x.id, x.isValid)
      changed := true }

/-- `raise <Condition>(code)`: the entry procedure of each condition (00_scope.md R9, 60_exceptions.md R260). The
code register and the flag named there, the event record, and for the two receive conditions the state entered and
what entering it clears. -/
def raise (c : Condition) (k : Work) : Work :=
  match c with
  | .sendFailed code =>
    let s1 := raiseFlag flagTxErr (k.s.withDiag { k.s.diag with txErrCode := code })
    { k with s := emit (.txerr code) s1 }
  | .setterRejected which code =>
    let s1 := raiseFlag flagSetErr (k.s.withDiag { k.s.diag with setErrCode := code })
    { k with s := emit (.seterr which code) s1 }
  | .commandRejected w =>
    let s1 := raiseFlag flagCmdErr (k.s.withDiag { k.s.diag with cmdErrWord := w })
    { k with s := emit (.cmderr w) s1 }
  | .decodeAnomaly code =>
    let s1 := k.s.withRx { k.s.rx with rxState := .error }
    let s2 := s1.withDiag { s1.diag with errCode := code, errCount := s1.diag.errCount + 1 }
    let k1 := frmDiscardAll { k with s := s2 }
    { k1 with s := clearSync k1.s }
  | .fatalConfig code =>
    let s1 := k.s.withRx { k.s.rx with rxState := .fatalError }
    let s2 := raiseFlag flagFatal (s1.withDiag { s1.diag with fatalCode := code })
    let s3 := clearSync (s2.withFrm { s2.frm with cand := [] })
    { k with s := emit (.fatal code) s3 }

/-- A condition raised by a command that does nothing else: the command ends there (60_exceptions.md R270). -/
def raiseAlone (c : Condition) (s : State) : State := (raise c (.start s)).s

/-! ### The ways back: RxClear, RESET, POR -/

/-- `RxClearBody()` (40_config_ops.md R104). -/
def rxClearBody (s : State) : State :=
  (s.withFrm { s.frm with cand := [] }).withRx { s.rx with
    histWr := 0
    histCnt := 0
    hist := List.replicate s.params.rawSymbolMax noSymbol
    clockValid := false
    nextSp := 0
    guardLeft := 0
    syncValid := false
    syncId := 0
    lastRaw := 0xFFFF
    lastPeak := 0x8000
    lastSp := false
    lastSync := false }

/-- `RXSTATE <- IdleInit` unless in FatalError, which only RESET and POR leave (40_config_ops.md R104). -/
def rxToIdleInit (s : State) : State :=
  if s.rx.rxState = .fatalError then s else s.withRx { s.rx with rxState := .idleInit }

/-- `RxClear()`, the atomic clearing of the receive path: a candidate in flight is reported removed and unjudged
(40_config_ops.md R104). -/
def rxClear (s : State) : State :=
  let s1 := rxClearBody (rxToIdleInit s)
  if s.frm.cand = [] then s1
  else emit (.cands [] (s.frm.cand.map fun x => (x.id, .unknown))) (raiseFlag flagCands s1)

/-- RESET: the return from FatalError, and the RESET column of the reset table (40_config_ops.md R103,
70_reset_and_hazards.md R291). -/
def resetOperation (s : State) : State :=
  let s1 := rxClearBody (s.withRx { s.rx with rxState := .idleInit })
  { s1 with
    rx := { s1.rx with sampCnt := 0, nextSyncId := 0 }
    frm := { s1.frm with nextCandId := 0, nextFrameId := 0, lastFrameValid := false, lastFrame := .zero }
    tx := { s1.tx with txq := [], txCur := 0xFFFF, txHold := 0 }
    diag := { status := 0, errCode := 0, errCount := 0, fatalCode := 0, txErrCode := 0, setErrCode := 0, cmdErrWord := 0 } }

/-- POR: every item at its POR value, in any state (70_reset_and_hazards.md R290, R291). The model's lists of outputs
start empty (DESIGN CHOICE, log 7); the inputs still waiting are the host's and stay (DESIGN CHOICE, log 8). -/
def porOperation (s : State) : State :=
  (State.afterPor s.params).withPort { pending := s.port.pending, sin := s.port.sin, evt := [], tout := [] }

end Sys2Proof.Machine
end

