-- ==== Sys2Proof/Machine/Tracker.lean ====
section
/-!
DEFINITION. TRK, the sync pattern recognizer over the history and the symbol clock (42_sync_tracker.md).
-/

namespace Sys2Proof.Machine

/-- The sync pattern: SYNC_A for P blocks, then SYNC_B for P blocks (42_sync_tracker.md R159). -/
def syncPattern (s : State) : List Symbol :=
  List.replicate s.params.periodBlocks (syncA s.cfg.rxMax) ++ List.replicate s.params.periodBlocks (syncB s.cfg.rxMax)

/-- `syncNow`: the pattern stands at the tail of the history (42_sync_tracker.md R159). -/
def syncNow (s : State) : Bool :=
  2 * s.params.periodBlocks ≤ s.rx.histCnt && histTail (2 * s.params.periodBlocks) s == syncPattern s

/-- `isSP` at sample count c: the clock is valid and c is the next sampling point (42_sync_tracker.md R161). -/
def isSamplingPoint (c : SampleCount) (s : State) : Bool := s.rx.clockValid && c == s.rx.nextSp

/-- A number of blocks as a count of samples, modulo 2^64 (42_sync_tracker.md R162, R163). -/
def samplesOf (s : State) (blocks : Nat) : SampleCount := BitVec.ofNat 64 (blocks * s.params.fftSize)

/-- `ClockAnchor(c)` (42_sync_tracker.md R162). -/
def clockAnchor (c : SampleCount) (s : State) : State :=
  s.withRx { s.rx with nextSp := c + samplesOf s s.params.offsetBlocks, clockValid := true, guardLeft := 0 }

/-- `ClockAdvance(c)` (42_sync_tracker.md R163). -/
def clockAdvance (c : SampleCount) (s : State) : State :=
  s.withRx { s.rx with
    nextSp := c + samplesOf s s.params.periodBlocks
    guardLeft := BitVec.ofNat 8 s.params.guardBlocks }

/-- `Drift(c)`, in samples: the circular distance between the clock a sync at c would set and the running one
(42_sync_tracker.md R164). -/
def drift (c : SampleCount) (s : State) : Nat :=
  let period := s.params.periodBlocks * s.params.fftSize
  let d := (c + samplesOf s s.params.offsetBlocks - s.rx.nextSp).toNat % period
  min d (period - d)

/-- `NewSyncId()` (42_sync_tracker.md R165). -/
def newSyncId (s : State) : State :=
  s.withRx { s.rx with syncId := s.rx.nextSyncId, syncValid := true, nextSyncId := s.rx.nextSyncId + 1 }

/-- `BlockIndex = (SAMPCNT >> log2(N)) mod 2^32` of the block being processed (10_state.md R26). -/
def blockIndex (s : State) : Id := (s.rx.sampCnt >>> s.params.logFftSize).setWidth 32

end Sys2Proof.Machine
end

