-- ==== Sys2Proof/Machine/Framer.lean ====
section
/-!
DEFINITION. FRM, the data-link framer (44_framer.md): the frame's bytes, the candidate table fed by sync events and
decoded bytes, and the report at the end of a BLOCK operation.
-/

namespace Sys2Proof.Machine

/-! ### The frame on the wire -/

/-- `Header(L, cmd) = 0xE0 | (cmd << 4) | L` (44_framer.md R210). -/
def frameHeader (len : Nat) (cmd : Bool) : Byte :=
  0xE0 ||| ((BitVec.ofBool cmd).setWidth 8 <<< 4) ||| BitVec.ofNat 8 len

/-- The payload length a header declares, bits [3:0] (44_framer.md R210). -/
def headerLength (h : Byte) : Nat := (h.extractLsb' 0 4).toNat

/-- The command flag of a header, bit [4] (44_framer.md R210). -/
def headerIsCommand (h : Byte) : Bool := h.getLsbD 4

/-- `Checksum(bs)`: the sum of the bytes modulo 256 (44_framer.md R211). -/
def checksum (bs : List Byte) : Byte := bs.foldl (· + ·) 0

/-! ### One candidate -/

/-- `ParseHeader(x)` for a header that is accepted: `expected <- L + 2` (44_framer.md R214). -/
def parseHeader (h : Byte) (x : Candidate) : Candidate :=
  { x with expected := some (BitVec.ofNat 8 (headerLength h + 2)) }

/-- The payload length L of a candidate whose header is parsed: `expected − 2` (44_framer.md R214, R218). -/
def Candidate.payloadLength (x : Candidate) : Nat := (x.expected.getD 2).toNat - 2

/-- The Frame of a judged candidate under the id `id` (44_framer.md R218). -/
def frameOf (id : Id) (x : Candidate) : Frame :=
  let h := x.received.getD 0 0
  { id := id
    header := h
    payload := (x.received.drop 1).take x.payloadLength
    checksum := x.received.getD (x.payloadLength + 1) 0
    isCommand := headerIsCommand h
    frameCandidateId := x.id }

/-- What one byte does to one candidate (44_framer.md R213). -/
inductive Fed where
  /-- It stays in flight. -/
  | kept (x : Candidate)
  /-- It is judged and its checksum matches. -/
  | matched (x : Candidate)
  /-- It is invalidated: a malformed length or a checksum mismatch. -/
  | failed (x : Candidate)
deriving DecidableEq, Repr

/-- `Judge(x)` for a complete candidate (44_framer.md R216): the checksum of the header and the payload against the
last byte. -/
def judge (x : Candidate) : Fed :=
  if checksum (x.received.take (x.payloadLength + 1)) = x.received.getD (x.payloadLength + 1) 0 then
    .matched { x with isValid := .valid }
  else
    .failed { x with isValid := .invalid }

/-- Judging only a candidate whose bytes are all there (44_framer.md R213, R215). -/
def judgeIfComplete (x : Candidate) : Fed :=
  if x.expected.map BitVec.toNat = some x.received.length then judge x else .kept x

/-- One byte appended to one candidate, its header parsed if it is the first, and the candidate judged when it is
complete (44_framer.md R213, R214). -/
def feed (payloadMax : Nat) (b : Byte) (idx : Id) (x : Candidate) : Fed :=
  let x1 := { x with received := x.received ++ [b], symbolId := x.symbolId ++ [idx] }
  if x1.received.length = 1 then
    if payloadMax < headerLength b then .failed { x1 with isValid := .invalid }
    else judgeIfComplete (parseHeader b x1)
  else judgeIfComplete x1

/-! ### The table -/

/-- `Resolve(x, v)` for a record already taken from the table (44_framer.md R219). -/
def resolve (x : Candidate) (k : Work) : Work := { k with resolved := k.resolved ++ [(x.id, x.isValid)] }

/-- A record put at the end of the table. -/
def candAppend (x : Candidate) (s : State) : State := s.withFrm { s.frm with cand := s.frm.cand ++ [x] }

/-- `EmitFrame(x)` (44_framer.md R218). -/
def emitFrame (x : Candidate) (s : State) : State :=
  let f := frameOf s.frm.nextFrameId x
  let s1 := s.withFrm { s.frm with nextFrameId := s.frm.nextFrameId + 1, lastFrame := f, lastFrameValid := true }
  emit (.frame f) (raiseFlag flagFrame s1)

/-- `FrmOnSync`: a new candidate; on a full table the oldest is evicted, unjudged (44_framer.md R212). -/
def frmOnSync (k : Work) : Work :=
  let full := k.s.frm.cand.length = k.s.params.maxCandidates
  let evicted := if full then k.s.frm.cand.take 1 else []
  let kept := if full then k.s.frm.cand.drop 1 else k.s.frm.cand
  let x : Candidate :=
    { id := k.s.frm.nextCandId, received := [], expected := none, isValid := .unknown, symbolId := []
      syncId := k.s.rx.syncId }
  { s := k.s.withFrm { k.s.frm with cand := kept ++ [x], nextCandId := k.s.frm.nextCandId + 1 }
    resolved := k.resolved ++ evicted.map fun y => (y.id, y.isValid)
    changed := true }

/-- The outcome of one candidate taken into the operation's state: kept at the end of the table, or removed with its
verdict, its Frame emitted first if it matched (44_framer.md R213, R216 to R219). -/
def settleFed (k : Work) : Fed → Work
  | .kept x => { k with s := candAppend x k.s }
  | .matched x => resolve x { k with s := emitFrame x k.s }
  | .failed x => resolve x k

/-- `FrmOnByte(b, idx)`: every candidate in flight receives the byte, oldest first; a byte with none in flight is
dropped (44_framer.md R213). -/
def frmOnByte (b : Byte) (idx : Id) (k : Work) : Work :=
  if k.s.frm.cand = [] then k
  else
    let emptied : Work := { k with s := k.s.withFrm { k.s.frm with cand := [] }, changed := true }
    (k.s.frm.cand.map (feed k.s.params.payloadMax b idx)).foldl settleFed emptied

/-- `FrmFlush()`: at most one CANDS event, at the end of the operation (44_framer.md R221). -/
def frmFlush (k : Work) : State :=
  if k.changed then emit (.cands k.s.frm.cand k.resolved) (raiseFlag flagCands k.s) else k.s

end Sys2Proof.Machine
end

