-- ==== Sys2Proof/Machine/TxSequencer.lean ====
section
/-!
DEFINITION. TXE, the transmit encoder and symbol sequencer (45_tx_sequencer.md): encoding a frame, the queue, the
symbol each block period holds, the tone descriptor and the loopback block.
-/

namespace Sys2Proof.Machine

/-- `EncodeBytes(payload, cmd) = [h] ++ payload ++ [chk]` (45_tx_sequencer.md R232). -/
def encodeBytes (payload : List Byte) (cmd : Bool) : List Byte :=
  let h := frameHeader payload.length cmd
  [h] ++ payload ++ [checksum ([h] ++ payload)]

/-- The sync preamble, `[SYNC_A(Tx), SYNC_B(Tx)]` (45_tx_sequencer.md R233). -/
def preamble (c : ConfigRegs) : List Symbol := [syncA c.txMax, syncB c.txMax]

/-- Symbols appended to TXQ (45_tx_sequencer.md R237, R241). -/
def enqueueSymbols (syms : List Symbol) (s : State) : State := s.withTx { s.tx with txq := s.tx.txq ++ syms }

/-- The symbols of a frame: the preamble, then each byte's data symbol (45_tx_sequencer.md R237). -/
def frameSymbols (c : ConfigRegs) (bs : List Byte) : List Symbol := preamble c ++ bs.map (byteToSymbol c.txMin)

/-- Whether `n` more symbols do not fit in TXQ (45_tx_sequencer.md R234, R239, R246). -/
def queueLacksRoom (s : State) (n : Nat) : Bool := s.params.txqDepth < s.tx.txq.length + n

/-- The bytes SENDFRAME encodes from its payload operand (45_tx_sequencer.md R234). -/
def sendBytes (s : State) (len : Nat) (cmd : Bool) : List Byte :=
  encodeBytes ((payloadOperand s len).map (·.setWidth 8)) cmd

/-- SENDFRAME's checks, in the order written; the first that fails decides the code (45_tx_sequencer.md R234,
60_exceptions.md R262). -/
def sendFrameFailure (s : State) (len : Nat) (cmd : Bool) : Option (BitVec 4) :=
  if s.params.payloadMax < len then some 1
  else if (payloadOperand s len).any (fun v => 255 < v.toNat) then some 2
  else if s.cfg.txMax.toNat ≤ s.cfg.txMin.toNat then some 4
  else if (sendBytes s len cmd).any (fun b => !byteEncodable s.cfg.txMin s.cfg.txMax b) then some 3
  else if queueLacksRoom s (2 + (sendBytes s len cmd).length) then some 5
  else none

/-- SENDSYNC's checks (45_tx_sequencer.md R239, R240). -/
def sendSyncFailure (s : State) : Option (BitVec 4) :=
  if s.cfg.txMax.toNat ≤ s.cfg.txMin.toNat then some 4
  else if queueLacksRoom s 2 then some 5
  else none

/-- `TxTick()` on the transmit registers: the symbol of this block period and the registers after it
(45_tx_sequencer.md R243). -/
def txTickRegs (p : Params) (t : TxRegs) : Symbol × TxRegs :=
  let t1 : TxRegs :=
    if t.txHold = 0 then
      match t.txq with
      | x :: rest => { t with txCur := x, txq := rest, txHold := BitVec.ofNat 8 p.periodBlocks }
      | [] => { t with txCur := 0xFFFF }
    else t
  (t1.txCur, if t1.txHold = 0 then t1 else { t1 with txHold := t1.txHold - 1 })

/-- `TxTick()` (45_tx_sequencer.md R243). -/
def txTick (s : State) : Symbol × State :=
  let r := txTickRegs s.params s.tx
  (r.1, s.withTx r.2)

/-- `Descriptor(t)` (45_tx_sequencer.md R244). -/
def descriptor (s : State) (t : Symbol) : ToneDescriptor :=
  if t = noSymbol then
    { valid := false, symbol := t, bin := 0, amplitude := s.cfg.txAmp, sampleRate := s.cfg.txRate }
  else
    { valid := true, symbol := t, bin := BitVec.ofNat 16 (symbolToBin s.params t.toNat)
      amplitude := s.cfg.txAmp, sampleRate := s.cfg.txRate }

/-- `LoopBlock(t)` (45_tx_sequencer.md R247): the reference tone of the symbol at amplitude TXAMP, or silence. DESIGN
CHOICE, log 6: the sine itself, where R247 lets an implementation use another block with the same properties. -/
def loopBlock (s : State) (t : Symbol) : List Sample :=
  if t = noSymbol then silentBlock s.params.logFftSize
  else toneBlock s.params.logFftSize s.cfg.txAmp.toNat (symbolToBin s.params t.toNat)

end Sys2Proof.Machine
end

