-- ==== Sys2Proof/Machine/RxStateMachine.lean ====
section
/-!
DEFINITION. RXSM, the receive state machine (43_rx_state_machine.md): the fatal check, the transition out of each
state, the handler of the state entered, and one block's passage through the receive path.
-/

namespace Sys2Proof.Machine

/-! ### The fatal check -/

/-- The geometry constraints (00_scope.md R6). -/
def geometryOk (p : Params) : Bool :=
  1 ≤ p.guardBlocks && p.guardBlocks + 2 ≤ p.periodBlocks && 2 ≤ p.offsetBlocks &&
    p.offsetBlocks ≤ p.periodBlocks && 2 * p.periodBlocks ≤ p.rawSymbolMax

/-- `FatalCode()`: 1 RANGE, 2 NYQUIST, 3 GEOMETRY, 0 for none (43_rx_state_machine.md R174, 60_exceptions.md
R264). -/
def fatalCode (p : Params) (c : ConfigRegs) : BitVec 4 :=
  if c.rxMax.toNat ≤ c.rxMin.toNat then 1
  else if p.fftSize / 2 ≤ p.fftFactor * c.rxMax.toNat then 2
  else if geometryOk p then 0
  else 3

/-! ### Transitions -/

/-- What a sampled raw symbol is (43_rx_state_machine.md R194). -/
inductive Sampled where
  /-- NO_SYMBOL. -/
  | nothing
  /-- SYNC_A or SYNC_B. -/
  | syncSym
  /-- A data symbol whose value is not a byte. -/
  | notByte
  /-- A byte. -/
  | byte (b : Byte)
deriving DecidableEq, Repr

/-- `Classify(r)` (43_rx_state_machine.md R194). DESIGN CHOICE, log 16: a symbol below
RXSYM.MIN, which never reaches it, counts as byte 0. -/
def classify (c : ConfigRegs) (r : Symbol) : Sampled :=
  if r = noSymbol then .nothing
  else if c.rxMax.toNat ≤ r.toNat + 1 then .syncSym
  else if 255 < r.toNat - c.rxMin.toNat then .notByte
  else .byte (BitVec.ofNat 8 (r.toNat - c.rxMin.toNat))

/-- A transition of 43_rx_state_machine.md R184, by the state it enters. -/
inductive Move where
  | toFirstSyncWait
  | toFirstSync
  | toIdle
  | toSymbol
  | toSync
  | toGuard
  /-- To Error, with the anomaly's code (60_exceptions.md R263). -/
  | toError (code : BitVec 4)
  /-- No transition: FatalError (43_rx_state_machine.md R172). -/
  | stayFatal
deriving DecidableEq, Repr

/-- The state a transition enters. -/
def Move.target : Move → RxState
  | .toFirstSyncWait => .firstSyncWait
  | .toFirstSync => .firstSync
  | .toIdle => .idle
  | .toSymbol => .symbol
  | .toSync => .sync
  | .toGuard => .guard
  | .toError _ => .error
  | .stayFatal => .fatalError

/-- The transition at a sampling point in Idle (43_rx_state_machine.md R180): SYNC_LOST, then NOT_A_BYTE, then the
Symbol state. -/
def samplingMove (sampled : Sampled) (candidates : List Candidate) : Move :=
  if sampled = .nothing ∧ candidates ≠ [] then .toError 1
  else if sampled = .notByte then .toError 2
  else .toSymbol

/-- `NextState` (43_rx_state_machine.md R175 to R182), on the state after the history push. -/
def nextMove (s : State) (sync sp : Bool) (r : Symbol) : Move :=
  match s.rx.rxState with
  | .idleInit => .toFirstSyncWait
  | .firstSyncWait => if sync then .toFirstSync else .toFirstSyncWait
  | .firstSync => if s.rx.clockValid then .toIdle else .toError 3
  | .sync => if s.rx.clockValid then .toIdle else .toError 3
  | .error => .toFirstSyncWait
  | .idle =>
    if !s.rx.clockValid then .toError 3
    else if sync then .toSync
    else if sp then samplingMove (classify s.cfg r) s.frm.cand
    else .toIdle
  | .symbol =>
    if !s.rx.clockValid then .toError 3
    else if sync then .toSync
    else .toGuard
  | .guard =>
    if !s.rx.clockValid then .toError 3
    else if sync then .toSync
    else if s.rx.guardLeft = 0 then .toIdle
    else .toGuard
  | .fatalError => .stayFatal

/-! ### Handlers -/

/-- A state entered: the write of RXSTATE before its handler runs (43_rx_state_machine.md R170). -/
def enterState (st : RxState) (s : State) : State := s.withRx { s.rx with rxState := st }

/-- FirstSync handler (43_rx_state_machine.md R186). -/
def firstSyncHandler (c : SampleCount) (k : Work) : Work := frmOnSync { k with s := clockAnchor c (newSyncId k.s) }

/-- A resynchronisation's part of the Sync handler: the candidates discarded, then a new id
(43_rx_state_machine.md R187). -/
def resynchronise (k : Work) : Work :=
  let k1 := frmDiscardAll k
  { k1 with s := newSyncId k1.s }

/-- Sync handler (43_rx_state_machine.md R187): resynchronisation beyond the drift tolerance, else re-confirmation. -/
def syncHandler (c : SampleCount) (k : Work) : Work :=
  let k1 := if k.s.params.driftTolerance < drift c k.s then resynchronise k else k
  frmOnSync { k1 with s := clockAnchor c k1.s }

/-- Forwarding the decoded symbol (43_rx_state_machine.md R190). -/
def forwardSymbol (r : Symbol) (k : Work) : Work :=
  match classify k.s.cfg r with
  | .byte b => frmOnByte b (blockIndex k.s) k
  | _ => k

/-- Symbol handler (43_rx_state_machine.md R188). -/
def symbolHandler (c : SampleCount) (r : Symbol) (k : Work) : Work :=
  forwardSymbol r { k with s := clockAdvance c k.s }

/-- Guard handler (43_rx_state_machine.md R189). -/
def guardHandler (k : Work) : Work :=
  { k with s := k.s.withRx { k.s.rx with guardLeft := k.s.rx.guardLeft - 1 } }

/-- One transition made: the state entered and its handler run with the context `(c, r)` (43_rx_state_machine.md
R185). Entering Error is raising the anomaly (R192, 60_exceptions.md R267). -/
def makeMove (m : Move) (c : SampleCount) (r : Symbol) (k : Work) : Work :=
  match m with
  | .toFirstSyncWait => { k with s := enterState .firstSyncWait k.s }
  | .toFirstSync => firstSyncHandler c { k with s := enterState .firstSync k.s }
  | .toIdle => { k with s := enterState .idle k.s }
  | .toSymbol => symbolHandler c r { k with s := enterState .symbol k.s }
  | .toSync => syncHandler c { k with s := enterState .sync k.s }
  | .toGuard => guardHandler { k with s := enterState .guard k.s }
  | .toError code => raise (.decodeAnomaly code) k
  | .stayFatal => k

/-! ### One block -/

/-- The bookkeeping at the end of a processed block: the latches and SAMPCNT (43_rx_state_machine.md R173,
42_sync_tracker.md R166). -/
def bookkeeping (r : Symbol) (peak : Level) (sp sync : Bool) (s : State) : State :=
  s.withRx { s.rx with
    lastRaw := r
    lastPeak := peak
    lastSp := sp
    lastSync := sync
    sampCnt := s.rx.sampCnt + BitVec.ofNat 64 s.params.fftSize }

/-- The passage of one processed block whose detector verdict is `(r, peak)` (43_rx_state_machine.md R170 from
`HistPush` on). -/
def processVerdict (r : Symbol) (peak : Level) (s : State) : State :=
  let c := s.rx.sampCnt
  let s1 := histPush r s
  let sync := syncNow s1
  let sp := isSamplingPoint c s1
  let k := makeMove (nextMove s1 sync sp r) c r (.start s1)
  bookkeeping r peak sp sync (frmFlush k)

/-- The receive path's part of BLOCK for the block X: nothing in FatalError (R172), the fatal check (R174), then the
detector and the passage of its verdict (43_rx_state_machine.md R170). -/
def receiveBlock (X : List Sample) (s : State) : State :=
  if s.rx.rxState = .fatalError then s
  else if fatalCode s.params s.cfg ≠ 0 then raiseAlone (.fatalConfig (fatalCode s.params s.cfg)) s
  else processVerdict (detect s.params s.cfg X).1 (detect s.params s.cfg X).2 s

/-- BLOCK's input selection (43_rx_state_machine.md R171): in loopback one tick of the transmit sequencer and the
loopback block of its symbol, else the block taken from SIN; `none` when SIN has no block of N samples. -/
def selectBlock (s : State) : Option (List Sample × State) :=
  if s.cfg.loop then
    let r := txTick s
    some (loopBlock r.2 r.1, r.2)
  else
    match sinBlock s with
    | some (X, rest) => some (X, s.withPort { s.port with sin := rest })
    | none => none

end Sys2Proof.Machine
end

