-- ==== Sys2Proof/Machine/Block.lean ====
section
/-!
DEFINITION. The meaning of BLOCK (43_rx_state_machine.md R170).
-/

namespace Sys2Proof.Machine

/-- BLOCK: the block selected (R171), then the receive path (43_rx_state_machine.md R170). With LOOP = 0 and no block
of exactly N samples on SIN the command is outside the model (93_implementation_defined.md U4, log 3). -/
def execBlock (s : State) : Host.Outcome State Fault Refusal :=
  match selectBlock s with
  | some (X, s1) => .next (receiveBlock X s1)
  | none => .refused .sinNotOneBlock

end Sys2Proof.Machine
end

