-- ==== Sys2Proof/Machine/Control.lean ====
section
/-!
DEFINITION. The meanings of NOP, RESET, ACK and IRQEN (40_config_ops.md).
-/

namespace Sys2Proof.Machine

/-- NOP: no effect (40_config_ops.md R101). -/
def execNop (s : State) : Host.Outcome State Fault Refusal := .next s

/-- RESET (40_config_ops.md R103). -/
def execReset (s : State) : Host.Outcome State Fault Refusal := .next (resetOperation s)

/-- ACK: `STATUS <- STATUS & ~imm16[6:0]` (40_config_ops.md R102). -/
def execAck (imm : BitVec 16) (s : State) : Host.Outcome State Fault Refusal :=
  .next (s.withDiag { s.diag with status := acknowledge imm s.diag.status })

/-- IRQEN: `IRQEN <- imm16[6:0]`; no event (40_config_ops.md R105). -/
def execIrqen (imm : BitVec 16) (s : State) : Host.Outcome State Fault Refusal :=
  .next (s.withCfg { s.cfg with irqEn := imm.extractLsb' 0 7 })

end Sys2Proof.Machine
end

