-- ==== Sys2Proof/Machine/Setters.lean ====
section
/-!
DEFINITION. The meanings of the nine setters (40_config_ops.md R110 to R118) over their common procedure (R106).
-/

namespace Sys2Proof.Machine

/-- The snapshot of the Tx instance (40_config_ops.md R108). -/
def txSnapshot (c : ConfigRegs) : ConfigSnapshot := ⟨c.txMin, c.txMax, c.txRate, c.txAmp, c.loop⟩

/-- The snapshot of the Rx instance (40_config_ops.md R108). -/
def rxSnapshot (c : ConfigRegs) : ConfigSnapshot := ⟨c.rxMin, c.rxMax, c.rxRate, c.rxAmp, c.rxLoop⟩

/-- The CFG event of the setter with opcode `which`, read after the write (40_config_ops.md R108). -/
def cfgEvent (which : BitVec 8) (c : ConfigRegs) : Event := .cfg which (txSnapshot c) (rxSnapshot c) c.thresh

/-- An accepted setter that installs the configuration `c`: the write, RxClear if it is Rx-affecting and changed
something, the CFG flag and event (40_config_ops.md R106). -/
def installConfig (which : BitVec 8) (rxAffecting : Bool) (c : ConfigRegs) (s : State) : State :=
  let s1 := s.withCfg c
  let s2 := if rxAffecting && c != s.cfg then rxClear s1 else s1
  emit (cfgEvent which s2.cfg) (raiseFlag flagCfg s2)

/-- `Setter(op, v)`: the common procedure (40_config_ops.md R106, R107), given whether the value is valid, the
rejection's code, whether the setter is Rx-affecting, and the configuration its write leaves. -/
def setter (which : BitVec 8) (valid : Bool) (code : BitVec 4) (rxAffecting : Bool) (c : ConfigRegs) (s : State) :
    State :=
  if valid then installConfig which rxAffecting c s else raiseAlone (.setterRejected which code) s

/-- The acceptable sample rates (40_config_ops.md R109). -/
def rateValid (p : Params) (r : BitVec 24) : Bool := p.sampleRateMin ≤ zext r && zext r ≤ p.sampleRateMax

/-- The acceptable symbol values (40_config_ops.md R109). -/
def symbolValid (v : BitVec 16) : Bool := zext v ≤ 0x7FFF

/-- The acceptable amplitudes (40_config_ops.md R109). -/
def ampValid (a : BitVec 16) : Bool := zext a ≤ 0x8000

/-- SETLOOP (40_config_ops.md R110). -/
def execSetloop (b : Bool) (s : State) : Host.Outcome State Fault Refusal :=
  .next (setter 0x10 true 0 true { s.cfg with loop := b, rxLoop := b } s)

/-- SETTXRATE (40_config_ops.md R111). -/
def execSettxrate (r : BitVec 24) (s : State) : Host.Outcome State Fault Refusal :=
  .next (setter 0x11 (rateValid s.params r) 1 false { s.cfg with txRate := r } s)

/-- SETRXRATE (40_config_ops.md R112). -/
def execSetrxrate (r : BitVec 24) (s : State) : Host.Outcome State Fault Refusal :=
  .next (setter 0x12 (rateValid s.params r) 1 true { s.cfg with rxRate := r } s)

/-- SETAMP (40_config_ops.md R113). -/
def execSetamp (a : BitVec 16) (s : State) : Host.Outcome State Fault Refusal :=
  .next (setter 0x13 (ampValid a) 3 false { s.cfg with txAmp := a, rxAmp := a } s)

/-- SETTXMIN (40_config_ops.md R114). -/
def execSettxmin (v : BitVec 16) (s : State) : Host.Outcome State Fault Refusal :=
  .next (setter 0x14 (symbolValid v) 2 false { s.cfg with txMin := v.setWidth 15 } s)

/-- SETTXMAX (40_config_ops.md R115). -/
def execSettxmax (v : BitVec 16) (s : State) : Host.Outcome State Fault Refusal :=
  .next (setter 0x15 (symbolValid v) 2 false { s.cfg with txMax := v.setWidth 15 } s)

/-- SETRXMIN (40_config_ops.md R116). -/
def execSetrxmin (v : BitVec 16) (s : State) : Host.Outcome State Fault Refusal :=
  .next (setter 0x16 (symbolValid v) 2 true { s.cfg with rxMin := v.setWidth 15 } s)

/-- SETRXMAX (40_config_ops.md R117). -/
def execSetrxmax (v : BitVec 16) (s : State) : Host.Outcome State Fault Refusal :=
  .next (setter 0x17 (symbolValid v) 2 true { s.cfg with rxMax := v.setWidth 15 } s)

/-- SETTHRESH (40_config_ops.md R118). -/
def execSetthresh (t : BitVec 16) (s : State) : Host.Outcome State Fault Refusal :=
  .next (setter 0x18 true 0 false { s.cfg with thresh := t } s)

end Sys2Proof.Machine
end

