-- ==== Sys2Proof/Machine/Transmit.lean ====
section
/-!
DEFINITION. The meanings of LDP, SENDFRAME, SENDSYNC and TXTICK (45_tx_sequencer.md).
-/

namespace Sys2Proof.Machine

/-- LDP: `PBUF[idx] <- val` (45_tx_sequencer.md R231). An index above 31 is no command's: its word is reserved and
rejected (30_encoding.md R92, DESIGN CHOICE, log 9). -/
def execLdp (idx : BitVec 8) (val : BitVec 16) (s : State) : Host.Outcome State Fault Refusal :=
  .next (if idx.toNat < 32 then pbufWrite idx.toNat val s
    else raiseAlone (.commandRejected (encode (.ldp idx val))) s)

/-- SENDFRAME: the checks in their order, then the whole frame queued (45_tx_sequencer.md R234). -/
def execSendframe (len : BitVec 8) (cmd : Bool) (s : State) : Host.Outcome State Fault Refusal :=
  .next (match sendFrameFailure s len.toNat cmd with
    | some code => raiseAlone (.sendFailed code) s
    | none => enqueueSymbols (frameSymbols s.cfg (sendBytes s len.toNat cmd)) s)

/-- SENDSYNC: the checks, then the bare preamble queued (45_tx_sequencer.md R239). -/
def execSendsync (s : State) : Host.Outcome State Fault Refusal :=
  .next (match sendSyncFailure s with
    | some code => raiseAlone (.sendFailed code) s
    | none => enqueueSymbols (preamble s.cfg) s)

/-- TXTICK: one tick of the sequencer, its descriptor driven on TOUT (45_tx_sequencer.md R242). -/
def execTxtick (s : State) : Host.Outcome State Fault Refusal :=
  .next (driveTone (descriptor (txTick s).2 (txTick s).1) (txTick s).2)

end Sys2Proof.Machine
end

