-- ==== Sys2Proof/Machine/Dispatch.lean ====
section
/-!
DEFINITION. The meaning of each command, one arm a constructor.
-/

namespace Sys2Proof.Machine

def exec (i : Instr) (s : State) : Host.Outcome State Fault Refusal :=
  match i with
  | .nop => Sys2Proof.Machine.execNop s
  | .reset => Sys2Proof.Machine.execReset s
  | .block => Sys2Proof.Machine.execBlock s
  | .txtick => Sys2Proof.Machine.execTxtick s
  | .ack imm => Sys2Proof.Machine.execAck imm s
  | .irqen imm => Sys2Proof.Machine.execIrqen imm s
  | .setloop b => Sys2Proof.Machine.execSetloop b s
  | .settxrate imm => Sys2Proof.Machine.execSettxrate imm s
  | .setrxrate imm => Sys2Proof.Machine.execSetrxrate imm s
  | .setamp imm => Sys2Proof.Machine.execSetamp imm s
  | .settxmin imm => Sys2Proof.Machine.execSettxmin imm s
  | .settxmax imm => Sys2Proof.Machine.execSettxmax imm s
  | .setrxmin imm => Sys2Proof.Machine.execSetrxmin imm s
  | .setrxmax imm => Sys2Proof.Machine.execSetrxmax imm s
  | .setthresh imm => Sys2Proof.Machine.execSetthresh imm s
  | .ldp idx val => Sys2Proof.Machine.execLdp idx val s
  | .sendframe len cmd => Sys2Proof.Machine.execSendframe len cmd s
  | .sendsync => Sys2Proof.Machine.execSendsync s

end Sys2Proof.Machine
end

