-- ==== Sys2Proof/Machine/Accept.lean ====
section
/-!
DEFINITION. What becomes of a command word accepted on CMD (30_encoding.md section 4).
-/

namespace Sys2Proof.Machine

/-- A command word accepted: the decoded command executed, a reserved word rejected (30_encoding.md R90, R92). -/
def State.accept (w : Word32) (s : State) : Host.Outcome State Fault Refusal :=
  match decode w with
  | some i => exec i s
  | none => .next (raiseAlone (.commandRejected w) s)

end Sys2Proof.Machine
end

