-- ==== Sys2Proof/Machine/Step.lean ====
section
/-!
DEFINITION. One step: the next input from CMD or RST taken, and the whole operation it asks for (00_scope.md R10).
-/

namespace Sys2Proof.Machine

/-- One step. With nothing waiting the state is held (60_exceptions.md R279; DESIGN CHOICE, log 2). -/
def step (s : State) : Host.Outcome State Fault Refusal :=
  match takeInput s with
  | .nothing => .next s
  | .por s1 => .next (porOperation s1)
  | .command w s1 => s1.accept w

/-- `s` with the instruction `w` presented first on CMD, and a silent block on SIN when none is there, so that the
next step runs exactly it (log 2). -/
def State.withFetchWord (s : State) (nbits w : Nat) : State := presentFirst (BitVec.ofNat 32 (w % 2 ^ nbits)) s

end Sys2Proof.Machine
end

