-- ==== Sys2Proof/Machine/Script.lean ====
section
/-!
DEFINITION. The command script of 30_encoding.md section 6: the written form of a command (R94) and the expansion of
the pseudo-commands (R95). The host's side of the ports; no step calls it.
-/

namespace Sys2Proof.Machine

/-- The mnemonic of a command (30_encoding.md R89). -/
def mnemonic : Instr → String
  | .nop => "NOP"
  | .reset => "RESET"
  | .block => "BLOCK"
  | .txtick => "TXTICK"
  | .ack _ => "ACK"
  | .irqen _ => "IRQEN"
  | .setloop _ => "SETLOOP"
  | .settxrate _ => "SETTXRATE"
  | .setrxrate _ => "SETRXRATE"
  | .setamp _ => "SETAMP"
  | .settxmin _ => "SETTXMIN"
  | .settxmax _ => "SETTXMAX"
  | .setrxmin _ => "SETRXMIN"
  | .setrxmax _ => "SETRXMAX"
  | .setthresh _ => "SETTHRESH"
  | .ldp _ _ => "LDP"
  | .sendframe _ _ => "SENDFRAME"
  | .sendsync => "SENDSYNC"

/-- The operands of a command in their written order (30_encoding.md R94): SETTHRESH's is signed. -/
def writtenOperands : Instr → List Int
  | .nop | .reset | .block | .txtick | .sendsync => []
  | .ack imm | .irqen imm | .setamp imm | .settxmin imm | .settxmax imm | .setrxmin imm | .setrxmax imm => [imm.toNat]
  | .setloop b => [(BitVec.ofBool b).toNat]
  | .settxrate imm | .setrxrate imm => [imm.toNat]
  | .setthresh imm => [sext16 imm]
  | .ldp idx val => [idx.toNat, val.toNat]
  | .sendframe len cmd => [len.toNat, (BitVec.ofBool cmd).toNat]

/-- A line of a command script, numbers in decimal (30_encoding.md R94). -/
def scriptLine (i : Instr) : String :=
  if writtenOperands i = [] then mnemonic i
  else mnemonic i ++ " " ++ String.intercalate ", " ((writtenOperands i).map toString)

/-- The three written forms of BLOCK's sample operand (30_encoding.md R94). -/
inductive SampleOperand where
  /-- `tone(s, A)`: the reference tone block of symbol s at amplitude word A. -/
  | tone (s : Symbol) (amp : BitVec 16)
  /-- `zero`: N samples of value 0. -/
  | zero
  /-- An explicit list of samples. -/
  | list (xs : List Sample)
deriving DecidableEq, Repr

/-- The samples a written operand stands for (30_encoding.md R94, 45_tx_sequencer.md R247). -/
def SampleOperand.samples (p : Params) : SampleOperand → List Sample
  | .tone s amp => toneBlock p.logFftSize amp.toNat (symbolToBin p s.toNat)
  | .zero => silentBlock p.logFftSize
  | .list xs => xs

/-- One line of a script: a command and, for a BLOCK with LOOP = 0, its sample operand. -/
abbrev ScriptCommand := Instr × Option SampleOperand

/-- The sample operand `VERDICT r` stands for: any block of N samples whose verdict is r (30_encoding.md R95). -/
def IsVerdictBlock (p : Params) (c : ConfigRegs) (r : Symbol) (X : List Sample) : Prop :=
  X.length = p.fftSize ∧ (detect p c X).1 = r

/-- The pseudo-commands (30_encoding.md R95), but for VERDICT, whose block the script leaves open: `IsVerdictBlock`. -/
inductive Pseudo where
  | blocks (n : Nat)
  | silence (n : Nat)
  | sym (s : Symbol) (amp : BitVec 16)
  | payload (bs : List (BitVec 16))
  | setTxSym (lo hi : BitVec 16)
  | setRxSym (lo hi : BitVec 16)
deriving DecidableEq, Repr

/-- The expansion of a pseudo-command (30_encoding.md R95). -/
def Pseudo.expand (p : Params) : Pseudo → List ScriptCommand
  | .blocks n => List.replicate n (.block, none)
  | .silence n => List.replicate n (.block, some .zero)
  | .sym s amp => List.replicate p.periodBlocks (.block, some (.tone s amp))
  | .payload bs => bs.zipIdx.map fun x => (.ldp (BitVec.ofNat 8 x.2) x.1, none)
  | .setTxSym lo hi => [(.settxmin lo, none), (.settxmax hi, none)]
  | .setRxSym lo hi => [(.setrxmin lo, none), (.setrxmax hi, none)]

end Sys2Proof.Machine
end

