-- ==== Sys2Proof/Machine/RegisterWindow.lean ====
section
/-!
DEFINITION. The read-only register window REG (10_state.md R47, 20_memory.md R62 to R65). A read is a function of the
state and changes nothing.
-/

namespace Sys2Proof.Machine

/-- The numeric code of each RXSTATE (10_state.md R25). -/
def RxState.code : RxState → BitVec 4
  | .idleInit => 0
  | .firstSyncWait => 1
  | .firstSync => 2
  | .idle => 3
  | .symbol => 4
  | .sync => 5
  | .guard => 6
  | .error => 7
  | .fatalError => 8

/-- The encoding of `isValid` (10_state.md R41). -/
def Verdict.code : Verdict → BitVec 2
  | .unknown => 0
  | .valid => 1
  | .invalid => 2

/-- A field placed with its lowest bit at `lo` of a word of zeros. -/
def fieldAt {w : Nat} (lo : Nat) (v : BitVec w) : Word32 := v.setWidth 32 <<< lo

/-- A count shown in a field `w` bits wide. -/
def countField (w lo n : Nat) : Word32 := fieldAt lo (BitVec.ofNat w n)

/-- A one-bit field. -/
def bitField (lo : Nat) (b : Bool) : Word32 := fieldAt lo (BitVec.ofBool b)

/-- Bytes `4*w .. 4*w + 3` of a list, the byte of lowest index in bits [7:0]; bytes past the end read 0
(20_memory.md R65). -/
def packedBytes (bs : List Byte) (w : Nat) : Word32 :=
  bs.getD (4 * w + 3) 0 ++ bs.getD (4 * w + 2) 0 ++ bs.getD (4 * w + 1) 0 ++ bs.getD (4 * w) 0

/-- The rows of the register map at a fixed offset (10_state.md R47). -/
def fixedRegisters (s : State) : List (Nat × Word32) :=
  [ (0x000, 0x414E5344),
    (0x004, 1),
    (0x008, countField 5 0 s.params.logFftSize ||| countField 8 8 s.params.fftFactor |||
      countField 8 16 s.params.rawSymbolMax ||| countField 8 24 s.params.maxCandidates),
    (0x00C, countField 8 0 s.params.periodBlocks ||| countField 8 8 s.params.guardBlocks |||
      countField 8 16 s.params.offsetBlocks ||| countField 8 24 s.params.payloadMax),
    (0x010, countField 32 0 s.params.driftTolerance),
    (0x014, countField 16 0 s.params.txqDepth),
    (0x020, fieldAt 0 s.cfg.txRate),
    (0x024, fieldAt 0 s.cfg.rxRate),
    (0x028, fieldAt 0 s.cfg.txMin ||| fieldAt 16 s.cfg.txMax),
    (0x02C, fieldAt 0 s.cfg.rxMin ||| fieldAt 16 s.cfg.rxMax),
    (0x030, fieldAt 0 s.cfg.txAmp ||| fieldAt 16 s.cfg.rxAmp),
    (0x034, bitField 0 s.cfg.loop ||| bitField 1 s.cfg.rxLoop),
    (0x038, fieldAt 0 s.cfg.thresh),
    (0x03C, fieldAt 0 s.cfg.irqEn),
    (0x040, fieldAt 0 s.diag.status),
    (0x044, fieldAt 0 s.rx.rxState.code),
    (0x048, s.rx.sampCnt.extractLsb' 0 32),
    (0x04C, s.rx.sampCnt.extractLsb' 32 32),
    (0x050, s.rx.nextSp.extractLsb' 0 32),
    (0x054, s.rx.nextSp.extractLsb' 32 32),
    (0x058, bitField 0 s.rx.clockValid ||| bitField 1 s.rx.syncValid ||| bitField 2 (!s.rx.syncValid) |||
      bitField 3 s.rx.lastSp ||| bitField 4 s.rx.lastSync ||| fieldAt 8 s.rx.guardLeft),
    (0x05C, s.rx.syncId),
    (0x060, s.rx.nextSyncId),
    (0x064, fieldAt 0 s.rx.lastRaw ||| fieldAt 16 s.rx.lastPeak),
    (0x068, fieldAt 0 s.diag.errCode ||| fieldAt 4 s.diag.fatalCode ||| fieldAt 8 s.diag.txErrCode |||
      fieldAt 12 s.diag.setErrCode ||| fieldAt 16 s.diag.errCount),
    (0x06C, s.diag.cmdErrWord),
    (0x070, s.frm.nextCandId),
    (0x074, s.frm.nextFrameId),
    (0x078, countField 8 0 s.frm.cand.length),
    (0x07C, fieldAt 0 s.tx.txCur ||| fieldAt 16 s.tx.txHold),
    (0x080, countField 16 0 s.tx.txq.length),
    (0x084, countField 8 0 s.rx.histCnt ||| countField 8 8 s.rx.histWr),
    (0x400, s.frm.lastFrame.id),
    (0x404, fieldAt 0 s.frm.lastFrame.header ||| fieldAt 8 s.frm.lastFrame.checksum |||
      bitField 16 s.frm.lastFrame.isCommand ||| bitField 17 s.frm.lastFrameValid |||
      countField 8 24 s.frm.lastFrame.payload.length),
    (0x408, s.frm.lastFrame.frameCandidateId),
    (0x40C, packedBytes s.frm.lastFrame.payload 0),
    (0x410, packedBytes s.frm.lastFrame.payload 1),
    (0x414, packedBytes s.frm.lastFrame.payload 2),
    (0x418, packedBytes s.frm.lastFrame.payload 3) ]

/-- `HISTWIN[i]` (10_state.md R47, 42_sync_tracker.md R152): the i-th oldest valid entry, else 0xFFFF. -/
def histWindow (s : State) (i : Nat) : Word32 := fieldAt 0 ((histAll s).getD i noSymbol)

/-- `PBUFWIN[i]` (10_state.md R47). -/
def pbufWindow (s : State) (i : Nat) : Word32 := fieldAt 0 (s.tx.pbuf.toList.getD i 0)

/-- `TXQWIN[i]` (10_state.md R47): the i-th symbol from the head of TXQ, else 0xFFFF. -/
def txqWindow (s : State) (i : Nat) : Word32 := fieldAt 0 (s.tx.txq.getD i noSymbol)

/-- The word at byte offset `r` of a candidate's slot (10_state.md R47, rows CW[j]), for r below 0x64. -/
def candidateWord (x : Candidate) (r : Nat) : Word32 :=
  if r = 0x00 then x.id
  else if r = 0x04 then
    countField 8 0 x.received.length ||| fieldAt 8 (x.expected.getD 0xFF) ||| fieldAt 16 x.isValid.code
  else if r = 0x08 then x.syncId
  else if r < 0x20 then packedBytes x.received ((r - 0x0C) / 4)
  else x.symbolId.getD ((r - 0x20) / 4) 0

/-- Slot j of the candidate window; every word of it is 0 when j is not below CANDCNT (10_state.md R47). -/
def candidateWindow (s : State) (j r : Nat) : Word32 :=
  match s.frm.cand[j]? with
  | some x => candidateWord x r
  | none => 0

/-- The word at an offset that none of the windows of PBUF, TXQ and CAND lists: a register of its own, an entry of the
history, or 0 (10_state.md R47). -/
def registerOrHistory (s : State) (off : Nat) : Word32 :=
  match (fixedRegisters s).lookup off with
  | some w => w
  | none => if 0x100 ≤ off ∧ (off - 0x100) / 4 < s.params.rawSymbolMax then histWindow s ((off - 0x100) / 4) else 0

/-- The word the map assigns to an offset that is a multiple of 4; an unlisted offset reads 0 (10_state.md R47). DESIGN
CHOICE, log 10: where a long history's HISTWIN and another row list the same offset, the other row is read. -/
def mappedWord (s : State) (off : Nat) : Word32 :=
  if 0x200 ≤ off ∧ off < 0x280 then pbufWindow s ((off - 0x200) / 4)
  else if 0x280 ≤ off ∧ off < 0x380 then txqWindow s ((off - 0x280) / 4)
  else if 0x800 ≤ off ∧ (off - 0x800) / 0x80 < s.params.maxCandidates ∧ (off - 0x800) % 0x80 < 0x64 then
    candidateWindow s ((off - 0x800) / 0x80) ((off - 0x800) % 0x80)
  else registerOrHistory s off

/-- `RegRead(offset)` (20_memory.md R62); an offset that is misaligned or above 0xBFC reads 0 (R63). -/
def regRead (s : State) (off : Nat) : Word32 := if off % 4 = 0 ∧ off ≤ 0xBFC then mappedWord s off else 0

/-- A read at REG of any width: only 32-bit reads are answered, every other returns 0 (20_memory.md R63). -/
def regAccess (s : State) (width off : Nat) : Word32 := if width = 32 then regRead s off else 0

end Sys2Proof.Machine
end

