-- ==== Sys2Proof/Safety.lean ====
section
/-!
DEFINITION. The terms claims are stated in: which instances are legal, the invariants of 43_rx_state_machine.md R196
and of 10_state.md's ranges, the transition table of R184, the state each condition's entry leaves, and runs of
commands.
-/

namespace Sys2Proof

/-- The constraints of the parameter table (00_scope.md R5). The geometry constraints of R6 are not among them: an
instance may violate them and is then driven to FatalError. -/
structure Params.Legal (p : Params) : Prop where
  logFftSize_ge : 3 ≤ p.logFftSize
  logFftSize_le : p.logFftSize ≤ 16
  fftFactor_pos : 1 ≤ p.fftFactor
  rawSymbolMax_pos : 1 ≤ p.rawSymbolMax
  driftTolerance_lt : 2 * p.driftTolerance < p.periodBlocks * p.fftSize
  payloadMax_le : p.payloadMax ≤ 15
  maxCandidates_pos : 1 ≤ p.maxCandidates
  txqDepth_ge : p.payloadMax + 4 ≤ p.txqDepth
  sampleRateMin_lt : p.sampleRateMin < 2 ^ 24
  sampleRateMax_lt : p.sampleRateMax < 2 ^ 24

/-- A legal instance whose registers can hold what the rules put in them: GUARDLEFT and TXHOLD are 8 bits
(10_state.md R27, R43), and the reset rate 48000 is among the legal ones (R30). DEDUCED, log 11. -/
structure Params.Consistent (p : Params) : Prop extends Params.Legal p where
  periodBlocks_lt : p.periodBlocks < 256
  guardBlocks_lt : p.guardBlocks < 256
  resetRate_ge : p.sampleRateMin ≤ 48000
  resetRate_le : 48000 ≤ p.sampleRateMax

end Sys2Proof

namespace Sys2Proof.Machine

/-! ### Invariants -/

/-- A 16-bit value is a symbol or NO_SYMBOL: 0x8000 to 0xFFFE never occur (10_state.md R24). -/
def IsRaw (r : Symbol) : Prop := r.toNat ≤ 0x7FFF ∨ r = noSymbol

/-- The mirrors and the legal values of the configuration registers (10_state.md R30, R31, R34, R35). -/
structure ConfigInv (s : State) : Prop where
  loop_mirror : s.cfg.rxLoop = s.cfg.loop
  amp_mirror : s.cfg.rxAmp = s.cfg.txAmp
  amp_le : s.cfg.txAmp.toNat ≤ 0x8000
  txRate_ge : s.params.sampleRateMin ≤ s.cfg.txRate.toNat
  txRate_le : s.cfg.txRate.toNat ≤ s.params.sampleRateMax
  rxRate_ge : s.params.sampleRateMin ≤ s.cfg.rxRate.toNat
  rxRate_le : s.cfg.rxRate.toNat ≤ s.params.sampleRateMax

/-- The history ring's own form (10_state.md R40, 42_sync_tracker.md R153). -/
structure RingShape (s : State) : Prop where
  capacity_pos : 0 < s.params.rawSymbolMax
  length_eq : s.rx.hist.length = s.params.rawSymbolMax
  cursor_lt : s.rx.histWr < s.params.rawSymbolMax
  count_le : s.rx.histCnt ≤ s.params.rawSymbolMax

/-- The history ring and what it and LASTRAW may hold (10_state.md R24, R40). -/
structure HistoryInv (s : State) : Prop extends RingShape s where
  entries_raw : ∀ r ∈ s.rx.hist, IsRaw r
  lastRaw_raw : IsRaw s.rx.lastRaw

/-- The states that presume a clock (43_rx_state_machine.md R195, R196). -/
def RxState.clocked : RxState → Bool
  | .firstSync => true
  | .idle => true
  | .symbol => true
  | .sync => true
  | .guard => true
  | _ => false

/-- How many blocks ahead the next sampling block may lie after a block that ended in a clocked state: OFFSET − 1
after a sync, P − 1 after a sampling block, counted down in Guard, at most P − 2 in Idle. -/
def BlocksAhead (s : State) (k : Nat) : Prop :=
  match s.rx.rxState with
  | .firstSync => k + 1 = s.params.offsetBlocks
  | .sync => k + 1 = s.params.offsetBlocks
  | .idle => k + 2 ≤ s.params.periodBlocks
  | .symbol => k + 1 = s.params.periodBlocks ∧ s.rx.guardLeft.toNat = s.params.guardBlocks
  | .guard => k + 1 + s.params.guardBlocks = s.params.periodBlocks + s.rx.guardLeft.toNat ∧
      s.rx.guardLeft.toNat < s.params.guardBlocks
  | _ => True

/-- The symbol clock's invariant (43_rx_state_machine.md R196 (a) and (c)): valid exactly in the clocked states, the
sync id with it, and the next sampling block a known number of blocks ahead. -/
structure ClockInv (s : State) : Prop where
  clock_iff : s.rx.clockValid = s.rx.rxState.clocked
  sync_iff : s.rx.syncValid = s.rx.clockValid
  geometry : s.rx.clockValid = true → geometryOk s.params = true
  ahead : s.rx.clockValid = true →
    ∃ k, BlocksAhead s k ∧ s.rx.nextSp - s.rx.sampCnt = BitVec.ofNat 64 (k * s.params.fftSize)

/-- A record in the in-flight table (10_state.md R41, 44_framer.md R215, R219): unjudged, one block index a byte, and
not yet complete. -/
structure Candidate.InFlight (p : Params) (x : Candidate) : Prop where
  unjudged : x.isValid = .unknown
  indexed : x.symbolId.length = x.received.length
  unparsed : x.received = [] → x.expected = none
  parsed : ∀ h rest, x.received = h :: rest →
    x.expected = some (BitVec.ofNat 8 (headerLength h + 2)) ∧ headerLength h ≤ p.payloadMax ∧
      x.received.length < headerLength h + 2

/-- The candidate table (10_state.md R41, 43_rx_state_machine.md R196 (b)). -/
structure FramerInv (s : State) : Prop where
  bounded : s.frm.cand.length ≤ s.params.maxCandidates
  clocked : s.frm.cand ≠ [] → s.rx.clockValid = true
  inFlight : ∀ x ∈ s.frm.cand, x.InFlight s.params

/-- A Frame as the framer may emit it (44_framer.md R222 (b), R218). -/
structure Frame.Sound (p : Params) (f : Frame) : Prop where
  checksum_eq : f.checksum = Sys2Proof.Machine.checksum ([f.header] ++ f.payload)
  length_eq : f.payload.length = headerLength f.header
  length_le : f.payload.length ≤ p.payloadMax
  command_eq : f.isCommand = headerIsCommand f.header

/-- Every Frame that has left on EVT, and LASTFRAME while it is valid, is sound (44_framer.md R222 (b)). -/
structure FramesInv (s : State) : Prop where
  emitted : ∀ f, Event.frame f ∈ s.port.evt → f.Sound s.params
  last : s.frm.lastFrameValid = true → s.frm.lastFrame.Sound s.params

/-- The transmit path's ranges (10_state.md R24, R43). -/
structure TransmitInv (s : State) : Prop where
  depth : s.tx.txq.length ≤ s.params.txqDepth
  hold : s.tx.txHold.toNat ≤ s.params.periodBlocks
  queued : ∀ x ∈ s.tx.txq, x.toNat ≤ 0x7FFF
  current : IsRaw s.tx.txCur
  held : s.tx.txHold ≠ 0 → s.tx.txCur ≠ noSymbol

/-- The values the code registers take (60_exceptions.md R262 to R265), and FATALCODE in FatalError. -/
structure DiagnosticsInv (s : State) : Prop where
  errCode_le : s.diag.errCode.toNat ≤ 3
  fatalCode_le : s.diag.fatalCode.toNat ≤ 3
  txErrCode_le : s.diag.txErrCode.toNat ≤ 5
  setErrCode_le : s.diag.setErrCode.toNat ≤ 3
  fatal_coded : s.rx.rxState = .fatalError → s.diag.fatalCode ≠ 0

/-- Everything an instance keeps. -/
structure Inv (s : State) : Prop where
  params : s.params.Consistent
  config : ConfigInv s
  history : HistoryInv s
  clock : ClockInv s
  framer : FramerInv s
  frames : FramesInv s
  transmit : TransmitInv s
  diagnostics : DiagnosticsInv s

/-! ### The transition table -/

/-- The column "other" of the table (43_rx_state_machine.md R184). -/
inductive OtherCondition where
  | any
  | lostSync
  | notByte
  | otherwise
  | guardOver
  | guardLeft
deriving DecidableEq, Repr

/-- A row of the table: `none` stands for `x`, not looked at. `code` is the anomaly's code of a row to Error. -/
structure TransitionRow where
  fromState : RxState
  clockValid : Option Bool
  syncNow : Option Bool
  isSp : Option Bool
  other : OtherCondition
  toState : RxState
  code : Option (BitVec 4)
deriving DecidableEq, Repr

/-- The transition table (43_rx_state_machine.md R184), the row for the invalid clock written out for each of its five
states, the row of FatalError left out (no transition). -/
def transitionTable : List TransitionRow :=
  [ ⟨.idleInit, none, none, none, .any, .firstSyncWait, none⟩,
    ⟨.firstSyncWait, none, some true, none, .any, .firstSync, none⟩,
    ⟨.firstSyncWait, none, some false, none, .any, .firstSyncWait, none⟩,
    ⟨.firstSync, some true, none, none, .any, .idle, none⟩,
    ⟨.sync, some true, none, none, .any, .idle, none⟩,
    ⟨.idle, some true, some true, none, .any, .sync, none⟩,
    ⟨.idle, some true, some false, some true, .lostSync, .error, some 1⟩,
    ⟨.idle, some true, some false, some true, .notByte, .error, some 2⟩,
    ⟨.idle, some true, some false, some true, .otherwise, .symbol, none⟩,
    ⟨.idle, some true, some false, some false, .any, .idle, none⟩,
    ⟨.symbol, some true, some true, none, .any, .sync, none⟩,
    ⟨.symbol, some true, some false, none, .any, .guard, none⟩,
    ⟨.guard, some true, some true, none, .any, .sync, none⟩,
    ⟨.guard, some true, some false, none, .guardOver, .idle, none⟩,
    ⟨.guard, some true, some false, none, .guardLeft, .guard, none⟩,
    ⟨.firstSync, some false, none, none, .any, .error, some 3⟩,
    ⟨.sync, some false, none, none, .any, .error, some 3⟩,
    ⟨.idle, some false, none, none, .any, .error, some 3⟩,
    ⟨.symbol, some false, none, none, .any, .error, some 3⟩,
    ⟨.guard, some false, none, none, .any, .error, some 3⟩,
    ⟨.error, none, none, none, .any, .firstSyncWait, none⟩ ]

/-- Whether the condition in the column "other" holds at state s for the raw symbol r. -/
def OtherCondition.holds (o : OtherCondition) (s : State) (r : Symbol) : Bool :=
  let lost := classify s.cfg r == .nothing && !s.frm.cand.isEmpty
  let bad := classify s.cfg r == .notByte
  match o with
  | .any => true
  | .lostSync => lost
  | .notByte => bad
  | .otherwise => !lost && !bad
  | .guardOver => s.rx.guardLeft == 0
  | .guardLeft => s.rx.guardLeft != 0

/-- Whether a column matches a bit. -/
def columnMatches (col : Option Bool) (b : Bool) : Bool := col.all (· == b)

/-- Whether a row applies to a block with raw symbol r processed in state s, of which the recognizer and the sampling
point are `sync` and `sp`. -/
def TransitionRow.applies (t : TransitionRow) (s : State) (sync sp : Bool) (r : Symbol) : Bool :=
  t.fromState == s.rx.rxState && columnMatches t.clockValid s.rx.clockValid && columnMatches t.syncNow sync &&
    columnMatches t.isSp sp && t.other.holds s r

/-! ### The states the rules write, as records -/

/-- An accepted setter with opcode `which` that leaves the configuration c: the write, the flag and the CFG event
(40_config_ops.md R106, R108). -/
def cfgInstalled (which : BitVec 8) (c : ConfigRegs) (s : State) : State :=
  { s with
    cfg := c
    diag.status := s.diag.status ||| 0x04
    port.evt := s.port.evt ++
      [.cfg which ⟨c.txMin, c.txMax, c.txRate, c.txAmp, c.loop⟩ ⟨c.rxMin, c.rxMax, c.rxRate, c.rxAmp, c.rxLoop⟩ c.thresh] }

/-- A rejected setter (40_config_ops.md R107). -/
def setterRejected (which : BitVec 8) (code : BitVec 4) (s : State) : State :=
  { s with
    diag.setErrCode := code
    diag.status := s.diag.status ||| 0x40
    port.evt := s.port.evt ++ [.seterr which code] }

/-- A failed send (45_tx_sequencer.md R236). -/
def sendFailed (code : BitVec 4) (s : State) : State :=
  { s with
    diag.txErrCode := code
    diag.status := s.diag.status ||| 0x08
    port.evt := s.port.evt ++ [.txerr code] }

/-- A rejected command word (30_encoding.md R92). -/
def wordRejected (w : Word32) (s : State) : State :=
  { s with
    diag.cmdErrWord := w
    diag.status := s.diag.status ||| 0x20
    port.evt := s.port.evt ++ [.cmderr w] }

/-- The entry to FatalError (43_rx_state_machine.md R174). -/
def fatalEntered (code : BitVec 4) (s : State) : State :=
  { s with
    rx.rxState := .fatalError
    rx.syncValid := false
    rx.syncId := 0
    rx.clockValid := false
    rx.guardLeft := 0
    frm.cand := []
    diag.fatalCode := code
    diag.status := s.diag.status ||| 0x10
    port.evt := s.port.evt ++ [.fatal code] }

/-- A CANDS event and its flag (44_framer.md R221). -/
def candsReported (resolved : List (Id × Verdict)) (s : State) : State :=
  { s with
    diag.status := s.diag.status ||| 0x02
    port.evt := s.port.evt ++ [.cands s.frm.cand resolved] }

/-- Records removed with their verdict as it stands, as a CANDS event reports them (44_framer.md R212, R220). -/
def discarded (cs : List Candidate) : List (Id × Verdict) := cs.map fun x => (x.id, x.isValid)

/-- A state with the history as after one push (42_sync_tracker.md R151) and the latches and SAMPCNT as after one
processed block (43_rx_state_machine.md R173): what every processed block does, whatever its transition. `pre` is the
state before the block. -/
def blockBooked (r : Symbol) (peak : Level) (pre : State) (s : State) : State :=
  { s with
    rx.hist := pre.rx.hist.set pre.rx.histWr r
    rx.histWr := (pre.rx.histWr + 1) % pre.params.rawSymbolMax
    rx.histCnt := min (pre.rx.histCnt + 1) pre.params.rawSymbolMax
    rx.lastRaw := r
    rx.lastPeak := peak
    rx.lastSp := pre.rx.clockValid && pre.rx.sampCnt == pre.rx.nextSp
    rx.lastSync := syncNow (histPush r pre)
    rx.sampCnt := pre.rx.sampCnt + BitVec.ofNat 64 pre.params.fftSize }

/-- A new candidate put in the table by a sync under the sync id `sid`; on a full table the oldest is evicted
(44_framer.md R212). -/
def candidateOpened (sid : Id) (s : State) : State :=
  let kept := if s.frm.cand.length = s.params.maxCandidates then s.frm.cand.drop 1 else s.frm.cand
  { s with
    frm.cand := kept ++
      [{ id := s.frm.nextCandId, received := [], expected := none, isValid := .unknown, symbolId := [], syncId := sid }]
    frm.nextCandId := s.frm.nextCandId + 1 }

/-- The record a full table loses to a new candidate (44_framer.md R212). -/
def evictedBySync (s : State) : List Candidate :=
  if s.frm.cand.length = s.params.maxCandidates then s.frm.cand.take 1 else []

/-- The clock anchored at the sync instant c (42_sync_tracker.md R162). -/
def anchoredAt (c : SampleCount) (s : State) : State :=
  { s with
    rx.nextSp := c + BitVec.ofNat 64 (s.params.offsetBlocks * s.params.fftSize)
    rx.clockValid := true
    rx.guardLeft := 0 }

/-- The records a byte leaves in flight. -/
def Fed.kept? : Fed → Option Candidate
  | .kept x => some x
  | _ => none

/-- The records a byte completes with a matching checksum. -/
def Fed.matched? : Fed → Option Candidate
  | .matched x => some x
  | _ => none

/-- The records a byte resolves, with their verdict. -/
def Fed.removed? : Fed → Option (Id × Verdict)
  | .kept _ => none
  | .matched x => some (x.id, x.isValid)
  | .failed x => some (x.id, x.isValid)

/-! ### Runs -/

/-- A list of commands executed one after another, stopping at the first stop. -/
def runCommands : List Instr → State → Host.Outcome State Fault Refusal
  | [], s => .next s
  | i :: rest, s =>
    match exec i s with
    | .next t => runCommands rest t
    | .fault f => .fault f
    | .refused r => .refused r

/-- Raw symbols pushed one after another. -/
def pushAll : List Symbol → State → State
  | [], s => s
  | r :: rest, s => pushAll rest (histPush r s)

/-- Bytes delivered to the framer one after another, each with its block index. -/
def deliverBytes : List (Byte × Id) → Work → Work
  | [], k => k
  | (b, idx) :: rest, k => deliverBytes rest (frmOnByte b idx k)

/-- The STATUS flag that goes with an event record (10_state.md R38). -/
def Event.flag : Event → BitVec 7
  | .frame _ => 0x01
  | .cands _ _ => 0x02
  | .cfg _ _ _ _ => 0x04
  | .txerr _ => 0x08
  | .fatal _ => 0x10
  | .cmderr _ => 0x20
  | .seterr _ _ => 0x40

/-- The flags of a list of event records together. -/
def flagsOf (es : List Event) : BitVec 7 := es.foldl (fun f e => f ||| e.flag) 0

/-- The Frame an event record carries, if it is a FRAME. -/
def Event.frame? : Event → Option Frame
  | .frame f => some f
  | _ => none

/-- The Frames among a list of event records, oldest first. -/
def framesOf (es : List Event) : List Frame := es.filterMap Event.frame?

/-! ### The register map -/

/-- The offsets of the rows of the register map that stand for one word each, LF_PAY's four among them (10_state.md
R47). -/
def singleRows : List Nat :=
  [ 0x000, 0x004, 0x008, 0x00C, 0x010, 0x014, 0x020, 0x024, 0x028, 0x02C, 0x030, 0x034, 0x038, 0x03C, 0x040, 0x044,
    0x048, 0x04C, 0x050, 0x054, 0x058, 0x05C, 0x060, 0x064, 0x068, 0x06C, 0x070, 0x074, 0x078, 0x07C, 0x080, 0x084,
    0x400, 0x404, 0x408, 0x40C, 0x410, 0x414, 0x418 ]

/-- Whether a row of the register map other than HISTWIN lists the offset: a row of one word, PBUFWIN, TXQWIN, or one
of the 25 words of a candidate's slot (10_state.md R47). -/
def listedBesideHistory (p : Params) (off : Nat) : Bool :=
  singleRows.contains off || (0x200 ≤ off && off < 0x380) ||
    (0x800 ≤ off && (off - 0x800) / 0x80 < p.maxCandidates && (off - 0x800) % 0x80 < 0x64)

end Sys2Proof.Machine
end

