-- ==== Sys2Proof/Certificates/Slice0/Obligations.lean ====
section
/-!
DEFINITION. The statements for the provers. Each docstring names the rule of spec/ it formalises, or says that it
is derived and from where.
-/

open Sys2Proof Sys2Proof.Machine

/-! ### Encoding -/

/-- 30_encoding.md R91: the word of every command, field by field, and the two inverse laws. -/
def Obligations.DecodeAndEncodeAreInverse : Prop :=
  (encode .nop = 0x00000000 ∧ encode .reset = 0x01000000 ∧ encode .block = 0x02000000 ∧
    encode .txtick = 0x03000000 ∧ encode .sendsync = 0x22000000) ∧
  (∀ b : Bool, encode (.setloop b) = 0x10000000 ||| (BitVec.ofBool b).setWidth 32) ∧
  (∀ imm : BitVec 16,
    encode (.ack imm) = 0x04000000 ||| imm.setWidth 32 ∧ encode (.irqen imm) = 0x05000000 ||| imm.setWidth 32 ∧
    encode (.setamp imm) = 0x13000000 ||| imm.setWidth 32 ∧ encode (.settxmin imm) = 0x14000000 ||| imm.setWidth 32 ∧
    encode (.settxmax imm) = 0x15000000 ||| imm.setWidth 32 ∧
    encode (.setrxmin imm) = 0x16000000 ||| imm.setWidth 32 ∧
    encode (.setrxmax imm) = 0x17000000 ||| imm.setWidth 32 ∧
    encode (.setthresh imm) = 0x18000000 ||| imm.setWidth 32) ∧
  (∀ imm : BitVec 24, encode (.settxrate imm) = 0x11000000 ||| imm.setWidth 32 ∧
    encode (.setrxrate imm) = 0x12000000 ||| imm.setWidth 32) ∧
  (∀ (idx : BitVec 8) (val : BitVec 16),
    encode (.ldp idx val) = 0x20000000 ||| idx.setWidth 32 <<< 16 ||| val.setWidth 32) ∧
  (∀ (len : BitVec 8) (cmd : Bool),
    encode (.sendframe len cmd) = 0x21000000 ||| (BitVec.ofBool cmd).setWidth 32 <<< 8 ||| len.setWidth 32) ∧
  (∀ i : Instr, i.WellFormed → decode (encode i) = some i) ∧
  (∀ (w : Word32) (i : Instr), decode w = some i → i.WellFormed ∧ encode i = w)

/-- 30_encoding.md R89 and the worked examples of 40_config_ops.md and 45_tx_sequencer.md: words written out from the
map decode to their commands. A sanity statement, derived. -/
def Obligations.ExampleWordsDecode : Prop :=
  decode 0x00000000 = some .nop ∧ decode 0x01000000 = some .reset ∧ decode 0x02000000 = some .block ∧
  decode 0x04000001 = some (.ack 1) ∧ decode 0x10000001 = some (.setloop true) ∧
  decode 0x1100AC44 = some (.settxrate 44100) ∧ decode 0x1800D800 = some (.setthresh 0xD800) ∧
  decode 0x20030132 = some (.ldp 3 0x132) ∧ decode 0x21000005 = some (.sendframe 5 false) ∧
  decode 0x21000105 = some (.sendframe 5 true) ∧ decode 0x06000000 = none ∧ decode 0x20200000 = none

/-- 30_encoding.md R92: which words are reserved, and that such a word changes CMDERRWORD, STATUS.CMDERR and EVT and
nothing else. -/
def Obligations.ReservedWordIsRejected : Prop :=
  (∀ w : Word32, decode w = none ↔
    let op := w.toNat / 2 ^ 24
    let x := w.toNat % 2 ^ 24
    (0x06 ≤ op ∧ op ≤ 0x0F) ∨ (0x19 ≤ op ∧ op ≤ 0x1F) ∨ 0x23 ≤ op ∨
    (op ∈ [0x00, 0x01, 0x02, 0x03, 0x22] ∧ x ≠ 0) ∨
    (op = 0x10 ∧ x / 2 ≠ 0) ∨
    (op ∈ [0x04, 0x05, 0x13, 0x14, 0x15, 0x16, 0x17, 0x18] ∧ x / 2 ^ 16 ≠ 0) ∨
    (op = 0x21 ∧ x / 2 ^ 9 ≠ 0) ∨
    (op = 0x20 ∧ 32 ≤ x / 2 ^ 16)) ∧
  ∀ (s : State) (w : Word32) (rest : List HostInput), s.port.pending = .word w :: rest → decode w = none →
    step s = .next (wordRejected w { s with port.pending := rest })

/-- 20_memory.md R65 (a) and (b), derived: the bytes of a word, lowest address first, are little-endian, any other
number of bytes is no command, and packed bytes put the byte of lowest index in bits [7:0]. -/
def Obligations.BytesAreLittleEndian : Prop :=
  (∀ b0 b1 b2 b3 : Byte, (wordOfBytes b0 b1 b2 b3).toNat =
    b0.toNat + 2 ^ 8 * b1.toNat + 2 ^ 16 * b2.toNat + 2 ^ 24 * b3.toNat) ∧
  (∀ w : Word32, decodeBytes (bytesOfWord w) = decode w) ∧
  (∀ bs : List Byte, bs.length ≠ 4 → decodeBytes bs = none) ∧
  (∀ (bs : List Byte) (w b : Nat), b < 4 → (packedBytes bs w).extractLsb' (8 * b) 8 = bs.getD (4 * w + b) 0)

/-! ### A step -/

/-- 20_memory.md R67, 30_encoding.md R90 and 60_exceptions.md R279 under log 2, derived: a step takes the first word
waiting on CMD and executes the command it decodes to; a word placed by `withFetchWord` is the one the next step
executes; and with nothing waiting any number of steps holds the state. -/
def Obligations.StepRunsTheDecodedCommand : Prop :=
  (∀ (s : State) (n : Nat), s.port.pending = [] → Sys2Proof.core.run n s = .next s) ∧
  (∀ (s : State) (w : Word32) (i : Instr) (rest : List HostInput), s.port.pending = .word w :: rest →
    decode w = some i → step s = exec i { s with port.pending := rest }) ∧
  (∀ (s : State) (i : Instr), i.WellFormed → i ≠ .block →
    step (s.withFetchWord 32 (encode i).toNat) = exec i s)

/-- 70_reset_and_hazards.md R290 and the POR column of R291, derived (logs 7 and 8 say what becomes of the model's
port lists): POR in any state, and the state after reset with the default parameters of 00_scope.md R5. -/
def Obligations.PowerOnResetValues : Prop :=
  (∀ (s : State) (rest : List HostInput), s.port.pending = .por :: rest →
    step s = .next
      { params := s.params
        cfg :=
          { txRate := 48000, rxRate := 48000, txMin := 100, txMax := 357, rxMin := 100, rxMax := 357,
            txAmp := 0x199A, rxAmp := 0x199A, loop := false, rxLoop := false, thresh := 0xC400, irqEn := 0 }
        rx :=
          { rxState := .idleInit, sampCnt := 0, nextSp := 0, clockValid := false, guardLeft := 0, syncId := 0,
            syncValid := false, nextSyncId := 0, lastRaw := 0xFFFF, lastPeak := 0x8000, lastSp := false,
            lastSync := false, hist := List.replicate s.params.rawSymbolMax 0xFFFF, histWr := 0, histCnt := 0 }
        frm :=
          { cand := [], nextCandId := 0,
            lastFrame := ⟨0, 0, [], 0, false, 0⟩, lastFrameValid := false, nextFrameId := 0 }
        tx := { txq := [], txCur := 0xFFFF, txHold := 0, pbuf := Vector.replicate 32 0 }
        diag :=
          { status := 0, errCode := 0, errCount := 0, fatalCode := 0, txErrCode := 0, setErrCode := 0,
            cmdErrWord := 0 }
        port := { pending := rest, sin := s.port.sin, evt := [], tout := [] } }) ∧
  (∀ (s : State), s.port.pending = [.por] → s.port.sin = [] → s.params = Params.default →
    step s = .next State.reset) ∧
  Params.default =
    { logFftSize := 13, fftFactor := 3, rawSymbolMax := 10, periodBlocks := 3, guardBlocks := 1, offsetBlocks := 2,
      driftTolerance := 0, payloadMax := 8, maxCandidates := 8, txqDepth := 64, sampleRateMin := 8000,
      sampleRateMax := 192000 }

/-! ### NOP, ACK, IRQEN, RESET -/

/-- 40_config_ops.md R101. -/
def Obligations.NopChangesNothing : Prop :=
  decode 0x00000000 = some .nop ∧ ∀ s : State, exec .nop s = .next s

/-- 40_config_ops.md R102: the named flags are cleared, IRQ follows, and nothing else changes. -/
def Obligations.AckClearsTheNamedFlags : Prop :=
  (∀ (s : State) (imm : BitVec 16),
    exec (.ack imm) s = .next { s with diag.status := s.diag.status &&& ~~~(imm.extractLsb' 0 7) }) ∧
  (∀ (s t : State) (imm : BitVec 16), exec (.ack imm) s = .next t →
    (∀ i < 7, t.diag.status.getLsbD i = (s.diag.status.getLsbD i && !imm.getLsbD i)) ∧
    irq t = ((t.diag.status &&& t.cfg.irqEn) != 0)) ∧
  (∀ (s : State) (rest : List HostInput), s.port.pending = .word 0x04000001 :: rest → s.diag.status = 0x03 →
    step s = .next { s with diag.status := 0x02, port.pending := rest })

/-- 40_config_ops.md R105: the mask is written, no event is emitted, nothing else changes; and with it the level of
60_exceptions.md R272, asserted exactly when some flag and its enable bit are both 1. -/
def Obligations.IrqenWritesTheMask : Prop :=
  (∀ s : State, irq s = true ↔ ∃ i < 7, s.diag.status.getLsbD i = true ∧ s.cfg.irqEn.getLsbD i = true) ∧
  (∀ s : State, s.cfg.irqEn = 0 → irq s = false) ∧ irq State.reset = false ∧
  (∀ (s : State) (imm : BitVec 16),
    exec (.irqen imm) s = .next { s with cfg.irqEn := imm.extractLsb' 0 7 }) ∧
  (∀ (s : State) (rest : List HostInput), s.port.pending = .word 0x05000011 :: rest →
    step s = .next { s with cfg.irqEn := flagFrame ||| flagFatal, port.pending := rest })

/-- 40_config_ops.md R103: the RESET column of the reset table, what is kept, and the first BLOCK after it. -/
def Obligations.ResetReinitialises : Prop :=
  (∀ s : State, exec .reset s = .next
    { s with
      rx :=
        { rxState := .idleInit, sampCnt := 0, nextSp := 0, clockValid := false, guardLeft := 0, syncId := 0,
          syncValid := false, nextSyncId := 0, lastRaw := 0xFFFF, lastPeak := 0x8000, lastSp := false,
          lastSync := false, hist := List.replicate s.params.rawSymbolMax 0xFFFF, histWr := 0, histCnt := 0 }
      frm :=
        { cand := [], nextCandId := 0, lastFrame := ⟨0, 0, [], 0, false, 0⟩, lastFrameValid := false,
          nextFrameId := 0 }
      tx := { s.tx with txq := [], txCur := 0xFFFF, txHold := 0 }
      diag :=
        { status := 0, errCode := 0, errCount := 0, fatalCode := 0, txErrCode := 0, setErrCode := 0,
          cmdErrWord := 0 } }) ∧
  (∀ s t u : State, exec .reset s = .next t → exec .block t = .next u →
    u.rx.rxState = if fatalCode s.params s.cfg = 0 then .firstSyncWait else .fatalError) ∧
  (∀ (s : State) (rest : List HostInput), s.port.pending = .word 0x01000000 :: rest →
    step s = exec .reset { s with port.pending := rest })

/-! ### Setters -/

/-- 40_config_ops.md R111, R114, R115: SETTXRATE, SETTXMIN and SETTXMAX, accepted and rejected; the queue, the receive
path and everything else are as before. And R107: a rejection changes its code register, its flag and EVT, and nothing
else. -/
def Obligations.TxSettersWriteOneRegister : Prop :=
  (∀ (s : State) (which : BitVec 8) (code : BitVec 4),
    raiseAlone (.setterRejected which code) s =
      { s with
        diag.setErrCode := code
        diag.status := s.diag.status ||| 0x40
        port.evt := s.port.evt ++ [.seterr which code] }) ∧
  (∀ (s : State) (r : BitVec 24), exec (.settxrate r) s = .next
    (if s.params.sampleRateMin ≤ r.toNat ∧ r.toNat ≤ s.params.sampleRateMax then
      cfgInstalled 0x11 { s.cfg with txRate := r } s
    else setterRejected 0x11 1 s)) ∧
  (∀ (s : State) (v : BitVec 16), exec (.settxmin v) s = .next
    (if v.toNat ≤ 0x7FFF then cfgInstalled 0x14 { s.cfg with txMin := v.setWidth 15 } s
    else setterRejected 0x14 2 s)) ∧
  (∀ (s : State) (v : BitVec 16), exec (.settxmax v) s = .next
    (if v.toNat ≤ 0x7FFF then cfgInstalled 0x15 { s.cfg with txMax := v.setWidth 15 } s
    else setterRejected 0x15 2 s)) ∧
  decode 0x1100AC44 = some (.settxrate 44100) ∧ decode 0x11000064 = some (.settxrate 100) ∧
  decode 0x14000001 = some (.settxmin 1) ∧ decode 0x15000102 = some (.settxmax 258)

/-- 40_config_ops.md R113: SETAMP writes both amplitudes and leaves the receive path alone; amplitude 0 makes every
loopback block silent. -/
def Obligations.SetampWritesBothAmplitudes : Prop :=
  (∀ (s : State) (a : BitVec 16), exec (.setamp a) s = .next
    (if a.toNat ≤ 0x8000 then cfgInstalled 0x13 { s.cfg with txAmp := a, rxAmp := a } s
    else setterRejected 0x13 3 s)) ∧
  (∀ (s : State) (t : Symbol), s.cfg.txAmp = 0 → isSilent (loopBlock s t) = true) ∧
  decode 0x13004000 = some (.setamp 0x4000)

/-- 40_config_ops.md R118: SETTHRESH is always accepted and leaves the receive path alone; at 0x8000 every block
reports a symbol. -/
def Obligations.SetthreshIsAlwaysAccepted : Prop :=
  (∀ (s : State) (t : BitVec 16),
    exec (.setthresh t) s = .next (cfgInstalled 0x18 { s.cfg with thresh := t } s)) ∧
  (∀ (p : Params) (c : ConfigRegs) (X : List Sample), c.thresh = 0x8000 → (detect p c X).1 ≠ 0xFFFF) ∧
  decode 0x1800D800 = some (.setthresh 0xD800) ∧ (0xD800 : BitVec 16).toInt = -10240

/-- 40_config_ops.md R104: RxClear clears the receive path whole, keeps FatalError, SAMPCNT, the id counters, the error
registers and the transmit state, and reports the candidates it removed as unjudged. -/
def Obligations.RxClearIsWhole : Prop :=
  ∀ s : State,
    let cleared : State :=
      { s with
        rx.rxState := if s.rx.rxState = .fatalError then .fatalError else .idleInit
        rx.histWr := 0
        rx.histCnt := 0
        rx.hist := List.replicate s.params.rawSymbolMax 0xFFFF
        rx.clockValid := false
        rx.nextSp := 0
        rx.guardLeft := 0
        rx.syncValid := false
        rx.syncId := 0
        rx.lastRaw := 0xFFFF
        rx.lastPeak := 0x8000
        rx.lastSp := false
        rx.lastSync := false
        frm.cand := [] }
    rxClear s =
      if s.frm.cand = [] then cleared
      else
        { cleared with
          diag.status := s.diag.status ||| 0x02
          port.evt := s.port.evt ++ [.cands [] (s.frm.cand.map fun x => (x.id, .unknown))] }

/-- 40_config_ops.md R106, R110, R112, R116, R117: the four Rx-affecting setters. RxClear runs exactly when the value
changed, its CANDS before the CFG event; a range or a top symbol that is fatal is accepted and found by the next
BLOCK. -/
def Obligations.RxSettersClearOnChange : Prop :=
  (∀ (s : State) (b : Bool), exec (.setloop b) s = .next
    (cfgInstalled 0x10 { s.cfg with loop := b, rxLoop := b }
      (if s.cfg.loop = b ∧ s.cfg.rxLoop = b then s else rxClear s))) ∧
  (∀ (s : State) (r : BitVec 24), exec (.setrxrate r) s = .next
    (if s.params.sampleRateMin ≤ r.toNat ∧ r.toNat ≤ s.params.sampleRateMax then
      cfgInstalled 0x12 { s.cfg with rxRate := r } (if s.cfg.rxRate = r then s else rxClear s)
    else setterRejected 0x12 1 s)) ∧
  (∀ (s : State) (v : BitVec 16), exec (.setrxmin v) s = .next
    (if v.toNat ≤ 0x7FFF then
      cfgInstalled 0x16 { s.cfg with rxMin := v.setWidth 15 }
        (if s.cfg.rxMin.toNat = v.toNat then s else rxClear s)
    else setterRejected 0x16 2 s)) ∧
  (∀ (s : State) (v : BitVec 16), exec (.setrxmax v) s = .next
    (if v.toNat ≤ 0x7FFF then
      cfgInstalled 0x17 { s.cfg with rxMax := v.setWidth 15 }
        (if s.cfg.rxMax.toNat = v.toNat then s else rxClear s)
    else setterRejected 0x17 2 s)) ∧
  (∀ (s t u : State) (v : BitVec 16), v.toNat ≤ 0x7FFF → s.cfg.rxMax.toNat ≤ v.toNat → s.rx.rxState ≠ .fatalError →
    exec (.setrxmin v) s = .next t → exec .block t = .next u →
    u.rx.rxState = .fatalError ∧ u.diag.fatalCode = 1) ∧
  (∀ (s t u : State) (v : BitVec 16), v.toNat ≤ 0x7FFF → s.cfg.rxMin.toNat < v.toNat →
    s.params.fftSize / 2 ≤ s.params.fftFactor * v.toNat → s.rx.rxState ≠ .fatalError →
    exec (.setrxmax v) s = .next t → exec .block t = .next u →
    u.rx.rxState = .fatalError ∧ u.diag.fatalCode = 2) ∧
  decode 0x10000001 = some (.setloop true) ∧ decode 0x1200AC44 = some (.setrxrate 44100) ∧
  decode 0x16000165 = some (.setrxmin 357) ∧ decode 0x17000105 = some (.setrxmax 261)

/-! ### The transmit commands -/

/-- 45_tx_sequencer.md R231: LDP writes one entry of PBUF, whatever the value, and changes nothing else; a value above
255 makes a later SENDFRAME that reads it fail, an entry at or beyond `len` is never looked at; and no other command
changes PBUF. -/
def Obligations.LdpWritesOneEntry : Prop :=
  (∀ (s : State) (idx : Fin 32) (val : BitVec 16),
    exec (.ldp (BitVec.ofNat 8 idx) val) s = .next { s with tx.pbuf := s.tx.pbuf.set idx val }) ∧
  (∀ (s t : State) (idx len : BitVec 8) (val : BitVec 16) (cmd : Bool), idx.toNat < 32 → idx.toNat < len.toNat →
    len.toNat ≤ s.params.payloadMax → 255 < val.toNat → exec (.ldp idx val) s = .next t →
    exec (.sendframe len cmd) t = .next (sendFailed 2 t)) ∧
  (∀ (s t u : State) (idx len : BitVec 8) (val : BitVec 16) (cmd : Bool), idx.toNat < 32 → len.toNat ≤ idx.toNat →
    exec (.ldp idx val) s = .next t → exec (.sendframe len cmd) s = .next u →
    exec (.sendframe len cmd) t = .next { u with tx.pbuf := t.tx.pbuf }) ∧
  (∀ (s t : State) (i : Instr), (∀ idx val, i ≠ .ldp idx val) → exec i s = .next t → t.tx.pbuf = s.tx.pbuf) ∧
  decode 0x20030132 = some (.ldp 3 0x0132)

/-- 44_framer.md R211, 45_tx_sequencer.md R232: the checksum is the sum of the bytes modulo 256, and the bytes of a
frame are the header with its three fields, the payload and the checksum of both. -/
def Obligations.EncodedFrameBytes : Prop :=
  (∀ bs : List Byte, (checksum bs).toNat = (bs.map BitVec.toNat).sum % 256) ∧
  (∀ (payload : List Byte) (cmd : Bool), payload.length ≤ 15 → ∃ h : Byte,
    h.extractLsb' 5 3 = 0b111 ∧ h.getLsbD 4 = cmd ∧ (h.extractLsb' 0 4).toNat = payload.length ∧
    encodeBytes payload cmd = [h] ++ payload ++ [checksum ([h] ++ payload)]) ∧
  encodeBytes [0x32, 0x32, 0x32, 0x32, 0x32] false = [0xE5, 0x32, 0x32, 0x32, 0x32, 0x32, 0xDF]

/-- 45_tx_sequencer.md R234, R236, R237: SENDFRAME's checks in their order, the first that fails decides the code and
nothing is queued; else the preamble and every byte's symbol are queued and nothing else changes. -/
def Obligations.SendframeQueuesTheWholeFrame : Prop :=
  (decode 0x21000005 = some (.sendframe 5 false) ∧ decode 0x21000105 = some (.sendframe 5 true)) ∧
  ∀ (s : State) (len : BitVec 8) (cmd : Bool),
    let values := s.tx.pbuf.toList.take len.toNat
    let bs := encodeBytes (values.map fun v => v.setWidth 8) cmd
    exec (.sendframe len cmd) s = .next
      (if s.params.payloadMax < len.toNat then sendFailed 1 s
      else if ∃ v ∈ values, 255 < v.toNat then sendFailed 2 s
      else if s.cfg.txMax.toNat ≤ s.cfg.txMin.toNat then sendFailed 4 s
      else if ∃ b ∈ bs, s.cfg.txMax.toNat < s.cfg.txMin.toNat + b.toNat + 2 then sendFailed 3 s
      else if s.params.txqDepth < s.tx.txq.length + 2 + bs.length then sendFailed 5 s
      else
        { s with
          tx.txq := s.tx.txq ++ [s.cfg.txMax.setWidth 16 - 1, s.cfg.txMax.setWidth 16] ++
            bs.map fun b => s.cfg.txMin.setWidth 16 + b.setWidth 16 })

/-- 45_tx_sequencer.md R239, R240: SENDSYNC fails with codes 4 and 5 only, else queues the bare preamble. -/
def Obligations.SendsyncQueuesThePreamble : Prop :=
  (∀ s : State, exec .sendsync s = .next
    (if s.cfg.txMax.toNat ≤ s.cfg.txMin.toNat then sendFailed 4 s
    else if s.params.txqDepth < s.tx.txq.length + 2 then sendFailed 5 s
    else { s with tx.txq := s.tx.txq ++ [s.cfg.txMax.setWidth 16 - 1, s.cfg.txMax.setWidth 16] })) ∧
  decode 0x22000000 = some .sendsync

/-- 45_tx_sequencer.md R242 and R244: one TXTICK, in each case of the sequencer (R243), with its descriptor put on TOUT
and nothing else changed; and the fields of the descriptor. -/
def Obligations.TxtickDrivesOneDescriptor : Prop :=
  decode 0x03000000 = some .txtick ∧
  (∀ s : State,
    (∀ x rest, s.tx.txHold = 0 → s.tx.txq = x :: rest → exec .txtick s = .next
      { s with
        tx.txCur := x
        tx.txq := rest
        tx.txHold := BitVec.ofNat 8 s.params.periodBlocks -
          if BitVec.ofNat 8 s.params.periodBlocks = 0 then 0 else 1
        port.tout := s.port.tout ++ [descriptor s x] }) ∧
    (s.tx.txHold = 0 → s.tx.txq = [] → exec .txtick s = .next
      { s with tx.txCur := 0xFFFF, port.tout := s.port.tout ++ [descriptor s 0xFFFF] }) ∧
    (s.tx.txHold ≠ 0 → exec .txtick s = .next
      { s with tx.txHold := s.tx.txHold - 1, port.tout := s.port.tout ++ [descriptor s s.tx.txCur] })) ∧
  (∀ s : State,
    (descriptor s 0xFFFF).valid = false ∧ (descriptor s 0xFFFF).bin = 0 ∧
    (∀ t : Symbol, (descriptor s t).symbol = t ∧ (descriptor s t).amplitude = s.cfg.txAmp ∧
      (descriptor s t).sampleRate = s.cfg.txRate) ∧
    (∀ t : Symbol, t ≠ 0xFFFF → (descriptor s t).valid = true ∧
      (descriptor s t).bin.toNat = s.params.fftFactor * t.toNat % 2 ^ 16) ∧
    (∀ t : Symbol, t ≠ 0xFFFF → s.params.logFftSize ≤ 16 → s.params.fftFactor * t.toNat < s.params.fftSize / 2 →
      (descriptor s t).bin.toNat = s.params.fftFactor * t.toNat))

/-- 45_tx_sequencer.md R243: what is held is finished, then every queued symbol is put out for exactly P ticks without
a gap, then silence; with P of at least 1 that fits TXHOLD (log 11). -/
def Obligations.QueueIsPlayedWithoutGaps : Prop :=
  ∀ (s : State) (k : Nat), 1 ≤ s.params.periodBlocks → s.params.periodBlocks < 256 →
    ∃ t : State,
      runCommands
        (List.replicate (s.tx.txHold.toNat + s.tx.txq.length * s.params.periodBlocks + k) .txtick) s = .next t ∧
      t.port.tout = s.port.tout ++
        (List.replicate s.tx.txHold.toNat s.tx.txCur ++
          (s.tx.txq.flatMap fun x => List.replicate s.params.periodBlocks x) ++ List.replicate k 0xFFFF).map
          (descriptor s) ∧
      t.tx.txq = [] ∧ t.tx.txHold = 0 ∧ t.rx = s.rx ∧ t.frm = s.frm ∧ t.cfg = s.cfg ∧ t.diag = s.diag ∧
      t.port.evt = s.port.evt ∧ t.tx.pbuf = s.tx.pbuf

/-! ### The detector -/

/-- 41_detector.md R135, R136, R137: the lowest symbol of greatest level in the window, and the verdict by the
threshold, a peak equal to it included. -/
def Obligations.DetectorVerdict : Prop :=
  ∀ (p : Params) (c : ConfigRegs) (X : List Sample), c.rxMin.toNat < c.rxMax.toNat →
    ∃ sPeak : Nat, c.rxMin.toNat ≤ sPeak ∧ sPeak ≤ c.rxMax.toNat ∧
      (∀ s : Nat, c.rxMin.toNat ≤ s → s ≤ c.rxMax.toNat →
        (binDb p X (p.fftFactor * s)).toInt ≤ (binDb p X (p.fftFactor * sPeak)).toInt) ∧
      (∀ s : Nat, c.rxMin.toNat ≤ s → s < sPeak →
        (binDb p X (p.fftFactor * s)).toInt < (binDb p X (p.fftFactor * sPeak)).toInt) ∧
      detect p c X =
        (if (binDb p X (p.fftFactor * sPeak)).toInt < c.thresh.toInt then 0xFFFF else BitVec.ofNat 16 sPeak,
          binDb p X (p.fftFactor * sPeak)) ∧
      (BitVec.ofNat 16 sPeak).toNat = sPeak ∧ BitVec.ofNat 16 sPeak ≠ 0xFFFF

/-- 41_detector.md R138 (a), derived from DET-SILENCE: silence gives NO_SYMBOL at every threshold above −32768, and the
lowest symbol at −32768. -/
def Obligations.SilenceVerdict : Prop :=
  ∀ (p : Params) (c : ConfigRegs) (X : List Sample), isSilent X = true →
    detect p c X = (if c.thresh = 0x8000 then c.rxMin.setWidth 16 else 0xFFFF, 0x8000)

/-- 45_tx_sequencer.md R248 (a) and (b), derived from DET-TONE and DET-SILENCE of 41_detector.md R133: the block
loopback makes of symbol t is read as t, and the silent block as NO_SYMBOL. DET-TONE speaks of bins above 0, so t is
not 0; that the whole window is below N/2 is R130's precondition. -/
def Obligations.LoopbackVerdict : Prop :=
  (∀ (s : State) (t : Symbol),
    3 ≤ s.params.logFftSize → s.params.logFftSize ≤ 16 → 1 ≤ s.params.fftFactor →
    3 ≤ s.cfg.txAmp.toNat → s.cfg.txAmp.toNat ≤ 0x8000 → AtMostToneBound s.cfg.txAmp.toNat s.cfg.thresh.toInt →
    s.params.fftFactor * s.cfg.rxMax.toNat < s.params.fftSize / 2 →
    0 < t.toNat → s.cfg.rxMin.toNat ≤ t.toNat → t.toNat ≤ s.cfg.rxMax.toNat →
    detect s.params s.cfg (loopBlock s t) =
      (t, binDb s.params (loopBlock s t) (s.params.fftFactor * t.toNat)) ∧
    AtLeastToneBound s.cfg.txAmp.toNat
      (binDb s.params (loopBlock s t) (s.params.fftFactor * t.toNat)).toInt) ∧
  (∀ s : State, s.cfg.thresh ≠ 0x8000 → detect s.params s.cfg (loopBlock s 0xFFFF) = (0xFFFF, 0x8000)) ∧
  AtMostToneBound 6554 (-3579) ∧ ¬ AtMostToneBound 6554 (-3578)

/-! ### The history, the recognizer and the clock -/

/-- 42_sync_tracker.md R153: the ring keeps exactly the most recent RAW_SYMBOL_MAX symbols, in arrival order. -/
def Obligations.HistoryKeepsTheNewest : Prop :=
  (∀ (s : State) (rs : List Symbol), RingShape s →
    RingShape (pushAll rs s) ∧
    histAll (pushAll rs s) =
      (histAll s ++ rs).drop ((histAll s ++ rs).length - s.params.rawSymbolMax)) ∧
  (∀ (s : State) (rs : List Symbol), RingShape s → s.params.rawSymbolMax ≤ rs.length →
    histAll (pushAll rs s) = rs.drop (rs.length - s.params.rawSymbolMax))

/-- 42_sync_tracker.md R160 (a) to (f), for an alphabet with a top symbol above 0 and P of at least 3: what a history
the recognizer matches looks like, and what it never matches. -/
def Obligations.SyncMustPersist : Prop :=
  ∀ s : State, RingShape s → 3 ≤ s.params.periodBlocks → 0 < s.cfg.rxMax.toNat →
    let a := syncA s.cfg.rxMax
    let b := syncB s.cfg.rxMax
    let period := s.params.periodBlocks
    (syncNow s = true ↔ ∃ before, histAll s = before ++ List.replicate period a ++ List.replicate period b) ∧
    (∀ before run, histAll s = before ++ run → run.length < 2 * period →
      (∀ x, before.getLast? = some x → x ≠ a ∧ x ≠ b) → syncNow s = false) ∧
    (∀ before n, period ≤ n → histAll s = before ++ List.replicate n a ++ List.replicate period b →
      syncNow s = true) ∧
    (∀ before n, period < n → histAll s = before ++ List.replicate n b → syncNow s = false) ∧
    (∀ rs, syncNow s = true → rs ≠ [] → rs.length < 2 * period → syncNow (pushAll rs s) = false) ∧
    (∀ before after, histAll s = before ++ [0xFFFF] ++ after → after.length < 2 * period → syncNow s = false)

/-- 42_sync_tracker.md R164, derived: the value of Drift as the rule writes it, modulo 2^64 first, and what follows. It
is at most half a period; with the sync instant and NEXTSP on block boundaries it is a multiple of N, 0 exactly when
the new clock is on the running one's grid, and N or more when it is not. The two examples are those of R167. -/
def Obligations.DriftIsCircularDistance : Prop :=
  (∀ (s : State) (c : SampleCount),
    let period := s.params.periodBlocks * s.params.fftSize
    let d := (c.toNat + s.params.offsetBlocks * s.params.fftSize + (2 ^ 64 - s.rx.nextSp.toNat)) % 2 ^ 64 % period
    drift c s = min d (period - d) ∧ 2 * drift c s ≤ period) ∧
  (∀ (s : State) (c : SampleCount), 1 ≤ s.params.periodBlocks →
    let period := s.params.periodBlocks * s.params.fftSize
    (drift c s = 0 ↔ ∃ k : Nat, k * period < 2 ^ 64 ∧
      c + BitVec.ofNat 64 (s.params.offsetBlocks * s.params.fftSize) = s.rx.nextSp + BitVec.ofNat 64 (k * period))) ∧
  (∀ (s : State) (c : SampleCount), s.params.logFftSize ≤ 16 → s.params.fftSize ∣ c.toNat →
    s.params.fftSize ∣ s.rx.nextSp.toNat →
    s.params.fftSize ∣ drift c s ∧ (drift c s ≠ 0 → s.params.fftSize ≤ drift c s)) ∧
  drift (11 * 8192) { State.reset with rx.nextSp := 13 * 8192 } = 0 ∧
  drift (12 * 8192) { State.reset with rx.nextSp := 13 * 8192 } = 8192

/-! ### BLOCK -/

/-- 43_rx_state_machine.md R171, derived: with LOOP = 0 BLOCK takes the block at the head of SIN, with LOOP = 1 it ticks
the sequencer once and takes neither from SIN nor puts on TOUT; the tick happens in FatalError too. The third clause
is the model's choice of log 6: the loopback block is the reference sine itself, where 45_tx_sequencer.md R247 lets an
implementation use another block with the same properties. -/
def Obligations.BlockSelectsItsInput : Prop :=
  (∀ (s : State) (X : List Sample) (rest : List (List Sample)), s.cfg.loop = false → s.port.sin = X :: rest →
    X.length = s.params.fftSize → exec .block s = .next (receiveBlock X { s with port.sin := rest })) ∧
  (∀ (s : State), s.cfg.loop = true →
    exec .block s = .next (receiveBlock (loopBlock s (txTickRegs s.params s.tx).1)
      { s with tx := (txTickRegs s.params s.tx).2 })) ∧
  (∀ (s : State) (t : Symbol), loopBlock s t =
    if t = 0xFFFF then List.replicate s.params.fftSize 0
    else toneBlock s.params.logFftSize s.cfg.txAmp.toNat (s.params.fftFactor * t.toNat))

/-- 70_reset_and_hazards.md R300, 93_implementation_defined.md U4 under log 3, derived: with LOOP = 0 and no block of
exactly N samples at the head of SIN, BLOCK is outside the model and refused. -/
def Obligations.BlockNeedsExactlyNSamples : Prop :=
  ∀ s : State, s.cfg.loop = false → (∀ X, s.port.sin.head? = some X → X.length ≠ s.params.fftSize) →
    exec .block s = .refused .sinNotOneBlock

/-- 43_rx_state_machine.md R172: in FatalError a BLOCK takes its input and does nothing else. -/
def Obligations.FatalErrorIgnoresBlocks : Prop :=
  (∀ (s : State) (X : List Sample) (rest : List (List Sample)), s.rx.rxState = .fatalError →
    s.cfg.loop = false → s.port.sin = X :: rest → X.length = s.params.fftSize →
    exec .block s = .next { s with port.sin := rest }) ∧
  (∀ s : State, s.rx.rxState = .fatalError → s.cfg.loop = true →
    exec .block s = .next { s with tx := (txTickRegs s.params s.tx).2 }) ∧
  (∀ (s t : State) (i : Instr), s.rx.rxState = .fatalError → i ≠ .reset → exec i s = .next t →
    t.rx.rxState = .fatalError)

/-- 43_rx_state_machine.md R174: the three codes in their order, and the whole entry: the block is taken and not
processed. -/
def Obligations.FatalConfigurationIsEntered : Prop :=
  (∀ (p : Params) (c : ConfigRegs), fatalCode p c =
    if c.rxMax.toNat ≤ c.rxMin.toNat then 1
    else if p.fftSize / 2 ≤ p.fftFactor * c.rxMax.toNat then 2
    else if 1 ≤ p.guardBlocks ∧ p.guardBlocks + 2 ≤ p.periodBlocks ∧ 2 ≤ p.offsetBlocks ∧
      p.offsetBlocks ≤ p.periodBlocks ∧ 2 * p.periodBlocks ≤ p.rawSymbolMax then 0
    else 3) ∧
  (∀ (s : State) (X : List Sample) (rest : List (List Sample)), s.rx.rxState ≠ .fatalError →
    fatalCode s.params s.cfg ≠ 0 → s.cfg.loop = false → s.port.sin = X :: rest →
    X.length = s.params.fftSize →
    exec .block s = .next (fatalEntered (fatalCode s.params s.cfg) { s with port.sin := rest })) ∧
  (∀ s : State, s.rx.rxState ≠ .fatalError → fatalCode s.params s.cfg ≠ 0 → s.cfg.loop = true →
    exec .block s = .next
      (fatalEntered (fatalCode s.params s.cfg) { s with tx := (txTickRegs s.params s.tx).2 }))

/-- 43_rx_state_machine.md R170, R173 and 42_sync_tracker.md R154, derived: a BLOCK that is not stopped completes, its
verdict passes through the receive path, one entry is pushed, the four latches are written and SAMPCNT advances by N.
-/
def Obligations.BlockIsProcessed : Prop :=
  (∀ (s : State) (X : List Sample) (rest : List (List Sample)), s.cfg.loop = false → s.port.sin = X :: rest →
    X.length = s.params.fftSize → s.rx.rxState ≠ .fatalError → fatalCode s.params s.cfg = 0 →
    exec .block s = .next
      (processVerdict (detect s.params s.cfg X).1 (detect s.params s.cfg X).2 { s with port.sin := rest })) ∧
  (∀ (s : State) (X : List Sample), s.cfg.loop = true → X = loopBlock s (txTickRegs s.params s.tx).1 →
    s.rx.rxState ≠ .fatalError → fatalCode s.params s.cfg = 0 →
    exec .block s = .next (processVerdict (detect s.params s.cfg X).1 (detect s.params s.cfg X).2
      { s with tx := (txTickRegs s.params s.tx).2 })) ∧
  (∀ (r : Symbol) (peak : Level) (s : State),
    blockBooked r peak s (processVerdict r peak s) = processVerdict r peak s)

/-- 43_rx_state_machine.md R184: in every state but FatalError exactly one row of the table applies to a processed
block, and the block ends in that row's state, with its code if the row leads to Error; in FatalError there is no
transition. -/
def Obligations.TransitionTable : Prop :=
  (∀ (s : State) (X : List Sample), s.rx.rxState = .fatalError → receiveBlock X s = s) ∧
  (∀ (s : State) (r : Symbol) (peak : Level), s.rx.rxState ≠ .fatalError →
    ∃ row ∈ transitionTable,
      (∀ other ∈ transitionTable,
        other.applies s (syncNow (histPush r s)) (s.rx.clockValid && s.rx.sampCnt == s.rx.nextSp) r = true ↔
          other = row) ∧
      (processVerdict r peak s).rx.rxState = row.toState ∧
      (∀ code, row.code = some code → (processVerdict r peak s).diag.errCode = code) ∧
      (row.code = none → (processVerdict r peak s).diag.errCode = s.diag.errCode ∧
        (processVerdict r peak s).diag.errCount = s.diag.errCount))

/-- 43_rx_state_machine.md R191: the blocks that enter FirstSyncWait and Idle (R175 to R182) change RXSTATE and do the
bookkeeping, and nothing else; a block that enters Guard besides counts GUARDLEFT down (R189). -/
def Obligations.QuietBlocksOnlyBook : Prop :=
  ∀ (s : State) (r : Symbol) (peak : Level),
    (s.rx.rxState = .idleInit ∨ s.rx.rxState = .error ∨
      (s.rx.rxState = .firstSyncWait ∧ syncNow (histPush r s) = false) →
      processVerdict r peak s = blockBooked r peak s { s with rx.rxState := .firstSyncWait }) ∧
    (s.rx.clockValid = true →
      s.rx.rxState = .firstSync ∨ s.rx.rxState = .sync ∨
      (s.rx.rxState = .idle ∧ syncNow (histPush r s) = false ∧ s.rx.sampCnt ≠ s.rx.nextSp) ∨
      (s.rx.rxState = .guard ∧ syncNow (histPush r s) = false ∧ s.rx.guardLeft = 0) →
      processVerdict r peak s = blockBooked r peak s { s with rx.rxState := .idle }) ∧
    (s.rx.clockValid = true → syncNow (histPush r s) = false →
      s.rx.rxState = .symbol ∨ (s.rx.rxState = .guard ∧ s.rx.guardLeft ≠ 0) →
      processVerdict r peak s =
        blockBooked r peak s { s with rx.rxState := .guard, rx.guardLeft := s.rx.guardLeft - 1 })

/-- 43_rx_state_machine.md R186: the first sync: a new sync id, the clock anchored at the block's sample count, a new
candidate and its CANDS event. -/
def Obligations.FirstSyncAcquires : Prop :=
  ∀ (s : State) (r : Symbol) (peak : Level), s.rx.rxState = .firstSyncWait → syncNow (histPush r s) = true →
    processVerdict r peak s = blockBooked r peak s
      (candsReported (discarded (evictedBySync s))
        (candidateOpened s.rx.nextSyncId
          (anchoredAt s.rx.sampCnt
            { s with
              rx.rxState := .firstSync
              rx.syncId := s.rx.nextSyncId
              rx.syncValid := true
              rx.nextSyncId := s.rx.nextSyncId + 1 })))

/-- 43_rx_state_machine.md R187: a sync in mid-stream, within the drift tolerance (re-confirmation: candidates and sync
id kept) and beyond it (resynchronisation: candidates discarded, a new id); in both the clock is anchored and a new
candidate opened. -/
def Obligations.MidstreamSync : Prop :=
  ∀ (s : State) (r : Symbol) (peak : Level),
    s.rx.rxState = .idle ∨ s.rx.rxState = .symbol ∨ s.rx.rxState = .guard →
    s.rx.clockValid = true → syncNow (histPush r s) = true →
    (drift s.rx.sampCnt s ≤ s.params.driftTolerance →
      processVerdict r peak s = blockBooked r peak s
        (candsReported (discarded (evictedBySync s))
          (candidateOpened s.rx.syncId (anchoredAt s.rx.sampCnt { s with rx.rxState := .sync })))) ∧
    (s.params.driftTolerance < drift s.rx.sampCnt s → 1 ≤ s.params.maxCandidates →
      processVerdict r peak s = blockBooked r peak s
        (candsReported (discarded s.frm.cand)
          (candidateOpened s.rx.nextSyncId
            (anchoredAt s.rx.sampCnt
              { s with
                rx.rxState := .sync
                rx.syncId := s.rx.nextSyncId
                rx.syncValid := true
                rx.nextSyncId := s.rx.nextSyncId + 1
                frm.cand := [] }))))

/-- 43_rx_state_machine.md R188, R190 and R194, derived: at a sampling point in Idle the clock advances by P blocks and the
decoded symbol is forwarded: a byte to the framer, a sync symbol or nothing to no one. -/
def Obligations.SamplingPointForwardsTheSymbol : Prop :=
  ∀ (s : State) (r : Symbol) (peak : Level),
    s.rx.rxState = .idle → s.rx.clockValid = true → s.rx.sampCnt = s.rx.nextSp → syncNow (histPush r s) = false →
    let sampled : State :=
      { histPush r s with
        rx.rxState := .symbol
        rx.nextSp := s.rx.sampCnt + BitVec.ofNat 64 (s.params.periodBlocks * s.params.fftSize)
        rx.guardLeft := BitVec.ofNat 8 s.params.guardBlocks }
    (r ≠ 0xFFFF → r.toNat + 1 < s.cfg.rxMax.toNat → s.cfg.rxMin.toNat ≤ r.toNat →
      r.toNat ≤ s.cfg.rxMin.toNat + 255 →
      processVerdict r peak s = blockBooked r peak s
        (frmFlush (frmOnByte (BitVec.ofNat 8 (r.toNat - s.cfg.rxMin.toNat))
          ((s.rx.sampCnt >>> s.params.logFftSize).setWidth 32) (.start sampled)))) ∧
    ((r ≠ 0xFFFF ∧ s.cfg.rxMax.toNat ≤ r.toNat + 1) ∨ (r = 0xFFFF ∧ s.frm.cand = []) →
      processVerdict r peak s = blockBooked r peak s sampled)

/-- 60_exceptions.md R267 with the causes of R263: entry to Error, for each of its codes: what is written, what is
discarded and reported, and that nothing else changes. -/
def Obligations.ErrorEntry : Prop :=
  ∀ (s : State) (r : Symbol) (peak : Level) (code : BitVec 4),
    (code = 3 ∧ s.rx.rxState.clocked = true ∧ s.rx.clockValid = false) ∨
    (s.rx.rxState = .idle ∧ s.rx.clockValid = true ∧ syncNow (histPush r s) = false ∧
      s.rx.sampCnt = s.rx.nextSp ∧
      ((code = 1 ∧ r = 0xFFFF ∧ s.frm.cand ≠ []) ∨
       (code = 2 ∧ r ≠ 0xFFFF ∧ r.toNat + 1 < s.cfg.rxMax.toNat ∧ s.cfg.rxMin.toNat + 255 < r.toNat))) →
    let entered : State :=
      { s with
        rx.rxState := .error
        rx.syncValid := false
        rx.syncId := 0
        rx.clockValid := false
        rx.guardLeft := 0
        frm.cand := []
        diag.errCode := code
        diag.errCount := s.diag.errCount + 1 }
    processVerdict r peak s = blockBooked r peak s
      (if s.frm.cand = [] then entered else candsReported (discarded s.frm.cand) entered) ∧
    ((∀ x ∈ s.frm.cand, x.isValid = .unknown) →
      discarded s.frm.cand = s.frm.cand.map fun x => (x.id, .unknown))

/-- 43_rx_state_machine.md R198, first scenario, derived: any number of silent blocks after initialisation leaves the
receiver in FirstSyncWait with nothing reported. -/
def Obligations.SilenceNeverAcquires : Prop :=
  ∀ (s : State) (n : Nat) (rest : List (List Sample)), RingShape s →
    s.rx.rxState = .idleInit ∨ s.rx.rxState = .firstSyncWait → fatalCode s.params s.cfg = 0 →
    s.cfg.loop = false → s.cfg.thresh ≠ 0x8000 →
    s.port.sin = List.replicate (n + 1) (silentBlock s.params.logFftSize) ++ rest →
    ∃ t : State, runCommands (List.replicate (n + 1) .block) s = .next t ∧ t.rx.rxState = .firstSyncWait ∧
      t.port.evt = s.port.evt ∧ t.port.sin = rest ∧ t.frm = s.frm ∧ t.diag = s.diag ∧ t.rx.lastRaw = 0xFFFF ∧
      t.rx.sampCnt = s.rx.sampCnt + BitVec.ofNat 64 ((n + 1) * s.params.fftSize)

/-! ### The framer -/

/-- 44_framer.md R213, R214, R216, R217 on one candidate and the fields of R218's Frame, derived: the header is parsed
or refused, a byte short of the last accumulates, and the last is judged by the checksum. -/
def Obligations.ByteToOneCandidate : Prop :=
  (∀ (id : Id) (x : Candidate) (h c : Byte) (payload : List Byte), payload.length ≤ 15 →
    x.received = [h] ++ payload ++ [c] → x.expected = some (BitVec.ofNat 8 (payload.length + 2)) →
    frameOf id x =
      { id := id, header := h, payload := payload, checksum := c, isCommand := h.getLsbD 4
        frameCandidateId := x.id }) ∧
  ∀ (payloadMax : Nat) (b : Byte) (idx : Id) (x : Candidate),
    (x.received = [] → payloadMax < headerLength b →
      feed payloadMax b idx x =
        .failed { x with received := [b], symbolId := x.symbolId ++ [idx], isValid := .invalid }) ∧
    (x.received = [] → headerLength b ≤ payloadMax →
      feed payloadMax b idx x =
        .kept { x with
                received := [b], symbolId := x.symbolId ++ [idx]
                expected := some (BitVec.ofNat 8 (headerLength b + 2)) }) ∧
    (∀ e : BitVec 8, x.received ≠ [] → x.expected = some e → x.received.length + 1 ≠ e.toNat →
      feed payloadMax b idx x =
        .kept { x with received := x.received ++ [b], symbolId := x.symbolId ++ [idx] }) ∧
    (∀ e : BitVec 8, x.received ≠ [] → x.expected = some e → x.received.length + 1 = e.toNat →
      feed payloadMax b idx x =
        if checksum x.received = b then
          .matched { x with received := x.received ++ [b], symbolId := x.symbolId ++ [idx], isValid := .valid }
        else
          .failed { x with received := x.received ++ [b], symbolId := x.symbolId ++ [idx], isValid := .invalid })

/-- 44_framer.md R213, R218 and R219 over the whole table, derived: every candidate in flight receives the byte, each
apart from the others; the matched ones leave as Frames with consecutive ids, oldest first; the resolved ones are
listed in table order; the rest stay in flight. -/
def Obligations.ByteToTheTable : Prop :=
  ∀ (b : Byte) (idx : Id) (k : Work),
    (k.s.frm.cand = [] → frmOnByte b idx k = k) ∧
    (k.s.frm.cand ≠ [] →
      let fed := k.s.frm.cand.map (feed k.s.params.payloadMax b idx)
      let frames := (fed.filterMap Fed.matched?).mapIdx fun i x =>
        frameOf (k.s.frm.nextFrameId + BitVec.ofNat 32 i) x
      frmOnByte b idx k =
        { s :=
            { k.s with
              frm.cand := fed.filterMap Fed.kept?
              frm.nextFrameId := k.s.frm.nextFrameId + BitVec.ofNat 32 frames.length
              frm.lastFrame := frames.getLast?.getD k.s.frm.lastFrame
              frm.lastFrameValid := k.s.frm.lastFrameValid || !frames.isEmpty
              diag.status := if frames = [] then k.s.diag.status else k.s.diag.status ||| 0x01
              port.evt := k.s.port.evt ++ frames.map Event.frame }
          resolved := k.resolved ++ fed.filterMap Fed.removed?
          changed := true })

/-- 44_framer.md R212, derived: a sync opens a candidate with the next id at the end of the table; on a full table the oldest is
evicted unjudged. -/
def Obligations.SyncOpensACandidate : Prop :=
  ∀ k : Work,
    let x : Candidate :=
      { id := k.s.frm.nextCandId, received := [], expected := none, isValid := .unknown, symbolId := [],
        syncId := k.s.rx.syncId }
    (k.s.frm.cand.length ≠ k.s.params.maxCandidates → frmOnSync k =
      { s := { k.s with frm.cand := k.s.frm.cand ++ [x], frm.nextCandId := k.s.frm.nextCandId + 1 }
        resolved := k.resolved
        changed := true }) ∧
    (∀ y rest, k.s.frm.cand = y :: rest → k.s.frm.cand.length = k.s.params.maxCandidates → frmOnSync k =
      { s := { k.s with frm.cand := rest ++ [x], frm.nextCandId := k.s.frm.nextCandId + 1 }
        resolved := k.resolved ++ [(y.id, y.isValid)]
        changed := true })

/-- 45_tx_sequencer.md R238 with `decode` the framer fed after one sync, as the rule says: the values of the queued data
symbols are the encoded bytes, and those bytes come back as one Frame with that payload and that command flag. -/
def Obligations.FrameRoundTrip : Prop :=
  (∀ (c : ConfigRegs) (payload : List Byte) (cmd : Bool), c.txMin.toNat + 257 ≤ c.txMax.toNat →
    ((frameSymbols c (encodeBytes payload cmd)).drop 2).map (fun x => symbolToValue c.txMin x.toNat) =
      (encodeBytes payload cmd).map BitVec.toNat) ∧
  ∀ (s : State) (payload : List Byte) (cmd : Bool) (ids : List Id), s.params.payloadMax ≤ 15 →
    payload.length ≤ s.params.payloadMax → s.frm.cand = [] → ids.length = payload.length + 2 →
    let bs := encodeBytes payload cmd
    let f : Frame :=
      { id := s.frm.nextFrameId, header := frameHeader payload.length cmd, payload := payload
        checksum := checksum ([frameHeader payload.length cmd] ++ payload), isCommand := cmd
        frameCandidateId := s.frm.nextCandId }
    deliverBytes (bs.zip ids) (frmOnSync (.start s)) =
      { s :=
          { s with
            frm.cand := []
            frm.nextCandId := s.frm.nextCandId + 1
            frm.nextFrameId := s.frm.nextFrameId + 1
            frm.lastFrame := f
            frm.lastFrameValid := true
            diag.status := s.diag.status ||| 0x01
            port.evt := s.port.evt ++ [.frame f] }
        resolved := [(s.frm.nextCandId, .valid)]
        changed := true }

/-- 44_framer.md R222 (c), derived: a frame with one bit flipped in its payload, its checksum or bits [7:4] of its
header gives no Frame; its candidate is resolved as invalid. -/
def Obligations.FlippedBitIsDetected : Prop :=
  ∀ (s : State) (payload : List Byte) (cmd : Bool) (ids : List Id) (i j : Nat), s.params.payloadMax ≤ 15 →
    payload.length ≤ s.params.payloadMax → s.frm.cand = [] → ids.length = payload.length + 2 →
    i < payload.length + 2 → j < 8 → (i = 0 → 4 ≤ j) →
    let bs := (encodeBytes payload cmd).modify i fun b => b ^^^ (1#8 <<< j)
    deliverBytes (bs.zip ids) (frmOnSync (.start s)) =
      { s := { s with frm.cand := [], frm.nextCandId := s.frm.nextCandId + 1 }
        resolved := [(s.frm.nextCandId, .invalid)]
        changed := true }

/-- 45_tx_sequencer.md R238 over the whole block, derived, the headline of the model: in loopback, with both alphabets equal and
wide enough for every byte and a threshold the tone reaches, SENDFRAME of any payload and one BLOCK for each block
period of the queue deliver exactly one Frame, with that payload and that command flag. -/
def Obligations.LoopbackDeliversEveryPayload : Prop :=
  ∀ (s u : State) (payload : List Byte) (cmd : Bool),
    s.params.Consistent → RingShape s → fatalCode s.params s.cfg = 0 →
    payload.length ≤ s.params.payloadMax → payload.length + 4 ≤ s.params.txqDepth →
    (∀ (i : Nat) (b : Byte), payload[i]? = some b → s.tx.pbuf[i]? = some (b.setWidth 16)) →
    s.cfg.loop = true → s.cfg.txMin = s.cfg.rxMin → s.cfg.txMax = s.cfg.rxMax →
    0 < s.cfg.rxMin.toNat → s.cfg.rxMin.toNat + 257 ≤ s.cfg.rxMax.toNat →
    3 ≤ s.cfg.txAmp.toNat → s.cfg.txAmp.toNat ≤ 0x8000 → AtMostToneBound s.cfg.txAmp.toNat s.cfg.thresh.toInt →
    s.rx.rxState = .firstSyncWait ∨ s.rx.rxState = .idleInit →
    s.frm.cand = [] → s.tx.txq = [] → s.tx.txHold = 0 →
    exec (.sendframe (BitVec.ofNat 8 payload.length) cmd) s = .next u →
    ∃ t : State,
      runCommands (List.replicate ((payload.length + 4) * s.params.periodBlocks) .block) u = .next t ∧
      framesOf t.port.evt = framesOf s.port.evt ++
        [{ id := s.frm.nextFrameId, header := frameHeader payload.length cmd, payload := payload
           checksum := checksum ([frameHeader payload.length cmd] ++ payload), isCommand := cmd
           frameCandidateId := s.frm.nextCandId }] ∧
      t.tx.txq = [] ∧ t.diag.errCount = s.diag.errCount ∧ t.frm.cand = []

/-! ### What holds after every step -/

/-- 10_state.md R30, R31, R34, R35 and 60_exceptions.md R262 to R265, derived: the mirrors, the amplitude and the rates
stay legal; the code registers hold listed codes only, and FATALCODE is not 0 in FatalError. -/
def Obligations.RegistersStayInRange : Prop :=
  (∀ s t : State, s.params.Consistent → ConfigInv s → step s = .next t → ConfigInv t) ∧
  (∀ s t : State, DiagnosticsInv s → step s = .next t → DiagnosticsInv t)

/-- 10_state.md R24, R40 and 42_sync_tracker.md R153, derived: the history keeps its form and holds raw symbols only.
-/
def Obligations.HistoryInvariantKept : Prop :=
  ∀ s t : State, HistoryInv s → step s = .next t → HistoryInv t

/-- 43_rx_state_machine.md R196 (a) and (c), derived: the clock is valid exactly in the clocked states, the sync id with
it, and the next sampling block is never in the past and never more than P blocks ahead. -/
def Obligations.ClockInvariantKept : Prop :=
  (∀ s t : State, s.params.Consistent → ClockInv s → step s = .next t → ClockInv t) ∧
  (∀ s : State, ClockInv s → s.rx.clockValid = true →
    ∃ k ≤ s.params.periodBlocks, s.rx.nextSp - s.rx.sampCnt = BitVec.ofNat 64 (k * s.params.fftSize))

/-- 43_rx_state_machine.md R196 (b), 44_framer.md R215 and R219, derived: the candidate table. -/
def Obligations.CandidateTableInvariantKept : Prop :=
  ∀ s t : State, s.params.Legal → FramerInv s → step s = .next t → FramerInv t

/-- 44_framer.md R222 (b), derived: every Frame that leaves on EVT is sound. -/
def Obligations.EmittedFramesAreSound : Prop :=
  ∀ s t : State, FramerInv s → FramesInv s → step s = .next t → FramesInv t

/-- 10_state.md R24, R43, derived: the transmit queue and its registers stay in range. -/
def Obligations.TransmitInvariantKept : Prop :=
  ∀ s t : State, TransmitInv s → step s = .next t → TransmitInv t

/-- Derived from 70_reset_and_hazards.md R291: everything the invariants say holds right after reset, for the default
instance and for every other. -/
def Obligations.InvariantsHoldAfterReset : Prop :=
  Inv State.reset ∧ ∀ p : Params, p.Consistent → Inv (State.afterPor p)

/-! ### What every command respects -/

/-- 10_state.md R22, R38 and 60_exceptions.md R272, derived: EVT only grows, and a command sets exactly the flags of
the records it appends; only ACK and RESET clear any. -/
def Obligations.EveryFlagHasItsEvent : Prop :=
  ∀ (i : Instr) (s t : State), exec i s = .next t →
    ∃ es : List Event, t.port.evt = s.port.evt ++ es ∧
      ((∀ imm, i ≠ .ack imm) → i ≠ .reset → t.diag.status = s.diag.status ||| flagsOf es) ∧
      ((∃ imm, i = .ack imm) ∨ i = .reset → es = [])

/-- 20_memory.md R66, 10_state.md section 5, 00_scope.md R5, derived: only a setter or IRQEN changes a configuration
register, and no step changes the parameters. -/
def Obligations.OnlySettersWriteConfiguration : Prop :=
  (∀ s t : State, step s = .next t → t.params = s.params) ∧
  (∀ (i : Instr) (s t : State), exec i s = .next t →
    i = .nop ∨ i = .reset ∨ i = .block ∨ i = .txtick ∨ i = .sendsync ∨ (∃ imm, i = .ack imm) ∨
      (∃ idx val, i = .ldp idx val) ∨ (∃ len cmd, i = .sendframe len cmd) → t.cfg = s.cfg) ∧
  (∀ (i : Instr) (s t : State), exec i s = .next t → (∀ imm, i ≠ .irqen imm) → t.cfg.irqEn = s.cfg.irqEn)

/-- 20_memory.md R66, derived: the transmit commands leave the receive path alone, and BLOCK touches the transmit path
only through one tick, in loopback. -/
def Obligations.PathsShareNoState : Prop :=
  (∀ (i : Instr) (s t : State), exec i s = .next t →
    i = .txtick ∨ i = .sendsync ∨ (∃ idx val, i = .ldp idx val) ∨ (∃ len cmd, i = .sendframe len cmd) →
    t.rx = s.rx ∧ t.frm = s.frm ∧ t.port.sin = s.port.sin) ∧
  (∀ s t : State, exec .block s = .next t →
    t.tx = (if s.cfg.loop then (txTickRegs s.params s.tx).2 else s.tx) ∧ t.port.tout = s.port.tout ∧
    t.port.sin = (if s.cfg.loop then s.port.sin else s.port.sin.drop 1) ∧ t.tx.pbuf = s.tx.pbuf)

/-- 10_state.md R30, R31, R34, R38 and R29, derived: a BLOCK reads neither rate, nor RXAMP, nor IRQEN, nor STATUS: it
does to two states that differ in those alone the same. -/
def Obligations.BlockIgnoresRatesAndFlags : Prop :=
  ∀ (s t : State) (txRate rxRate : BitVec 24) (rxAmp : BitVec 16) (irqEn status : BitVec 7),
    exec .block s = .next t →
    ∃ extra : BitVec 7, t.diag.status = s.diag.status ||| extra ∧
      exec .block { s with cfg.txRate := txRate, cfg.rxRate := rxRate, cfg.rxAmp := rxAmp, cfg.irqEn := irqEn,
                           diag.status := status } =
        .next { t with cfg.txRate := txRate, cfg.rxRate := rxRate, cfg.rxAmp := rxAmp, cfg.irqEn := irqEn,
                       diag.status := status ||| extra }

/-- 10_state.md R26, derived: SAMPCNT is changed by RESET, which zeroes it, and by a processed BLOCK, which adds N. -/
def Obligations.SampleCounterOnlyCountsBlocks : Prop :=
  ∀ (i : Instr) (s t : State), exec i s = .next t →
    t.rx.sampCnt =
      if i = .reset then 0
      else if i = .block ∧ s.rx.rxState ≠ .fatalError ∧ fatalCode s.params s.cfg = 0 then
        s.rx.sampCnt + BitVec.ofNat 64 s.params.fftSize
      else s.rx.sampCnt

/-! ### What the host sees -/

/-- 10_state.md R47 row by row, 20_memory.md R62, R63 and 42_sync_tracker.md R152, derived: which reads return 0, and the
whole word at every offset the map lists. Where HISTWIN and another row list the same offset, the other row is read
(log 10), and a parameter or count wider than its field shows its low bits (log 11): both are the model's choice. -/
def Obligations.RegisterWindowReads : Prop :=
  ∀ s : State,
    let word := fun off => (regRead s off).toNat
    let byteAt := fun off b => (regRead s off).extractLsb' (8 * b) 8
    -- reads that are refused, and offsets no row lists
    (∀ width off : Nat, regAccess s width off = if width = 32 then regRead s off else 0) ∧
    (∀ off : Nat, off % 4 ≠ 0 ∨ 0xBFC < off → regRead s off = 0) ∧
    (∀ off : Nat, listedBesideHistory s.params off = false → off < 0x100 ∨ 0x100 + 4 * s.params.rawSymbolMax ≤ off →
      regRead s off = 0) ∧
    -- identity and parameters
    (word 0x000 = 0x414E5344 ∧ word 0x004 = 1 ∧
      word 0x008 = s.params.logFftSize % 2 ^ 5 + 2 ^ 8 * (s.params.fftFactor % 2 ^ 8) +
        2 ^ 16 * (s.params.rawSymbolMax % 2 ^ 8) + 2 ^ 24 * (s.params.maxCandidates % 2 ^ 8) ∧
      word 0x00C = s.params.periodBlocks % 2 ^ 8 + 2 ^ 8 * (s.params.guardBlocks % 2 ^ 8) +
        2 ^ 16 * (s.params.offsetBlocks % 2 ^ 8) + 2 ^ 24 * (s.params.payloadMax % 2 ^ 8) ∧
      word 0x010 = s.params.driftTolerance % 2 ^ 32 ∧ word 0x014 = s.params.txqDepth % 2 ^ 16) ∧
    -- configuration
    (word 0x020 = s.cfg.txRate.toNat ∧ word 0x024 = s.cfg.rxRate.toNat ∧
      word 0x028 = s.cfg.txMin.toNat + 2 ^ 16 * s.cfg.txMax.toNat ∧
      word 0x02C = s.cfg.rxMin.toNat + 2 ^ 16 * s.cfg.rxMax.toNat ∧
      word 0x030 = s.cfg.txAmp.toNat + 2 ^ 16 * s.cfg.rxAmp.toNat ∧
      word 0x034 = s.cfg.loop.toNat + 2 * s.cfg.rxLoop.toNat ∧ word 0x038 = s.cfg.thresh.toNat ∧
      word 0x03C = s.cfg.irqEn.toNat) ∧
    -- flags, receive timing and diagnostics
    (word 0x040 = s.diag.status.toNat ∧
      [RxState.idleInit, .firstSyncWait, .firstSync, .idle, .symbol, .sync, .guard, .error, .fatalError][word 0x044]? =
        some s.rx.rxState ∧
      word 0x048 = s.rx.sampCnt.toNat % 2 ^ 32 ∧ word 0x04C = s.rx.sampCnt.toNat / 2 ^ 32 ∧
      word 0x050 = s.rx.nextSp.toNat % 2 ^ 32 ∧ word 0x054 = s.rx.nextSp.toNat / 2 ^ 32 ∧
      word 0x058 = s.rx.clockValid.toNat + 2 * s.rx.syncValid.toNat + 4 * (!s.rx.syncValid).toNat +
        8 * s.rx.lastSp.toNat + 16 * s.rx.lastSync.toNat + 2 ^ 8 * s.rx.guardLeft.toNat ∧
      word 0x05C = s.rx.syncId.toNat ∧ word 0x060 = s.rx.nextSyncId.toNat ∧
      word 0x064 = s.rx.lastRaw.toNat + 2 ^ 16 * s.rx.lastPeak.toNat ∧
      word 0x068 = s.diag.errCode.toNat + 2 ^ 4 * s.diag.fatalCode.toNat + 2 ^ 8 * s.diag.txErrCode.toNat +
        2 ^ 12 * s.diag.setErrCode.toNat + 2 ^ 16 * s.diag.errCount.toNat ∧
      word 0x06C = s.diag.cmdErrWord.toNat) ∧
    -- counters
    (word 0x070 = s.frm.nextCandId.toNat ∧ word 0x074 = s.frm.nextFrameId.toNat ∧
      word 0x078 = s.frm.cand.length % 2 ^ 8 ∧ word 0x07C = s.tx.txCur.toNat + 2 ^ 16 * s.tx.txHold.toNat ∧
      word 0x080 = s.tx.txq.length % 2 ^ 16 ∧ word 0x084 = s.rx.histCnt % 2 ^ 8 + 2 ^ 8 * (s.rx.histWr % 2 ^ 8)) ∧
    -- the windows of the history, PBUF and TXQ
    ((∀ i < s.params.rawSymbolMax, 0x100 + 4 * i ≤ 0xBFC → listedBesideHistory s.params (0x100 + 4 * i) = false →
        word (0x100 + 4 * i) = ((histAll s).getD i 0xFFFF).toNat) ∧
      (∀ i : Fin 32, word (0x200 + 4 * i) = s.tx.pbuf[i].toNat) ∧
      ∀ i < 64, word (0x280 + 4 * i) = (s.tx.txq.getD i 0xFFFF).toNat) ∧
    -- LASTFRAME
    (word 0x400 = s.frm.lastFrame.id.toNat ∧
      word 0x404 = s.frm.lastFrame.header.toNat + 2 ^ 8 * s.frm.lastFrame.checksum.toNat +
        2 ^ 16 * s.frm.lastFrame.isCommand.toNat + 2 ^ 17 * s.frm.lastFrameValid.toNat +
        2 ^ 24 * (s.frm.lastFrame.payload.length % 2 ^ 8) ∧
      word 0x408 = s.frm.lastFrame.frameCandidateId.toNat ∧
      ∀ w < 4, ∀ b < 4, byteAt (0x40C + 4 * w) b = s.frm.lastFrame.payload.getD (4 * w + b) 0) ∧
    -- the candidate window
    ∀ j < s.params.maxCandidates, j < 8 →
      (s.frm.cand.length ≤ j → ∀ r < 0x64, r % 4 = 0 → word (0x800 + 0x80 * j + r) = 0) ∧
      ∀ x, s.frm.cand[j]? = some x →
        word (0x800 + 0x80 * j) = x.id.toNat ∧
        (∃ verdict, word (0x804 + 0x80 * j) =
            x.received.length % 2 ^ 8 + 2 ^ 8 * (x.expected.getD 0xFF).toNat + 2 ^ 16 * verdict ∧
          [Verdict.unknown, .valid, .invalid][verdict]? = some x.isValid) ∧
        word (0x808 + 0x80 * j) = x.syncId.toNat ∧
        (∀ w < 5, ∀ b < 4, byteAt (0x80C + 0x80 * j + 4 * w) b = x.received.getD (4 * w + b) 0) ∧
        ∀ i < 17, word (0x820 + 0x80 * j + 4 * i) = (x.symbolId.getD i 0).toNat

/-- 00_scope.md R13 and R14, derived: the frequency of a symbol maps back to it exactly, any real frequency to within half a
symbol step, and a byte's symbol back to the byte. -/
def Obligations.FrequencyMappingInverts : Prop :=
  (∀ (p : Params) (rate : Nat), 1 ≤ p.fftFactor → 1 ≤ rate →
    (∀ s : Nat, frequencyToSymbol p rate (symbolToFrequency p rate s) = s) ∧
    (∀ f : ℝ, 0 ≤ f → ∃ s : Nat, frequencyToSymbol p rate f = s ∧
      |(symbolToFrequency p rate s : ℝ) - f| ≤ ((p.fftFactor * rate : Nat) : ℝ) / (2 * (p.fftSize : Nat)))) ∧
  (∀ (p : Params) (s : Nat), 1 ≤ p.fftFactor → binToSymbol p (symbolToBin p s) = s) ∧
  (∀ (symbolMin symbolMax : BitVec 15) (b : Byte), byteEncodable symbolMin symbolMax b = true →
    isDataSymbol symbolMin symbolMax (byteToSymbol symbolMin b).toNat = true ∧
    symbolToValue symbolMin (byteToSymbol symbolMin b).toNat = b.toNat)
end

