-- ==== Sys2Proof/Laws/State.lean ====
section
/-!
SUPPORT. One lemma a field an update of State, true by rfl: a later proof unfolds no record update.
-/

namespace Sys2Proof.Machine

variable (s : State)

@[simp] theorem State.withCfg_params (x : ConfigRegs) : (s.withCfg x).params = s.params := rfl
@[simp] theorem State.withCfg_cfg (x : ConfigRegs) : (s.withCfg x).cfg = x := rfl
@[simp] theorem State.withCfg_rx (x : ConfigRegs) : (s.withCfg x).rx = s.rx := rfl
@[simp] theorem State.withCfg_frm (x : ConfigRegs) : (s.withCfg x).frm = s.frm := rfl
@[simp] theorem State.withCfg_tx (x : ConfigRegs) : (s.withCfg x).tx = s.tx := rfl
@[simp] theorem State.withCfg_diag (x : ConfigRegs) : (s.withCfg x).diag = s.diag := rfl
@[simp] theorem State.withCfg_port (x : ConfigRegs) : (s.withCfg x).port = s.port := rfl
@[simp] theorem State.withCfg_withCfg (x y : ConfigRegs) : (s.withCfg x).withCfg y = s.withCfg y := rfl

@[simp] theorem State.withRx_params (x : RxRegs) : (s.withRx x).params = s.params := rfl
@[simp] theorem State.withRx_cfg (x : RxRegs) : (s.withRx x).cfg = s.cfg := rfl
@[simp] theorem State.withRx_rx (x : RxRegs) : (s.withRx x).rx = x := rfl
@[simp] theorem State.withRx_frm (x : RxRegs) : (s.withRx x).frm = s.frm := rfl
@[simp] theorem State.withRx_tx (x : RxRegs) : (s.withRx x).tx = s.tx := rfl
@[simp] theorem State.withRx_diag (x : RxRegs) : (s.withRx x).diag = s.diag := rfl
@[simp] theorem State.withRx_port (x : RxRegs) : (s.withRx x).port = s.port := rfl
@[simp] theorem State.withRx_withRx (x y : RxRegs) : (s.withRx x).withRx y = s.withRx y := rfl

@[simp] theorem State.withFrm_params (x : FramerRegs) : (s.withFrm x).params = s.params := rfl
@[simp] theorem State.withFrm_cfg (x : FramerRegs) : (s.withFrm x).cfg = s.cfg := rfl
@[simp] theorem State.withFrm_rx (x : FramerRegs) : (s.withFrm x).rx = s.rx := rfl
@[simp] theorem State.withFrm_frm (x : FramerRegs) : (s.withFrm x).frm = x := rfl
@[simp] theorem State.withFrm_tx (x : FramerRegs) : (s.withFrm x).tx = s.tx := rfl
@[simp] theorem State.withFrm_diag (x : FramerRegs) : (s.withFrm x).diag = s.diag := rfl
@[simp] theorem State.withFrm_port (x : FramerRegs) : (s.withFrm x).port = s.port := rfl
@[simp] theorem State.withFrm_withFrm (x y : FramerRegs) : (s.withFrm x).withFrm y = s.withFrm y := rfl

@[simp] theorem State.withTx_params (x : TxRegs) : (s.withTx x).params = s.params := rfl
@[simp] theorem State.withTx_cfg (x : TxRegs) : (s.withTx x).cfg = s.cfg := rfl
@[simp] theorem State.withTx_rx (x : TxRegs) : (s.withTx x).rx = s.rx := rfl
@[simp] theorem State.withTx_frm (x : TxRegs) : (s.withTx x).frm = s.frm := rfl
@[simp] theorem State.withTx_tx (x : TxRegs) : (s.withTx x).tx = x := rfl
@[simp] theorem State.withTx_diag (x : TxRegs) : (s.withTx x).diag = s.diag := rfl
@[simp] theorem State.withTx_port (x : TxRegs) : (s.withTx x).port = s.port := rfl
@[simp] theorem State.withTx_withTx (x y : TxRegs) : (s.withTx x).withTx y = s.withTx y := rfl

@[simp] theorem State.withDiag_params (x : DiagRegs) : (s.withDiag x).params = s.params := rfl
@[simp] theorem State.withDiag_cfg (x : DiagRegs) : (s.withDiag x).cfg = s.cfg := rfl
@[simp] theorem State.withDiag_rx (x : DiagRegs) : (s.withDiag x).rx = s.rx := rfl
@[simp] theorem State.withDiag_frm (x : DiagRegs) : (s.withDiag x).frm = s.frm := rfl
@[simp] theorem State.withDiag_tx (x : DiagRegs) : (s.withDiag x).tx = s.tx := rfl
@[simp] theorem State.withDiag_diag (x : DiagRegs) : (s.withDiag x).diag = x := rfl
@[simp] theorem State.withDiag_port (x : DiagRegs) : (s.withDiag x).port = s.port := rfl
@[simp] theorem State.withDiag_withDiag (x y : DiagRegs) : (s.withDiag x).withDiag y = s.withDiag y := rfl

@[simp] theorem State.withPort_params (x : Ports) : (s.withPort x).params = s.params := rfl
@[simp] theorem State.withPort_cfg (x : Ports) : (s.withPort x).cfg = s.cfg := rfl
@[simp] theorem State.withPort_rx (x : Ports) : (s.withPort x).rx = s.rx := rfl
@[simp] theorem State.withPort_frm (x : Ports) : (s.withPort x).frm = s.frm := rfl
@[simp] theorem State.withPort_tx (x : Ports) : (s.withPort x).tx = s.tx := rfl
@[simp] theorem State.withPort_diag (x : Ports) : (s.withPort x).diag = s.diag := rfl
@[simp] theorem State.withPort_port (x : Ports) : (s.withPort x).port = x := rfl
@[simp] theorem State.withPort_withPort (x y : Ports) : (s.withPort x).withPort y = s.withPort y := rfl

end Sys2Proof.Machine
end

