-- ==== Sys2Proof/Laws/Ops.lean ====
section
/-!
SUPPORT. For each shared operation, what it can do and what it leaves alone: cited by later proofs, so that none has
to unfold it.
-/

namespace Sys2Proof.Machine

/-! ### What no condition, clearing or framer operation touches -/

/-- The parts of the state a receive-side operation leaves alone: parameters, configuration, transmit path, inputs and
TOUT. -/
structure KeepsTxSide (s t : State) : Prop where
  params : t.params = s.params
  cfg : t.cfg = s.cfg
  tx : t.tx = s.tx
  pending : t.port.pending = s.port.pending
  sin : t.port.sin = s.port.sin
  tout : t.port.tout = s.port.tout

theorem KeepsTxSide.refl (s : State) : KeepsTxSide s s := ⟨rfl, rfl, rfl, rfl, rfl, rfl⟩

theorem KeepsTxSide.trans {a b c : State} (h : KeepsTxSide a b) (g : KeepsTxSide b c) : KeepsTxSide a c :=
  ⟨g.params.trans h.params, g.cfg.trans h.cfg, g.tx.trans h.tx, g.pending.trans h.pending, g.sin.trans h.sin,
    g.tout.trans h.tout⟩

/-- The receive registers the framer and the flags never touch. -/
structure KeepsRx (s t : State) : Prop extends KeepsTxSide s t where
  rx : t.rx = s.rx

theorem KeepsRx.refl (s : State) : KeepsRx s s := ⟨KeepsTxSide.refl s, rfl⟩

theorem KeepsRx.trans {a b c : State} (h : KeepsRx a b) (g : KeepsRx b c) : KeepsRx a c :=
  ⟨h.toKeepsTxSide.trans g.toKeepsTxSide, g.rx.trans h.rx⟩

theorem emit_keeps (e : Event) (s : State) : KeepsRx s (emit e s) := ⟨⟨rfl, rfl, rfl, rfl, rfl, rfl⟩, rfl⟩

@[simp] theorem emit_evt (e : Event) (s : State) : (emit e s).port.evt = s.port.evt ++ [e] := rfl
@[simp] theorem emit_frm (e : Event) (s : State) : (emit e s).frm = s.frm := rfl
@[simp] theorem emit_diag (e : Event) (s : State) : (emit e s).diag = s.diag := rfl

theorem raiseFlag_keeps (f : BitVec 7) (s : State) : KeepsRx s (raiseFlag f s) := ⟨⟨rfl, rfl, rfl, rfl, rfl, rfl⟩, rfl⟩

@[simp] theorem raiseFlag_status (f : BitVec 7) (s : State) : (raiseFlag f s).diag.status = s.diag.status ||| f := rfl
@[simp] theorem raiseFlag_frm (f : BitVec 7) (s : State) : (raiseFlag f s).frm = s.frm := rfl
@[simp] theorem raiseFlag_port (f : BitVec 7) (s : State) : (raiseFlag f s).port = s.port := rfl

theorem frmDiscardAll_of_nil {k : Work} (h : k.s.frm.cand = []) : frmDiscardAll k = k := if_pos h

theorem frmDiscardAll_of_ne {k : Work} (h : k.s.frm.cand ≠ []) :
    frmDiscardAll k =
      ⟨k.s.withFrm { k.s.frm with cand := [] }, k.resolved ++ k.s.frm.cand.map fun x => (x.id, x.isValid), true⟩ :=
  if_neg h

theorem frmDiscardAll_keeps (k : Work) : KeepsRx k.s (frmDiscardAll k).s := by
  by_cases h : k.s.frm.cand = []
  · rw [frmDiscardAll_of_nil h]; exact KeepsRx.refl _
  · rw [frmDiscardAll_of_ne h]; exact ⟨⟨rfl, rfl, rfl, rfl, rfl, rfl⟩, rfl⟩

theorem frmOnSync_keeps (k : Work) : KeepsRx k.s (frmOnSync k).s := ⟨⟨rfl, rfl, rfl, rfl, rfl, rfl⟩, rfl⟩

theorem emitFrame_keeps (x : Candidate) (s : State) : KeepsRx s (emitFrame x s) :=
  ⟨⟨rfl, rfl, rfl, rfl, rfl, rfl⟩, rfl⟩

theorem settleFed_keeps (k : Work) (f : Fed) : KeepsRx k.s (settleFed k f).s := by
  cases f <;> exact ⟨⟨rfl, rfl, rfl, rfl, rfl, rfl⟩, rfl⟩

theorem foldl_settleFed_keeps (fs : List Fed) (k : Work) : KeepsRx k.s (fs.foldl settleFed k).s := by
  induction fs generalizing k with
  | nil => exact KeepsRx.refl _
  | cons f fs ih => exact (settleFed_keeps k f).trans (ih _)

theorem frmOnByte_of_nil (b : Byte) (idx : Id) {k : Work} (h : k.s.frm.cand = []) : frmOnByte b idx k = k := if_pos h

theorem frmOnByte_of_ne (b : Byte) (idx : Id) {k : Work} (h : k.s.frm.cand ≠ []) :
    frmOnByte b idx k = (k.s.frm.cand.map (feed k.s.params.payloadMax b idx)).foldl settleFed
      ⟨k.s.withFrm { k.s.frm with cand := [] }, k.resolved, true⟩ :=
  if_neg h

theorem frmOnByte_keeps (b : Byte) (idx : Id) (k : Work) : KeepsRx k.s (frmOnByte b idx k).s := by
  by_cases h : k.s.frm.cand = []
  · rw [frmOnByte_of_nil b idx h]; exact KeepsRx.refl _
  · rw [frmOnByte_of_ne b idx h]
    refine KeepsRx.trans ?_ (foldl_settleFed_keeps _ _)
    exact ⟨⟨rfl, rfl, rfl, rfl, rfl, rfl⟩, rfl⟩

theorem frmFlush_of_unchanged {k : Work} (h : k.changed = false) : frmFlush k = k.s := by simp [frmFlush, h]

theorem frmFlush_of_changed {k : Work} (h : k.changed = true) :
    frmFlush k = emit (.cands k.s.frm.cand k.resolved) (raiseFlag flagCands k.s) := by simp [frmFlush, h]

theorem frmFlush_keeps (k : Work) : KeepsRx k.s (frmFlush k) := by
  cases h : k.changed
  · rw [frmFlush_of_unchanged h]; exact KeepsRx.refl _
  · rw [frmFlush_of_changed h]; exact (raiseFlag_keeps _ _).trans (emit_keeps _ _)

theorem frmFlush_frm (k : Work) : (frmFlush k).frm = k.s.frm := by
  cases h : k.changed
  · rw [frmFlush_of_unchanged h]
  · rw [frmFlush_of_changed h]; rfl

theorem clearSync_keeps (s : State) : KeepsTxSide s (clearSync s) := ⟨rfl, rfl, rfl, rfl, rfl, rfl⟩

/-- Raising a condition leaves the transmit side and the configuration alone, whichever it is (60_exceptions.md
R260). -/
theorem raise_keeps (c : Condition) (k : Work) : KeepsTxSide k.s (raise c k).s := by
  cases c with
  | decodeAnomaly code =>
    simp only [raise]
    generalize hk : ({ k with s := _ } : Work) = k'
    have h0 : KeepsTxSide k.s k'.s := by subst hk; exact ⟨rfl, rfl, rfl, rfl, rfl, rfl⟩
    have h := h0.trans (frmDiscardAll_keeps k').toKeepsTxSide
    exact ⟨h.params, h.cfg, h.tx, h.pending, h.sin, h.tout⟩
  | _ => exact ⟨rfl, rfl, rfl, rfl, rfl, rfl⟩

/-- RxClear leaves the transmit side, SAMPCNT and the id counters alone (40_config_ops.md R104). -/
theorem rxClear_keeps (s : State) : KeepsTxSide s (rxClear s) ∧ (rxClear s).rx.sampCnt = s.rx.sampCnt ∧
    (rxClear s).rx.nextSyncId = s.rx.nextSyncId := by
  unfold rxClear rxToIdleInit
  by_cases h : s.rx.rxState = .fatalError <;> by_cases g : s.frm.cand = [] <;>
    simp only [h, g, if_true, if_false] <;> exact ⟨⟨rfl, rfl, rfl, rfl, rfl, rfl⟩, rfl, rfl⟩

/-! ### One transition -/

/-- What a processed block keeps until its bookkeeping: SAMPCNT, the latches and the history. -/
structure KeepsBlock (s t : State) : Prop extends KeepsTxSide s t where
  sampCnt : t.rx.sampCnt = s.rx.sampCnt
  hist : t.rx.hist = s.rx.hist
  histWr : t.rx.histWr = s.rx.histWr
  histCnt : t.rx.histCnt = s.rx.histCnt

theorem KeepsBlock.trans {a b c : State} (h : KeepsBlock a b) (g : KeepsBlock b c) : KeepsBlock a c :=
  ⟨h.toKeepsTxSide.trans g.toKeepsTxSide, g.sampCnt.trans h.sampCnt, g.hist.trans h.hist, g.histWr.trans h.histWr,
    g.histCnt.trans h.histCnt⟩

theorem KeepsRx.toKeepsBlock {s t : State} (h : KeepsRx s t) : KeepsBlock s t :=
  ⟨h.toKeepsTxSide, by rw [h.rx], by rw [h.rx], by rw [h.rx], by rw [h.rx]⟩

theorem forwardSymbol_keeps (r : Symbol) (k : Work) : KeepsRx k.s (forwardSymbol r k).s := by
  unfold forwardSymbol
  split
  · exact frmOnByte_keeps _ _ _
  · exact KeepsRx.refl _

/-- A transition keeps the history, SAMPCNT, the transmit side and the configuration (43_rx_state_machine.md R185). -/
theorem makeMove_keeps (m : Move) (c : SampleCount) (r : Symbol) (k : Work) : KeepsBlock k.s (makeMove m c r k).s := by
  have base : ∀ t : State, t.params = k.s.params → t.cfg = k.s.cfg → t.tx = k.s.tx → t.port = k.s.port →
      t.rx.sampCnt = k.s.rx.sampCnt → t.rx.hist = k.s.rx.hist → t.rx.histWr = k.s.rx.histWr →
      t.rx.histCnt = k.s.rx.histCnt → KeepsBlock k.s t :=
    fun t a b d e f g h i => ⟨⟨a, b, d, by rw [e], by rw [e], by rw [e]⟩, f, g, h, i⟩
  have onSync : ∀ k' : Work, KeepsBlock k.s k'.s → KeepsBlock k.s (frmOnSync k').s :=
    fun k' h => h.trans (frmOnSync_keeps k').toKeepsBlock
  cases m with
  | toFirstSyncWait => exact base _ rfl rfl rfl rfl rfl rfl rfl rfl
  | toFirstSync => exact onSync _ (base _ rfl rfl rfl rfl rfl rfl rfl rfl)
  | toIdle => exact base _ rfl rfl rfl rfl rfl rfl rfl rfl
  | toSymbol =>
    refine KeepsBlock.trans ?_ (forwardSymbol_keeps r _).toKeepsBlock
    exact base _ rfl rfl rfl rfl rfl rfl rfl rfl
  | toSync =>
    simp only [makeMove, syncHandler]
    split
    · apply onSync
      have h := (frmDiscardAll_keeps { k with s := enterState .sync k.s }).toKeepsBlock
      exact ⟨⟨h.params, h.cfg, h.tx, h.pending, h.sin, h.tout⟩, h.sampCnt, h.hist, h.histWr, h.histCnt⟩
    · exact onSync _ (base _ rfl rfl rfl rfl rfl rfl rfl rfl)
  | toGuard => exact base _ rfl rfl rfl rfl rfl rfl rfl rfl
  | toError code =>
    simp only [makeMove, raise]
    generalize hk : ({ k with s := _ } : Work) = k'
    have h0 : KeepsBlock k.s k'.s := by subst hk; exact base _ rfl rfl rfl rfl rfl rfl rfl rfl
    have h := h0.trans (frmDiscardAll_keeps k').toKeepsBlock
    exact ⟨⟨h.params, h.cfg, h.tx, h.pending, h.sin, h.tout⟩, h.sampCnt, h.hist, h.histWr, h.histCnt⟩
  | stayFatal => exact base _ rfl rfl rfl rfl rfl rfl rfl rfl

/-- A processed block as its one transition, whichever it is (43_rx_state_machine.md R170). -/
theorem processVerdict_of_move {r : Symbol} {peak : Level} {s : State} (m : Move)
    (h : nextMove s (syncNow (histPush r s)) (s.rx.clockValid && s.rx.sampCnt == s.rx.nextSp) r = m) :
    processVerdict r peak s =
      bookkeeping r peak (s.rx.clockValid && s.rx.sampCnt == s.rx.nextSp) (syncNow (histPush r s))
        (frmFlush (makeMove m s.rx.sampCnt r (.start (histPush r s)))) := by
  subst h; rfl

/-- A processed block leaves the transmit side and the configuration alone (20_memory.md R66, R68). -/
theorem processVerdict_keeps (r : Symbol) (peak : Level) (s : State) : KeepsTxSide s (processVerdict r peak s) := by
  rw [processVerdict_of_move _ rfl]
  generalize nextMove s _ _ r = m
  have h := (makeMove_keeps m s.rx.sampCnt r (.start (histPush r s))).toKeepsTxSide.trans
    (frmFlush_keeps _).toKeepsTxSide
  exact ⟨h.params, h.cfg, h.tx, h.pending, h.sin, h.tout⟩

/-- BLOCK's receive part leaves the transmit side and the configuration alone. -/
theorem receiveBlock_keeps (X : List Sample) (s : State) : KeepsTxSide s (receiveBlock X s) := by
  unfold receiveBlock
  split
  · exact KeepsTxSide.refl _
  · split
    · exact raise_keeps _ (.start s)
    · exact processVerdict_keeps _ _ _

/-! ### Inputs and the sequencer -/

@[simp] theorem takeInput_nil {s : State} (h : s.port.pending = []) : takeInput s = .nothing := by
  simp [takeInput, h]

@[simp] theorem takeInput_por {s : State} {rest : List HostInput} (h : s.port.pending = .por :: rest) :
    takeInput s = .por (s.withPort { s.port with pending := rest }) := by simp [takeInput, h]

@[simp] theorem takeInput_word {s : State} {w : Word32} {rest : List HostInput} (h : s.port.pending = .word w :: rest) :
    takeInput s = .command w (s.withPort { s.port with pending := rest }) := by simp [takeInput, h]

/-- A tick with something held: the held symbol, one block less of it (45_tx_sequencer.md R243). -/
theorem txTickRegs_held (p : Params) {t : TxRegs} (h : t.txHold ≠ 0) :
    txTickRegs p t = (t.txCur, { t with txHold := t.txHold - 1 }) := by
  simp only [txTickRegs, if_neg h]

/-- A tick with nothing held and nothing queued: silence (45_tx_sequencer.md R243). -/
theorem txTickRegs_silent (p : Params) {t : TxRegs} (h : t.txHold = 0) (q : t.txq = []) :
    txTickRegs p t = (0xFFFF, { t with txCur := 0xFFFF }) := by
  simp only [txTickRegs, if_pos h, q]

/-- A tick that takes the head of the queue (45_tx_sequencer.md R243), on an instance whose P fits TXHOLD. -/
theorem txTickRegs_next (p : Params) {t : TxRegs} {x : Symbol} {rest : List Symbol} (h : t.txHold = 0)
    (q : t.txq = x :: rest) (hp : BitVec.ofNat 8 p.periodBlocks ≠ 0) :
    txTickRegs p t =
      (x, { t with txCur := x, txq := rest, txHold := BitVec.ofNat 8 p.periodBlocks - 1 }) := by
  simp only [txTickRegs, if_pos h, q, if_neg hp]

theorem txTickRegs_pbuf (p : Params) (t : TxRegs) : (txTickRegs p t).2.pbuf = t.pbuf := by
  by_cases h : t.txHold = 0
  · cases q : t.txq with
    | nil => rw [txTickRegs_silent p h q]
    | cons x rest => simp only [txTickRegs, if_pos h, q]; split <;> rfl
  · rw [txTickRegs_held p h]

end Sys2Proof.Machine
end

