-- ==== Sys2Proof/Laws/Blocks.lean ====
section
/-!
SUPPORT. The bookkeeping every processed block does, in the form the statements use.
-/

namespace Sys2Proof.Machine

/-- After any transition the bookkeeping of a block is `blockBooked`: the history stands as pushed, and the latches
and SAMPCNT are the block's. -/
theorem bookkeeping_eq_blockBooked {r : Symbol} {peak : Level} {s t : State} (h : KeepsBlock (histPush r s) t) :
    bookkeeping r peak (s.rx.clockValid && s.rx.sampCnt == s.rx.nextSp) (syncNow (histPush r s)) t =
      blockBooked r peak s t := by
  obtain ⟨⟨hp, -, -, -, -, -⟩, hc, hh, hw, hn⟩ := h
  simp only [bookkeeping, blockBooked, State.withRx, hp, hc]
  simp only [show t.rx.hist = _ from hh, show t.rx.histWr = _ from hw, show t.rx.histCnt = _ from hn]
  rfl

/-- A processed block is its transition, flushed and booked. -/
theorem processVerdict_booked {r : Symbol} {peak : Level} {s : State} (m : Move)
    (h : nextMove s (syncNow (histPush r s)) (s.rx.clockValid && s.rx.sampCnt == s.rx.nextSp) r = m) :
    processVerdict r peak s =
      blockBooked r peak s (frmFlush (makeMove m s.rx.sampCnt r (.start (histPush r s)))) := by
  rw [processVerdict_of_move m h]
  exact bookkeeping_eq_blockBooked 
    ((makeMove_keeps m s.rx.sampCnt r (.start (histPush r s))).trans (frmFlush_keeps _).toKeepsBlock)

end Sys2Proof.Machine
end

