-- ==== Sys2Proof/Laws/Encoding.lean ====
section
/-!
SUPPORT. Lemmas about the encoding: the two halves of an encoded word, and the bytes of a word.
-/

namespace Sys2Proof

/-- The opcode half of a word built from its two halves. -/
@[simp] theorem opField_append (op : BitVec 8) (x : BitVec 24) : opField (op ++ x) = op := by
  apply BitVec.eq_of_getLsbD_eq
  intro i hi
  simp only [opField, BitVec.getLsbD_extractLsb', BitVec.getLsbD_append]
  rw [if_neg (by omega)]
  simp [hi]

/-- The operand half of a word built from its two halves. -/
@[simp] theorem operandField_append (op : BitVec 8) (x : BitVec 24) : operandField (op ++ x) = x := by
  apply BitVec.eq_of_getLsbD_eq
  intro i hi
  simp only [operandField, BitVec.getLsbD_extractLsb', BitVec.getLsbD_append]
  rw [if_pos (by omega)]
  simp [hi]

theorem opField_encode (i : Instr) : opField (encode i) = i.opcode := opField_append _ _

theorem operandField_encode (i : Instr) : operandField (encode i) = i.operands := operandField_append _ _

/-- A word is its two halves. -/
theorem append_fields (w : Word32) : opField w ++ operandField w = w := by
  apply BitVec.eq_of_getLsbD_eq
  intro i hi
  simp only [opField, operandField, BitVec.getLsbD_extractLsb', BitVec.getLsbD_append]
  split
  · simp_all
  · rw [decide_eq_true (by omega), Bool.true_and]; congr 1; omega

/-- The word the bytes of a word spell is that word. -/
theorem wordOfBytes_bytesOfWord (w : Word32) :
    wordOfBytes (w.extractLsb' 0 8) (w.extractLsb' 8 8) (w.extractLsb' 16 8) (w.extractLsb' 24 8) = w := by
  apply BitVec.eq_of_getLsbD_eq
  intro i hi
  unfold wordOfBytes
  simp only [BitVec.getLsbD_append, BitVec.getLsbD_extractLsb']
  split
  · simp_all
  · split
    · rw [decide_eq_true (by omega), Bool.true_and]; congr 1; omega
    · split
      · rw [decide_eq_true (by omega), Bool.true_and]; congr 1; omega
      · rw [decide_eq_true (by omega), Bool.true_and]; congr 1; omega

end Sys2Proof
end

