-- ==== Sys2Proof/Laws/PerInstr.lean ====
section
/-!
SUPPORT. Statements made for every command, one lemma a constructor: the opcode field of a command's word is its
opcode (30_encoding.md R80, R89).
-/

namespace Sys2Proof.Laws

/-- The encoded word of `i` carries the opcode of `i` in bits [31:24] (30_encoding.md R80). -/
def OpcodeField.Statement (i : Instr) : Prop := opField (encode i) = i.opcode

theorem OpcodeField.nop : OpcodeField.Statement .nop := opField_encode _

theorem OpcodeField.reset : OpcodeField.Statement .reset := opField_encode _

theorem OpcodeField.block : OpcodeField.Statement .block := opField_encode _

theorem OpcodeField.txtick : OpcodeField.Statement .txtick := opField_encode _

theorem OpcodeField.ack (imm : BitVec 16) : OpcodeField.Statement (.ack imm) := opField_encode _

theorem OpcodeField.irqen (imm : BitVec 16) : OpcodeField.Statement (.irqen imm) := opField_encode _

theorem OpcodeField.setloop (b : Bool) : OpcodeField.Statement (.setloop b) := opField_encode _

theorem OpcodeField.settxrate (imm : BitVec 24) : OpcodeField.Statement (.settxrate imm) := opField_encode _

theorem OpcodeField.setrxrate (imm : BitVec 24) : OpcodeField.Statement (.setrxrate imm) := opField_encode _

theorem OpcodeField.setamp (imm : BitVec 16) : OpcodeField.Statement (.setamp imm) := opField_encode _

theorem OpcodeField.settxmin (imm : BitVec 16) : OpcodeField.Statement (.settxmin imm) := opField_encode _

theorem OpcodeField.settxmax (imm : BitVec 16) : OpcodeField.Statement (.settxmax imm) := opField_encode _

theorem OpcodeField.setrxmin (imm : BitVec 16) : OpcodeField.Statement (.setrxmin imm) := opField_encode _

theorem OpcodeField.setrxmax (imm : BitVec 16) : OpcodeField.Statement (.setrxmax imm) := opField_encode _

theorem OpcodeField.setthresh (imm : BitVec 16) : OpcodeField.Statement (.setthresh imm) := opField_encode _

theorem OpcodeField.ldp (idx : BitVec 8) (val : BitVec 16) : OpcodeField.Statement (.ldp idx val) := opField_encode _

theorem OpcodeField.sendframe (len : BitVec 8) (cmd : Bool) : OpcodeField.Statement (.sendframe len cmd) := opField_encode _

theorem OpcodeField.sendsync : OpcodeField.Statement .sendsync := opField_encode _

end Sys2Proof.Laws
end

