-- ==== Sys2Proof/Tests/Slice0.lean ====
section
/-!
SUPPORT. Tests of the model: words written out from 30_encoding.md, single steps against 95_test_vectors.md, and for
every obligation with hypotheses a state that meets them.
-/

namespace Sys2Proof.Tests

open Sys2Proof Sys2Proof.Machine

-- One after another: kernel evaluations that wait for each other would each hold a thread of their own.
set_option Elab.async false

/-! ### Well-formedness, decoding and encoding -/

/-- The one ill-formed shape, LDP with idx = 32, is refused; 31 is not (30_encoding.md R92). -/
theorem test_wellformed_ldp : ¬ (Instr.ldp 32 0).WellFormed ∧ (Instr.ldp 31 0).WellFormed := by decide

/-- Format Z (30_encoding.md R81), section 2.2 of the vectors. -/
theorem test_decode_z :
    decode 0b00000000000000000000000000000000 = some .nop ∧ decode 0b00000001000000000000000000000000 = some .reset ∧
    decode 0b00000010000000000000000000000000 = some .block ∧
    decode 0b00000011000000000000000000000000 = some .txtick ∧
    decode 0b00100010000000000000000000000000 = some .sendsync := by decide

/-- Formats B and I24 (30_encoding.md R82, R84): SETLOOP 1, SETTXRATE 44100, SETRXRATE 48000. -/
theorem test_decode_b_i24 :
    decode 0b00010000000000000000000000000001 = some (.setloop true) ∧
    decode 0b00010000000000000000000000000000 = some (.setloop false) ∧
    decode 0b00010001000000001010110001000100 = some (.settxrate 44100) ∧
    decode 0b00010010000000001011101110000000 = some (.setrxrate 48000) := by decide

/-- Format I16 (30_encoding.md R83): ACK 3, IRQEN 0x7F, SETAMP 0x4000 and the symbol and threshold setters. -/
theorem test_decode_i16 :
    decode 0b00000100000000000000000000000011 = some (.ack 3) ∧
    decode 0b00000101000000000000000001111111 = some (.irqen 0x7F) ∧
    decode 0b00010011000000000100000000000000 = some (.setamp 0x4000) ∧
    decode 0b00010100000000000000000001100100 = some (.settxmin 100) ∧
    decode 0b00010101000000000000000101100101 = some (.settxmax 357) ∧
    decode 0b00010110000000000000000110010000 = some (.setrxmin 400) ∧
    decode 0b00010111000000000000000101100101 = some (.setrxmax 357) ∧
    decode 0b00011000000000001101100000000000 = some (.setthresh 0xD800) := by decide

/-- Formats W and S (30_encoding.md R85, R86): LDP 31, 0x00FF; LDP 3, 0x0132; SENDFRAME 5, 1; SENDFRAME 255, 0. -/
theorem test_decode_w_s :
    decode 0b00100000000111110000000011111111 = some (.ldp 31 0x00FF) ∧
    decode 0b00100000000000110000000100110010 = some (.ldp 3 0x0132) ∧
    decode 0b00100001000000000000000100000101 = some (.sendframe 5 true) ∧
    decode 0b00100001000000000000000011111111 = some (.sendframe 255 false) := by decide

/-- The reserved words V-ENC-R1 to V-ENC-R9. -/
theorem test_reserved_words :
    ([0x06000000, 0x00000001, 0x10000002, 0x04010000, 0x21000200, 0x20200000, 0x22000001, 0xFF000000, 0x19000000,
      0x23000000] : List Word32).all (fun w => (decode w).isNone) = true := by decide

/-- The host's numbering: bit 0 is the least significant bit of the word. -/
theorem test_decode_table_word :
    decodeTableWord 32 0x20030132 = some (.ldp 3 0x0132) ∧ decodeTableWord 32 0x06000000 = none := by decide

/-- An LDP no word encodes is executed as its word's rejection (log 9). -/
theorem test_ill_formed_ldp :
    exec (.ldp 32 7) State.reset = .next (wordRejected 0x20200007 State.reset) := by rfl

/-! ### Single steps -/

/-- What one command word leaves, read through `f`. -/
def after {α : Type} (w : Word32) (s : State) (f : State → α) : Option α :=
  match step { s with port.pending := [.word w] } with
  | .next t => some (f t)
  | _ => none

/-- V-ENC-R1. -/
theorem test_reserved :
    after 0x06000000 State.reset (fun t => (t.diag.cmdErrWord, t.diag.status, t.port.evt)) =
      some (0x06000000, 0x20, [.cmderr 0x06000000]) := by decide +kernel

/-- V-CFG-1. -/
theorem test_nop : after 0x00000000 State.reset id = some State.reset := by decide +kernel

/-- V-CFG-2 and V-CFG-3. -/
theorem test_ack :
    after 0x04000001 { State.reset with diag.status := 0x03 } (·.diag.status) = some 0x02 ∧
    after 0x0400FF80 { State.reset with diag.status := 0x7F } (·.diag.status) = some 0x7F := by decide +kernel

/-- V-CFG-6. -/
theorem test_irqen :
    after 0x0500FFFF State.reset (fun t => (t.cfg.irqEn, t.port.evt)) = some (0x7F, []) := by decide +kernel

/-- V-CFG-7: the CFG event of SETLOOP 1. -/
theorem test_setloop :
    after 0x10000001 State.reset (fun t => (t.cfg.loop, t.cfg.rxLoop, t.diag.status, t.port.evt)) =
      some (true, true, 0x04,
        [.cfg 0x10 ⟨100, 357, 48000, 0x199A, true⟩ ⟨100, 357, 48000, 0x199A, true⟩ 0xC400]) := by decide +kernel

/-- V-CFG-11: the ends of the range are accepted, the values beyond them refused. -/
theorem test_settxrate :
    after 0x11001F40 State.reset (·.cfg.txRate) = some 8000 ∧ after 0x1102EE00 State.reset (·.cfg.txRate) = some 192000 ∧
    after 0x11001F3F State.reset (fun t => (t.cfg.txRate, t.diag.setErrCode)) = some (48000, 1) ∧
    after 0x1102EE01 State.reset (fun t => (t.cfg.txRate, t.diag.setErrCode)) = some (48000, 1) := by decide +kernel

/-- A candidate in flight, no byte received. -/
def candidate0 : Candidate :=
  { id := 0, received := [], expected := none, isValid := .unknown, symbolId := [], syncId := 0 }

/-- In Idle at a sampling point, one candidate in flight (block 7). -/
def locked : State :=
  { State.reset with
    rx.rxState := .idle
    rx.clockValid := true
    rx.syncValid := true
    rx.nextSyncId := 1
    rx.sampCnt := 57344
    rx.nextSp := 57344
    frm.cand := [candidate0]
    frm.nextCandId := 1 }

/-- V-CFG-12: the CANDS event precedes the CFG event. -/
theorem test_setrxrate :
    after 0x1200AC44 locked (fun t => (t.cfg.rxRate, t.rx.rxState, t.rx.sampCnt, t.port.evt)) =
      some (44100, .idleInit, 57344,
        [.cands [] [(0, .unknown)],
          .cfg 0x12 ⟨100, 357, 48000, 0x199A, false⟩ ⟨100, 357, 44100, 0x199A, false⟩ 0xC400]) := by decide +kernel

/-- V-CFG-14. -/
theorem test_setamp :
    after 0x13008000 locked (fun t => (t.cfg.txAmp, t.cfg.rxAmp, t.rx.rxState)) = some (0x8000, 0x8000, .idle) ∧
    after 0x13008001 locked (fun t => (t.cfg.txAmp, t.diag.setErrCode, t.port.evt)) =
      some (0x199A, 3, [.seterr 0x13 3]) := by decide +kernel

/-- V-CFG-15. -/
theorem test_settxsym :
    after 0x14000001 locked (fun t => (t.cfg.txMin, t.cfg.rxMin, t.rx.rxState)) = some (1, 100, .idle) ∧
    after 0x15000102 locked (fun t => (t.cfg.txMax, t.cfg.rxMax, t.rx.rxState)) = some (258, 357, .idle) := by
  decide +kernel

/-- V-CFG-16 and V-CFG-17: refused above 0x7FFF, accepted at RXSYM.MAX. -/
theorem test_setrxmin :
    after 0x16008000 State.reset (fun t => (t.diag.setErrCode, t.port.evt)) = some (2, [.seterr 0x16 2]) ∧
    after 0x16000165 locked (fun t => (t.cfg.rxMin, t.frm.cand)) = some (357, []) := by decide +kernel

/-- V-CFG-18's two values: 1365 is received, 1366 is beyond N/2. -/
theorem test_setrxmax :
    after 0x17000555 State.reset (fun t => fatalCode t.params t.cfg) = some 0 ∧
    after 0x17000556 State.reset (fun t => fatalCode t.params t.cfg) = some 2 := by decide +kernel

/-- V-CFG-19. -/
theorem test_setthresh :
    after 0x1800D800 locked (fun t => (t.cfg.thresh, t.rx.rxState, t.diag.status)) = some (0xD800, .idle, 0x04) := by
  decide +kernel

/-- V-CFG-21: in FatalError an Rx-affecting setter does not leave the state. -/
theorem test_setter_in_fatal_error :
    after 0x16000064 { State.reset with rx.rxState := .fatalError, cfg.rxMin := 400 }
      (fun t => (t.rx.rxState, t.cfg.rxMin)) = some (.fatalError, 100) := by decide +kernel

/-- V-CFG-20: RESET keeps the configuration and PBUF and says nothing. -/
theorem test_reset :
    after 0x01000000 { locked with cfg.loop := true, cfg.irqEn := 5, diag.status := 7, tx.txq := [356] }
      (fun t => (t.cfg.loop, t.cfg.irqEn, t.diag.status, t.tx.txq, t.port.evt)) =
      some (true, 5, 0, [], []) := by decide +kernel

/-- V-TX-14. -/
theorem test_ldp :
    after 0x201F00FF State.reset (·.tx.pbuf[31]) = some 0x00FF ∧
    after 0x20000132 State.reset (·.tx.pbuf[0]) = some 0x0132 := by decide +kernel

/-- A payload buffer that starts with five times 0x32. -/
def loaded : State := { State.reset with tx.pbuf := Vector.ofFn fun i => if i.val < 5 then 0x32 else 0 }

/-- V-TX-1 and V-TX-4. -/
theorem test_sendframe :
    after 0x21000005 loaded (fun t => (t.tx.txq, t.diag.status)) =
      some ([356, 357, 329, 150, 150, 150, 150, 150, 323], 0) ∧
    after 0x21000009 loaded (fun t => (t.tx.txq, t.diag.txErrCode, t.port.evt)) = some ([], 1, [.txerr 1]) := by
  decide +kernel

/-- V-TX-6 and V-TX-9: code 3 for a byte without a symbol, code 5 for a queue without room. -/
theorem test_sendframe_codes :
    after 0x21000003 { loaded with cfg.txMax := 300 } (·.diag.txErrCode) = some 3 ∧
    after 0x21000005 { loaded with tx.txq := List.replicate 63 356 }
      (fun t => (t.diag.txErrCode, t.tx.txq.length)) = some (5, 63) := by decide +kernel

/-- V-TX-10 and V-TX-7. -/
theorem test_sendsync :
    after 0x22000000 State.reset (·.tx.txq) = some [356, 357] ∧
    after 0x22000000 { State.reset with cfg.txMax := 100 } (·.diag.txErrCode) = some 4 := by decide +kernel

/-- V-TX-11's first tick and V-TX-12. -/
theorem test_txtick :
    after 0x03000000 { State.reset with tx.txq := [356, 357] }
      (fun t => (t.tx.txq, t.tx.txCur, t.tx.txHold, t.port.tout)) =
      some ([357], 356, 2, [⟨true, 356, 1068, 0x199A, 48000⟩]) ∧
    after 0x03000000 State.reset (fun t => (t.tx.txCur, t.port.tout)) =
      some (0xFFFF, [⟨false, 0xFFFF, 0, 0x199A, 48000⟩]) := by decide +kernel

/-- N = 8, F = 1, Rx window 1 to 3, as in 41_detector.md R143, one silent block on SIN. -/
def tiny : State :=
  { State.afterPor { Params.default with logFftSize := 3, fftFactor := 1 } with
    cfg.rxMin := 1
    cfg.rxMax := 3
    port.sin := [List.replicate 8 0] }

/-- The first line of V-RX-1, on 8 samples: one silent block moves to FirstSyncWait. -/
theorem test_block_silence :
    after 0x02000000 tiny (fun t => (t.rx.rxState, t.rx.lastRaw, t.rx.lastPeak, t.rx.sampCnt)) =
      some (.firstSyncWait, 0xFFFF, 0x8000, 8) := by decide +kernel

/-- P2's second step: the block that finds `RXSYM` = (400, 357) is not processed. -/
theorem test_block_fatal :
    after 0x02000000 { tiny with cfg.rxMin := 400, diag.status := 0x04 }
      (fun t => (t.rx.rxState, t.diag.fatalCode, t.diag.status, t.port.evt, t.rx.sampCnt)) =
      some (.fatalError, 1, 0x14, [.fatal 1], 0) := by decide +kernel

/-- The tone block of 41_detector.md R143. -/
theorem test_tone_block :
    (toneBlock 3 16384 1).map BitVec.toInt = [0, 11585, 16384, 11585, 0, -11585, -16384, -11585] := by decide +kernel

/-- FirstSyncWait with five of the six entries of a preamble in the history (block 5 comes next). -/
def waiting : State :=
  { pushAll [356, 356, 356, 357, 357] State.reset with rx.rxState := .firstSyncWait, rx.sampCnt := 40960 }

/-- V-RX-2's block 5. -/
theorem test_first_sync :
    let t := processVerdict 357 0 waiting
    (t.rx.rxState, t.rx.nextSp, t.rx.syncValid, t.rx.nextSyncId, t.port.evt) =
      (.firstSync, 57344, true, 1, [.cands [candidate0] []]) := by decide +kernel

/-- P1's block 7: the header 0xE5 is forwarded. -/
theorem test_sampling_point :
    let t := processVerdict 329 0 locked
    (t.rx.rxState, t.rx.nextSp, t.rx.guardLeft, t.frm.cand.map (·.received), t.frm.cand.map (·.expected)) =
      (.symbol, 81920, 1, [[0xE5]], [some 7]) := by decide +kernel

/-- 60_exceptions.md R276 (d). -/
theorem test_sync_lost :
    let t := processVerdict 0xFFFF 0 locked
    (t.rx.rxState, t.diag.errCode, t.diag.errCount, t.port.evt) =
      (.error, 1, 1, [.cands [] [(0, .unknown)]]) := by decide +kernel

/-- V-FRM-4: the last byte of a command frame. -/
theorem test_frame_emitted :
    let x : Candidate :=
      { candidate0 with received := [0xF3, 0x41, 0x42, 0x43], symbolId := [7, 10, 13, 16], expected := some 5 }
    let k := frmOnByte 0xB9 19 (.start { locked with frm.cand := [x] })
    (k.s.frm.cand, k.resolved, k.s.port.evt) =
      ([], [(0, .valid)], [.frame ⟨0, 0xF3, [0x41, 0x42, 0x43], 0xB9, true, 0⟩]) := by decide +kernel

/-- V-TRK-10. -/
theorem test_drift :
    drift 90112 { State.reset with rx.nextSp := 106496 } = 0 ∧
    drift 81920 { State.reset with rx.nextSp := 106496 } = 8192 := by decide +kernel

/-- V-EXC-1's register reads. -/
theorem test_registers :
    [0x000, 0x004, 0x038, 0x028, 0x02C, 0x030, 0x0A0, 0x001].map (regRead State.reset) =
      [0x414E5344, 1, 0x0000C400, 0x01650064, 0x01650064, 0x199A199A, 0, 0] := by decide +kernel

/-- V-MAP-2 to V-MAP-4. -/
theorem test_frequency :
    symbolToFrequency Params.default 48000 150 = 2636.71875 ∧ frequencyToSymbol Params.default 48000 (2636.71875 : Rat) = 150 ∧
    frequencyToSymbol Params.default 48000 (2640 : Rat) = 150 ∧
    frequencyToSymbol Params.default 48000 (2645.5078125 : Rat) = 151 := by decide +kernel

/-- 30_encoding.md R94: the written form of two commands. -/
theorem test_script_line :
    scriptLine (.ldp 3 0x132) = "LDP 3, 306" ∧ scriptLine (.setthresh 0xD800) = "SETTHRESH -10240" := by decide +kernel

/-! ### Witnesses: states and operands that meet the hypotheses of each obligation that has any -/

/-- A state in which `o` completes. -/
def Completes (o : Host.Outcome State Fault Refusal) : Prop := ∃ t, o = .next t

/-- Whether an outcome is a next state. -/
def isNext : Host.Outcome State Fault Refusal → Bool
  | .next _ => true
  | _ => false

theorem completes {o : Host.Outcome State Fault Refusal} (h : isNext o = true) : Completes o := by
  cases o with
  | next t => exact ⟨t, rfl⟩
  | fault f => cases h
  | refused r => cases h

/-- Two commands, one after the other, both complete. -/
theorem completes_both {o : Host.Outcome State Fault Refusal} {f : State → Host.Outcome State Fault Refusal}
    (h : (match o with | .next t => isNext (f t) | _ => false) = true) : ∃ t, o = .next t ∧ Completes (f t) := by
  cases o with
  | next t => exact ⟨t, rfl, completes h⟩
  | fault e => cases h
  | refused r => cases h

theorem witness_DecodeAndEncodeAreInverse :
    (Instr.ldp 31 0xFFFF).WellFormed ∧ decode 0x201FFFFF = some (.ldp 31 0xFFFF) ∧
    decode 0x11FFFFFF = some (.settxrate 0xFFFFFF) := by decide

/-- One word of each reserved range, at its boundary. -/
theorem witness_ReservedWordIsRejected :
    ([0x06000000, 0x0FFFFFFF, 0x19000000, 0x1FFFFFFF, 0x23000000, 0xFFFFFFFF, 0x02000001, 0x10000002, 0x18010000,
      0x21000200, 0x20200000] : List Word32).all (fun w => (decode w).isNone) = true ∧
    { State.reset with port.pending := [.word 0x20200000] }.port.pending = .word 0x20200000 :: [] := by decide

theorem witness_BytesAreLittleEndian :
    ([1, 2, 3] : List Byte).length ≠ 4 ∧ ([1, 2, 3, 4, 5] : List Byte).length ≠ 4 ∧ 3 < 4 := by decide

theorem witness_StepRunsTheDecodedCommand :
    State.reset.port.pending = [] ∧ decode 0x04000003 = some (.ack 3) ∧
    { State.reset with port.pending := [.word 0x04000003, .por] }.port.pending = .word 0x04000003 :: [.por] ∧
    (Instr.ldp 31 7).WellFormed ∧ Instr.ldp 31 7 ≠ .block := by decide

theorem witness_PowerOnResetValues :
    { locked with port.pending := [.por, .word 0] }.port.pending = .por :: [.word 0] ∧
    { locked with port.pending := [.por] }.port.pending = [.por] ∧ locked.port.sin = [] ∧
    locked.params = Params.default := by decide

theorem witness_AckClearsTheNamedFlags :
    Completes (exec (.ack 0xFF80) locked) ∧
    { locked with diag.status := 0x03, port.pending := [.word 0x04000001] }.port.pending = .word 0x04000001 :: [] ∧
    { locked with diag.status := 0x03 }.diag.status = 0x03 := ⟨completes (by decide +kernel), rfl, rfl⟩

theorem witness_IrqenWritesTheMask :
    State.reset.cfg.irqEn = 0 ∧
    { locked with port.pending := [.word 0x05000011] }.port.pending = .word 0x05000011 :: [] := by decide

/-- A legal and a fatal configuration; one silent block waits on SIN. -/
theorem witness_ResetReinitialises :
    (∃ t, exec .reset tiny = .next t ∧ Completes (exec .block t)) ∧ fatalCode tiny.params tiny.cfg = 0 ∧
    (∃ t, exec .reset { tiny with cfg.rxMin := 3 } = .next t ∧ Completes (exec .block t)) ∧
    fatalCode tiny.params { tiny.cfg with rxMin := 3 } ≠ 0 ∧
    { locked with port.pending := [.word 0x01000000] }.port.pending = .word 0x01000000 :: [] :=
  ⟨completes_both (by decide +kernel), by decide, completes_both (by decide +kernel), by decide, rfl⟩

theorem witness_SetampWritesBothAmplitudes : { locked with cfg.txAmp := 0 }.cfg.txAmp = 0 := rfl

theorem witness_SetthreshIsAlwaysAccepted : { locked with cfg.thresh := 0x8000 }.cfg.thresh = 0x8000 := rfl

/-- The smallest fatal values of RXSYM.MIN and of RXSYM.MAX on the small instance. -/
theorem witness_RxSettersClearOnChange :
    ((3 : BitVec 16).toNat ≤ 0x7FFF ∧ tiny.cfg.rxMax.toNat ≤ (3 : BitVec 16).toNat ∧ tiny.rx.rxState ≠ .fatalError ∧
      ∃ t, exec (.setrxmin 3) tiny = .next t ∧ Completes (exec .block t)) ∧
    ((4 : BitVec 16).toNat ≤ 0x7FFF ∧ tiny.cfg.rxMin.toNat < (4 : BitVec 16).toNat ∧
      tiny.params.fftSize / 2 ≤ tiny.params.fftFactor * (4 : BitVec 16).toNat ∧
      ∃ t, exec (.setrxmax 4) tiny = .next t ∧ Completes (exec .block t)) :=
  ⟨⟨by decide, by decide, by decide, completes_both (by decide +kernel)⟩, by decide, by decide, by decide,
    completes_both (by decide +kernel)⟩

/-- Entry 7 read by len = 8 holds 256; entry 8 is not read by it. -/
theorem witness_LdpWritesOneEntry :
    ((7 : BitVec 8).toNat < 32 ∧ (7 : BitVec 8).toNat < (8 : BitVec 8).toNat ∧
      (8 : BitVec 8).toNat ≤ State.reset.params.payloadMax ∧ 255 < (256 : BitVec 16).toNat ∧
      Completes (exec (.ldp 7 256) State.reset)) ∧
    ((31 : BitVec 8).toNat < 32 ∧ (8 : BitVec 8).toNat ≤ (8 : BitVec 8).toNat ∧
      Completes (exec (.ldp 8 256) State.reset) ∧ Completes (exec (.sendframe 8 true) State.reset)) ∧
    (∀ idx val, Instr.sendsync ≠ .ldp idx val) :=
  ⟨⟨by decide, by decide, by decide, by decide, completes (by decide +kernel)⟩,
    ⟨by decide, by decide, completes (by decide +kernel), completes (by decide +kernel)⟩, by simp⟩

theorem witness_EncodedFrameBytes : (List.replicate 15 (0xFF : Byte)).length ≤ 15 := by decide

theorem witness_TxtickDrivesOneDescriptor :
    (State.reset.tx.txHold = 0 ∧ { State.reset with tx.txq := [356, 357] }.tx.txq = 356 :: [357]) ∧
    (State.reset.tx.txHold = 0 ∧ State.reset.tx.txq = []) ∧ { State.reset with tx.txHold := 1 }.tx.txHold ≠ 0 ∧
    ((357 : Sys2Proof.Symbol) ≠ 0xFFFF ∧ State.reset.params.logFftSize ≤ 16 ∧
      State.reset.params.fftFactor * (1365 : Sys2Proof.Symbol).toNat < State.reset.params.fftSize / 2) := by decide

theorem witness_QueueIsPlayedWithoutGaps :
    (1 ≤ { Params.default with periodBlocks := 1 }.periodBlocks) ∧
    { Params.default with periodBlocks := 255 }.periodBlocks < 256 := by decide

theorem witness_DetectorVerdict :
    ConfigRegs.por.rxMin.toNat < ConfigRegs.por.rxMax.toNat ∧
    { ConfigRegs.por with rxMin := 356 }.rxMin.toNat < ConfigRegs.por.rxMax.toNat := by decide

theorem witness_SilenceVerdict : isSilent (silentBlock 3) = true := by decide

/-- The default threshold is below the bound of the default amplitude (45_tx_sequencer.md R248). -/
theorem default_threshold_reached : AtMostToneBound 6554 (-15360) := by
  rw [AtMostToneBound, Int.le_floor]
  have h : (-3 : ℝ) ≤ Real.logb 10 (((6554 : ℕ) - 1 : ℝ) / 32768) := by
    rw [Real.le_logb_iff_rpow_le (by norm_num) (by norm_num)]
    rw [show (-3 : ℝ) = ((-3 : ℤ) : ℝ) by norm_num, Real.rpow_intCast]
    norm_num
  push_cast
  linarith

/-- The default state in loopback: t at both ends of the window. -/
theorem witness_LoopbackVerdict :
    let s : State := { State.reset with cfg.loop := true }
    (3 ≤ s.params.logFftSize ∧ s.params.logFftSize ≤ 16 ∧ 1 ≤ s.params.fftFactor ∧ 3 ≤ s.cfg.txAmp.toNat ∧
      s.cfg.txAmp.toNat ≤ 0x8000 ∧ s.params.fftFactor * s.cfg.rxMax.toNat < s.params.fftSize / 2) ∧
    AtMostToneBound s.cfg.txAmp.toNat s.cfg.thresh.toInt ∧
    (let ok := fun t : Sys2Proof.Symbol => 0 < t.toNat ∧ s.cfg.rxMin.toNat ≤ t.toNat ∧ t.toNat ≤ s.cfg.rxMax.toNat
     ok 100 ∧ ok 357) ∧
    s.cfg.thresh ≠ 0x8000 :=
  ⟨by decide +kernel, default_threshold_reached, by decide +kernel, by decide +kernel⟩

theorem ring_reset : RingShape State.reset := ⟨by decide, by decide, by decide, by decide⟩

theorem witness_HistoryKeepsTheNewest :
    RingShape State.reset ∧ State.reset.params.rawSymbolMax ≤ (List.replicate 10 (5 : Sys2Proof.Symbol)).length :=
  ⟨ring_reset, by decide⟩

/-- One history for each clause: matched, too short a run, a longer A run, a longer B run, after a match, NO_SYMBOL. -/
theorem witness_SyncMustPersist :
    let a := syncA 357
    let b := syncB 357
    let h := fun rs => histAll (pushAll rs State.reset)
    RingShape (pushAll [a, a, a, b, b, b] State.reset) ∧ 3 ≤ Params.default.periodBlocks ∧
    h [a, a, a, b, b, b] = [] ++ List.replicate 3 a ++ List.replicate 3 b ∧
    h [9, a, a, b, b, b] = [9] ++ [a, a, b, b, b] ∧ h [a, a, b, b, b] = [] ++ [a, a, b, b, b] ∧
    h [a, a, a, a, b, b, b] = [] ++ List.replicate 4 a ++ List.replicate 3 b ∧
    h [a, a, a, b, b, b, b] = [a, a, a] ++ List.replicate 4 b ∧
    syncNow (pushAll [a, a, a, b, b, b] State.reset) = true ∧ [a, a, a, b, b] ≠ [] ∧
    [a, a, a, b, b].length < 2 * Params.default.periodBlocks ∧
    h [0xFFFF, a, a, b, b, b] = [] ++ [0xFFFF] ++ [a, a, b, b, b] :=
  ⟨⟨by decide, by decide, by decide, by decide⟩, by decide, by decide, by decide, by decide, by decide, by decide,
    by decide, by decide, by decide, by decide⟩

/-- On the grid, a period after NEXTSP; and off it by one block. -/
theorem witness_DriftIsCircularDistance :
    (locked.params.logFftSize ≤ 16 ∧ locked.params.fftSize ∣ (57344 : SampleCount).toNat ∧
      locked.params.fftSize ∣ locked.rx.nextSp.toNat) ∧
    (1 ≤ locked.params.periodBlocks ∧ 1 * (locked.params.periodBlocks * locked.params.fftSize) < 2 ^ 64 ∧
      (65536 : SampleCount) + BitVec.ofNat 64 (locked.params.offsetBlocks * locked.params.fftSize) =
        locked.rx.nextSp + BitVec.ofNat 64 (1 * (locked.params.periodBlocks * locked.params.fftSize))) ∧
    (locked.params.fftSize ∣ (49152 : SampleCount).toNat ∧ drift 49152 locked ≠ 0) := by decide +kernel

theorem witness_BlockSelectsItsInput :
    tiny.cfg.loop = false ∧ tiny.port.sin = List.replicate 8 0 :: [] ∧
    (List.replicate 8 (0 : Sample)).length = tiny.params.fftSize ∧ { tiny with cfg.loop := true }.cfg.loop = true := by
  decide

theorem witness_BlockNeedsExactlyNSamples :
    tiny.cfg.loop = false ∧
    (∀ X, { tiny with port.sin := [] }.port.sin.head? = some X → X.length ≠ tiny.params.fftSize) ∧
    (∀ X, { tiny with port.sin := [List.replicate 7 0] }.port.sin.head? = some X → X.length ≠ tiny.params.fftSize) := by
  refine ⟨rfl, by simp, ?_⟩
  intro X h
  obtain rfl : List.replicate 7 0 = X := Option.some.inj h
  decide

theorem witness_FatalErrorIgnoresBlocks :
    let s : State := { tiny with rx.rxState := .fatalError }
    s.rx.rxState = .fatalError ∧ s.cfg.loop = false ∧ s.port.sin = List.replicate 8 0 :: [] ∧
    (List.replicate 8 (0 : Sample)).length = s.params.fftSize ∧ { s with cfg.loop := true }.cfg.loop = true ∧
    Instr.setloop true ≠ .reset ∧ Completes (exec (.setloop true) s) :=
  ⟨rfl, rfl, rfl, by decide, rfl, by decide, completes (by decide +kernel)⟩

/-- One configuration for each code. -/
theorem witness_FatalConfigurationIsEntered :
    tiny.rx.rxState ≠ .fatalError ∧ fatalCode tiny.params { tiny.cfg with rxMin := 3 } = 1 ∧
    fatalCode tiny.params { tiny.cfg with rxMax := 4 } = 2 ∧
    fatalCode { tiny.params with periodBlocks := 2 } tiny.cfg = 3 ∧ tiny.cfg.loop = false ∧
    tiny.port.sin = List.replicate 8 0 :: [] ∧ (List.replicate 8 (0 : Sample)).length = tiny.params.fftSize := by
  decide

theorem witness_BlockIsProcessed :
    tiny.cfg.loop = false ∧ tiny.port.sin = List.replicate 8 0 :: [] ∧
    (List.replicate 8 (0 : Sample)).length = tiny.params.fftSize ∧ tiny.rx.rxState ≠ .fatalError ∧
    fatalCode tiny.params tiny.cfg = 0 ∧ { tiny with cfg.loop := true }.cfg.loop = true := by decide

theorem witness_TransitionTable :
    { locked with rx.rxState := .fatalError }.rx.rxState = .fatalError ∧ locked.rx.rxState ≠ .fatalError := by decide

/-- One state for each kind of quiet block. -/
theorem witness_QuietBlocksOnlyBook :
    State.reset.rx.rxState = .idleInit ∧ { locked with rx.rxState := .error }.rx.rxState = .error ∧
    (waiting.rx.rxState = .firstSyncWait ∧ syncNow (histPush 100 waiting) = false) ∧
    ({ locked with rx.rxState := .firstSync }.rx.clockValid = true) ∧
    (locked.rx.rxState = .idle ∧ syncNow (histPush 100 locked) = false ∧
      { locked with rx.sampCnt := 49152 }.rx.sampCnt ≠ locked.rx.nextSp) ∧
    ({ locked with rx.rxState := .guard }.rx.rxState = .guard ∧ locked.rx.guardLeft = 0) ∧
    ({ locked with rx.rxState := .symbol, rx.guardLeft := 1 }.rx.rxState = .symbol ∧
      { locked with rx.guardLeft := 1 }.rx.guardLeft ≠ 0) := by decide

theorem witness_FirstSyncAcquires :
    waiting.rx.rxState = .firstSyncWait ∧ syncNow (histPush 357 waiting) = true := by decide

/-- In Idle with a preamble about to complete: on the running grid, and one block off it. -/
def midstream : State :=
  { pushAll [356, 356, 356, 357, 357] State.reset with
    rx.rxState := .idle
    rx.clockValid := true
    rx.sampCnt := 90112
    rx.nextSp := 106496 }

theorem witness_MidstreamSync :
    midstream.rx.rxState = .idle ∧ midstream.rx.clockValid = true ∧ syncNow (histPush 357 midstream) = true ∧
    drift midstream.rx.sampCnt midstream ≤ midstream.params.driftTolerance ∧
    (let off : State := { midstream with rx.sampCnt := 98304 }
     off.params.driftTolerance < drift off.rx.sampCnt off ∧ 1 ≤ off.params.maxCandidates) := by decide +kernel

/-- The lowest and the highest byte, a sync symbol, and NO_SYMBOL with no candidate. -/
theorem witness_SamplingPointForwardsTheSymbol :
    (locked.rx.rxState = .idle ∧ locked.rx.clockValid = true ∧ locked.rx.sampCnt = locked.rx.nextSp) ∧
    (let ok := fun r : Sys2Proof.Symbol => syncNow (histPush r locked) = false ∧ r ≠ 0xFFFF ∧
       r.toNat + 1 < locked.cfg.rxMax.toNat ∧ locked.cfg.rxMin.toNat ≤ r.toNat ∧ r.toNat ≤ locked.cfg.rxMin.toNat + 255
     ok 100 ∧ ok 355) ∧
    (syncNow (histPush 356 locked) = false ∧ (356 : Sys2Proof.Symbol) ≠ 0xFFFF ∧
      locked.cfg.rxMax.toNat ≤ (356 : Sys2Proof.Symbol).toNat + 1) ∧
    (syncNow (histPush 0xFFFF locked) = false ∧ { locked with frm.cand := [] }.frm.cand = []) := by decide +kernel

/-- One block for each code; for code 2 the alphabet reaches to 400. -/
theorem witness_ErrorEntry :
    (locked.rx.rxState.clocked = true ∧ { locked with rx.clockValid := false }.rx.clockValid = false) ∧
    (locked.rx.rxState = .idle ∧ locked.rx.clockValid = true ∧ syncNow (histPush 0xFFFF locked) = false ∧
      locked.rx.sampCnt = locked.rx.nextSp ∧ locked.frm.cand ≠ []) ∧
    (let wide : State := { locked with cfg.rxMax := 400 }
     syncNow (histPush 356 wide) = false ∧ (356 : Sys2Proof.Symbol) ≠ 0xFFFF ∧
      (356 : Sys2Proof.Symbol).toNat + 1 < wide.cfg.rxMax.toNat ∧
      wide.cfg.rxMin.toNat + 255 < (356 : Sys2Proof.Symbol).toNat) := by decide

theorem witness_SilenceNeverAcquires :
    RingShape tiny ∧ tiny.rx.rxState = .idleInit ∧ { tiny with rx.rxState := .firstSyncWait }.rx.rxState = .firstSyncWait ∧
    fatalCode tiny.params tiny.cfg = 0 ∧ tiny.cfg.loop = false ∧ tiny.cfg.thresh ≠ 0x8000 ∧
    tiny.port.sin = List.replicate (0 + 1) (silentBlock tiny.params.logFftSize) ++ [] :=
  ⟨⟨by decide, by decide, by decide, by decide⟩, rfl, rfl, by decide, rfl, by decide, by decide⟩

/-- L = 9 refused and L = 8 accepted under PAYLOAD_MAX = 8; one byte short of the last, and the last. -/
theorem witness_ByteToOneCandidate :
    (let x : Candidate := { candidate0 with received := [0xE1, 7, 0xE8], expected := some 3 }
     [(7 : Byte)].length ≤ 15 ∧ x.received = [0xE1] ++ [7] ++ [0xE8] ∧
      x.expected = some (BitVec.ofNat 8 ([(7 : Byte)].length + 2))) ∧
    (candidate0.received = [] ∧ 8 < headerLength 0xE9 ∧ headerLength 0xE8 ≤ 8) ∧
    (let x : Candidate := { candidate0 with received := [0xE1], expected := some 3 }
     x.received ≠ [] ∧ x.expected = some 3 ∧ x.received.length + 1 ≠ (3 : BitVec 8).toNat) ∧
    (let x : Candidate := { candidate0 with received := [0xE1, 7], expected := some 3 }
     x.received ≠ [] ∧ x.expected = some 3 ∧ x.received.length + 1 = (3 : BitVec 8).toNat) := by decide

theorem witness_ByteToTheTable :
    (Work.start State.reset).s.frm.cand = [] ∧ (Work.start locked).s.frm.cand ≠ [] := by decide

theorem witness_SyncOpensACandidate :
    (Work.start locked).s.frm.cand.length ≠ locked.params.maxCandidates ∧
    { locked with frm.cand := List.replicate 8 candidate0 }.frm.cand = candidate0 :: List.replicate 7 candidate0 ∧
    (List.replicate 8 candidate0).length = locked.params.maxCandidates := by decide

/-- The longest payload of the default instance, and the default alphabet, the narrowest that carries every byte. -/
theorem witness_FrameRoundTrip :
    ConfigRegs.por.txMin.toNat + 257 ≤ ConfigRegs.por.txMax.toNat ∧ waiting.params.payloadMax ≤ 15 ∧
    (List.replicate 8 (0xFF : Byte)).length ≤ waiting.params.payloadMax ∧ waiting.frm.cand = [] ∧
    (List.replicate 10 (7 : Sys2Proof.Id)).length = (List.replicate 8 (0xFF : Byte)).length + 2 := by decide

/-- The lowest bit the rule covers in the header, and the highest of the checksum. -/
theorem witness_FlippedBitIsDetected :
    waiting.params.payloadMax ≤ 15 ∧ ([0x32] : List Byte).length ≤ waiting.params.payloadMax ∧ waiting.frm.cand = [] ∧
    ([7, 10, 13] : List Sys2Proof.Id).length = ([0x32] : List Byte).length + 2 ∧
    (0 < ([0x32] : List Byte).length + 2 ∧ 4 < 8 ∧ (0 = 0 → 4 ≤ 4)) ∧
    (2 < ([0x32] : List Byte).length + 2 ∧ 7 < 8 ∧ (2 = 0 → 4 ≤ 7)) := by decide

theorem default_consistent : Params.default.Consistent where
  logFftSize_ge := by decide
  logFftSize_le := by decide
  fftFactor_pos := by decide
  rawSymbolMax_pos := by decide
  driftTolerance_lt := by decide
  payloadMax_le := by decide
  maxCandidates_pos := by decide
  txqDepth_ge := by decide
  sampleRateMin_lt := by decide
  sampleRateMax_lt := by decide
  periodBlocks_lt := by decide
  guardBlocks_lt := by decide
  resetRate_ge := by decide
  resetRate_le := by decide

/-- The default state in loopback with five times 0x32 in the buffer: P1's start. -/
theorem witness_LoopbackDeliversEveryPayload :
    let s : State := { loaded with cfg.loop := true, cfg.rxLoop := true }
    let payload : List Byte := [0x32, 0x32, 0x32, 0x32, 0x32]
    s.params.Consistent ∧ RingShape s ∧ fatalCode s.params s.cfg = 0 ∧ payload.length ≤ s.params.payloadMax ∧
    payload.length + 4 ≤ s.params.txqDepth ∧
    (∀ (i : Nat) (b : Byte), payload[i]? = some b → s.tx.pbuf[i]? = some (b.setWidth 16)) ∧
    (s.cfg.loop = true ∧ s.cfg.txMin = s.cfg.rxMin ∧ s.cfg.txMax = s.cfg.rxMax ∧ 0 < s.cfg.rxMin.toNat ∧
      s.cfg.rxMin.toNat + 257 ≤ s.cfg.rxMax.toNat ∧ 3 ≤ s.cfg.txAmp.toNat ∧ s.cfg.txAmp.toNat ≤ 0x8000) ∧
    AtMostToneBound s.cfg.txAmp.toNat s.cfg.thresh.toInt ∧
    (s.rx.rxState = .idleInit ∧ s.frm.cand = [] ∧ s.tx.txq = [] ∧ s.tx.txHold = 0) ∧
    Completes (exec (.sendframe (BitVec.ofNat 8 payload.length) false) s) := by
  refine ⟨default_consistent, ⟨by decide, by decide, by decide, by decide⟩, by decide, by decide, by decide, ?_,
    by decide, default_threshold_reached, by decide, completes (by decide +kernel)⟩
  intro i b h
  rcases i with _ | _ | _ | _ | _ | i <;> simp at h <;> subst h <;> rfl

/-- A state with a clock, a candidate in mid-frame, a queue and an emitted Frame, that the invariants hold of; the
command that waits is a BLOCK. -/
def busy : State :=
  { locked with
    rx.sampCnt := 49152
    frm.cand := [{ candidate0 with received := [0xE5], expected := some 7, symbolId := [3] }]
    frm.lastFrame := ⟨0, 0xE0, [], 0xE0, false, 0⟩
    frm.lastFrameValid := true
    tx.txq := [356, 357]
    tx.txCur := 150
    tx.txHold := 2
    diag.errCode := 3
    port.pending := [.word 0x04000001]
    port.evt := [.frame ⟨0, 0xE0, [], 0xE0, false, 0⟩] }

theorem busy_framer : FramerInv busy := by
  refine ⟨by decide, by decide, ?_⟩
  intro x hx
  obtain rfl : x = { candidate0 with received := [0xE5], expected := some 7, symbolId := [3] } := by
    simpa [busy] using hx
  refine ⟨rfl, rfl, by simp, ?_⟩
  intro h rest e
  obtain ⟨rfl, rfl⟩ : 0xE5 = h ∧ [] = rest := by simpa using e
  decide

theorem busy_frames : FramesInv busy := by
  have h : (⟨0, 0xE0, [], 0xE0, false, 0⟩ : Frame).Sound busy.params :=
    ⟨by decide, by decide, by decide, by decide⟩
  refine ⟨?_, fun _ => h⟩
  intro f hf
  obtain rfl : f = ⟨0, 0xE0, [], 0xE0, false, 0⟩ := by simpa [busy] using hf
  exact h

theorem witness_RegistersStayInRange :
    busy.params.Consistent ∧ ConfigInv busy ∧ DiagnosticsInv busy ∧ Completes (step busy) :=
  ⟨default_consistent, ⟨by decide, by decide, by decide, by decide, by decide, by decide, by decide⟩,
    ⟨by decide, by decide, by decide, by decide, by decide⟩, completes (by decide +kernel)⟩

theorem witness_HistoryInvariantKept : HistoryInv busy ∧ Completes (step busy) := by
  refine ⟨⟨⟨by decide, by decide, by decide, by decide⟩, ?_, Or.inr rfl⟩, completes (by decide +kernel)⟩
  intro r hr
  exact Or.inr (List.eq_of_mem_replicate hr)

theorem witness_ClockInvariantKept :
    busy.params.Consistent ∧ ClockInv busy ∧ busy.rx.clockValid = true ∧ Completes (step busy) := by
  refine ⟨default_consistent, ⟨rfl, rfl, by decide, ?_⟩, rfl, completes (by decide +kernel)⟩
  exact fun _ => ⟨1, show 1 + 2 ≤ 3 by decide, by decide +kernel⟩

theorem witness_CandidateTableInvariantKept :
    busy.params.Legal ∧ FramerInv busy ∧ Completes (step busy) :=
  ⟨default_consistent.toLegal, busy_framer, completes (by decide +kernel)⟩

theorem witness_EmittedFramesAreSound : FramerInv busy ∧ FramesInv busy ∧ Completes (step busy) :=
  ⟨busy_framer, busy_frames, completes (by decide +kernel)⟩

theorem witness_TransmitInvariantKept : TransmitInv busy ∧ Completes (step busy) := by
  refine ⟨⟨by decide, by decide, by simp [busy], Or.inl (by decide +kernel), by decide⟩, completes (by decide +kernel)⟩

theorem witness_InvariantsHoldAfterReset : Params.default.Consistent := default_consistent

theorem witness_EveryFlagHasItsEvent :
    (Completes (exec (.setamp 0) busy) ∧ (∀ imm, Instr.setamp 0 ≠ .ack imm) ∧ Instr.setamp 0 ≠ .reset) ∧
    Completes (exec .reset busy) := 
  ⟨⟨completes (by decide +kernel), by simp, by simp⟩, completes (by decide +kernel)⟩

theorem witness_OnlySettersWriteConfiguration :
    Completes (step busy) ∧ Completes (exec .txtick busy) ∧ (∀ imm, Instr.setamp 0 ≠ .irqen imm) :=
  ⟨completes (by decide +kernel), completes (by decide +kernel), by simp⟩

theorem witness_PathsShareNoState :
    Completes (exec (.sendframe 3 true) busy) ∧ Completes (exec .block tiny) ∧
    Completes (exec .block { tiny with cfg.loop := true }) := 
  ⟨completes (by decide +kernel), completes (by decide +kernel), completes (by decide +kernel)⟩

theorem witness_BlockIgnoresRatesAndFlags : Completes (exec .block tiny) := completes (by decide +kernel)

theorem witness_SampleCounterOnlyCountsBlocks :
    Completes (exec .reset busy) ∧ Completes (exec .block tiny) ∧
    Completes (exec .block { tiny with rx.rxState := .fatalError }) := 
  ⟨completes (by decide +kernel), completes (by decide +kernel), completes (by decide +kernel)⟩

/-- An instance with a long history (its entry 160 is at 0x380, which no other row lists; its entry 64 is at PBUFWIN's
first word), one candidate in flight. -/
def longHistory : State :=
  { State.afterPor { Params.default with rawSymbolMax := 200 } with
    rx.hist := (List.range 200).map (BitVec.ofNat 16)
    rx.histCnt := 200
    tx.pbuf := Vector.replicate 32 7
    frm.cand := [candidate0] }

/-- 10_state.md R47's rows HISTWIN[63], HISTWIN[160] and HISTWIN[191]; log 10's choice at PBUFWIN[0]. -/
theorem test_long_history :
    [0x1FC, 0x380, 0x3FC, 0x200, 0x41C].map (fun off => (regRead longHistory off).toNat) = [63, 160, 191, 7, 199] := by
  decide +kernel

/-- Misaligned, above the window, listed by no row; the first and the last entry HISTWIN has to itself; the last
word of each window; an empty slot and a full one. -/
theorem witness_RegisterWindowReads :
    (0x041 % 4 ≠ 0 ∧ 0xBFC < 0xC00) ∧
    (listedBesideHistory Params.default 0x084 = true ∧ listedBesideHistory Params.default 0x088 = false ∧
      listedBesideHistory Params.default 0x380 = false ∧ 0x100 + 4 * Params.default.rawSymbolMax ≤ 0x380 ∧
      listedBesideHistory Params.default 0xBE4 = false ∧ listedBesideHistory Params.default 0xBE0 = true) ∧
    (160 < longHistory.params.rawSymbolMax ∧ listedBesideHistory longHistory.params (0x100 + 4 * 160) = false ∧
      191 < longHistory.params.rawSymbolMax ∧ listedBesideHistory longHistory.params (0x100 + 4 * 191) = false) ∧
    (7 < longHistory.params.maxCandidates ∧ longHistory.frm.cand.length ≤ 7 ∧ 0x60 < 0x64 ∧ 0x60 % 4 = 0) ∧
    longHistory.frm.cand[0]? = some candidate0 := by decide +kernel

theorem witness_FrequencyMappingInverts :
    1 ≤ Params.default.fftFactor ∧ (0 : ℝ) ≤ 2640 ∧ byteEncodable 100 357 0xFF = true ∧
    byteEncodable 100 357 0 = true := ⟨by decide, by norm_num, by decide, by decide⟩

end Sys2Proof.Tests
end

section
/-!
SUPPORT. The decoder and the encoder by halves and by formats (30_encoding.md R81 to R86, R89 to R92): a field cut out
of a word as a bit vector and as a number, and for each format the operands it accepts and the operands it refuses.
-/

namespace Sys2Proof

/-! ### Fields -/

/-- A bit vector is an append exactly when its two fields are the two parts. -/
theorem eq_append_iff {n m : Nat} {x : BitVec (n + m)} {hi : BitVec n} {lo : BitVec m} :
    x = hi ++ lo ↔ x.extractLsb' m n = hi ∧ x.extractLsb' 0 m = lo := by
  constructor
  · rintro rfl
    exact ⟨BitVec.extractLsb'_append_eq_left, BitVec.extractLsb'_append_eq_right⟩
  · rintro ⟨rfl, rfl⟩
    exact BitVec.extractLsb'_append_extractLsb'.symm

/-- A field of a field is a field. -/
theorem extractLsb'_extractLsb' {w start len t k : Nat} (x : BitVec w) (h : t + k ≤ len) :
    (x.extractLsb' start len).extractLsb' t k = x.extractLsb' (start + t) k := by
  ext i hi
  simp [Nat.add_assoc, show t + i < len by omega]

/-- A bit vector is an append of three parts exactly when its three fields are those parts. -/
theorem eq_append_append_iff {n m k : Nat} {x : BitVec (n + m + k)} {hi : BitVec n} {mid : BitVec m}
    {lo : BitVec k} :
    x = hi ++ mid ++ lo ↔ x.extractLsb' (k + m) n = hi ∧ x.extractLsb' k m = mid ∧ x.extractLsb' 0 k = lo := by
  rw [eq_append_iff, eq_append_iff, extractLsb'_extractLsb' x (Nat.add_comm m n).le,
    extractLsb'_extractLsb' x (by omega), Nat.add_zero, and_assoc]

/-- The field above the lowest `m` bits, as a number. -/
theorem toNat_highField (n m : Nat) (x : BitVec (n + m)) : (x.extractLsb' m n).toNat = x.toNat / 2 ^ m := by
  rw [BitVec.extractLsb'_toNat, Nat.shiftRight_eq_div_pow]
  exact Nat.mod_eq_of_lt (Nat.div_lt_of_lt_mul (by rw [← pow_add, Nat.add_comm m n]; exact x.isLt))

/-- The field above the lowest `m` bits is zero exactly when the number it stands for is. -/
theorem highField_eq_zero_iff (n m : Nat) (x : BitVec (n + m)) : x.extractLsb' m n = 0 ↔ x.toNat / 2 ^ m = 0 := by
  rw [← toNat_highField, ← BitVec.toNat_inj, BitVec.ofNat_eq_ofNat, BitVec.toNat_zero]

theorem toNat_opField (w : Word32) : (opField w).toNat = w.toNat / 2 ^ 24 := toNat_highField 8 24 w

theorem toNat_operandField (w : Word32) : (operandField w).toNat = w.toNat % 2 ^ 24 := by
  rw [operandField, BitVec.extractLsb'_toNat, Nat.shiftRight_zero]

/-- A field of one bit is that bit. -/
theorem extractLsb'_one_eq_ofBool {n : Nat} (x : BitVec n) (k : Nat) :
    x.extractLsb' k 1 = BitVec.ofBool (x.getLsbD k) := by
  ext i hi
  obtain rfl : i = 0 := by omega
  simp

/-! ### What each format accepts -/

section Formats

variable {x : BitVec 24} {i : Instr}

theorem decodeZ_eq_some {j : Instr} : decodeZ j x = some i ↔ x = 0 ∧ j = i := by
  simp [decodeZ]

theorem decodeB_eq_some {f : Bool → Instr} :
    decodeB f x = some i ↔ ∃ b, x = 0#23 ++ BitVec.ofBool b ∧ f b = i := by
  simp [decodeB, eq_append_iff (n := 23) (m := 1), extractLsb'_one_eq_ofBool, BitVec.ofBool_eq_iff_eq, and_assoc]

theorem decodeI16_eq_some {f : BitVec 16 → Instr} :
    decodeI16 f x = some i ↔ ∃ imm, x = 0#8 ++ imm ∧ f imm = i := by
  simp [decodeI16, eq_append_iff (n := 8) (m := 16), and_assoc]

theorem decodeI24_eq_some {f : BitVec 24 → Instr} : decodeI24 f x = some i ↔ ∃ imm, x = imm ∧ f imm = i := by
  simp [decodeI24]

theorem decodeS_eq_some {f : BitVec 8 → Bool → Instr} :
    decodeS f x = some i ↔ ∃ len cmd, x = 0#15 ++ BitVec.ofBool cmd ++ len ∧ f len cmd = i := by
  simp [decodeS, eq_append_append_iff (n := 15) (m := 1) (k := 8), extractLsb'_one_eq_ofBool,
    BitVec.ofBool_eq_iff_eq, and_assoc]

theorem decodeW_eq_some {f : BitVec 8 → BitVec 16 → Instr} :
    decodeW f x = some i ↔ ∃ idx val, x = idx ++ val ∧ idx.toNat < 32 ∧ f idx val = i := by
  simp [decodeW, eq_append_iff (n := 8) (m := 16), and_assoc]

/-! ### What each format refuses -/

theorem decodeZ_eq_none {j : Instr} : decodeZ j x = none ↔ x.toNat ≠ 0 := by
  simp [decodeZ, ← BitVec.toNat_inj]

theorem decodeB_eq_none {f : Bool → Instr} : decodeB f x = none ↔ x.toNat / 2 ≠ 0 := by
  rw [← pow_one 2, Ne, ← highField_eq_zero_iff 23 1]
  simp [decodeB]

theorem decodeI16_eq_none {f : BitVec 16 → Instr} : decodeI16 f x = none ↔ x.toNat / 2 ^ 16 ≠ 0 := by
  rw [Ne, ← highField_eq_zero_iff 8 16]
  simp [decodeI16]

theorem decodeI24_ne_none {f : BitVec 24 → Instr} : decodeI24 f x ≠ none := Option.some_ne_none _

theorem decodeS_eq_none {f : BitVec 8 → Bool → Instr} : decodeS f x = none ↔ x.toNat / 2 ^ 9 ≠ 0 := by
  rw [Ne, ← highField_eq_zero_iff 15 9]
  simp [decodeS]

theorem decodeW_eq_none {f : BitVec 8 → BitVec 16 → Instr} : decodeW f x = none ↔ 32 ≤ x.toNat / 2 ^ 16 := by
  rw [← toNat_highField 8 16]
  simp [decodeW]

end Formats

/-! ### The two inverse laws -/

/-- A word is the word of a command when its two halves are the command's. -/
theorem encode_eq_of_fields {w : Word32} {i : Instr} (hop : (opField w).toNat = i.opcode.toNat)
    (hx : operandField w = i.operands) : encode i = w := by
  rw [encode, ← BitVec.eq_of_toNat_eq hop, ← hx, append_fields]

/-- 30_encoding.md R91, the first law: each format accepts the operands its commands are encoded with. -/
theorem decode_encode {i : Instr} (h : i.WellFormed) : decode (encode i) = some i := by
  unfold decode
  rw [opField_encode, operandField_encode]
  cases i with
  | nop | reset | block | txtick | sendsync => exact decodeZ_eq_some.2 ⟨rfl, rfl⟩
  | setloop b => exact decodeB_eq_some.2 ⟨b, rfl, rfl⟩
  | ack imm | irqen imm | setamp imm | settxmin imm | settxmax imm | setrxmin imm | setrxmax imm | setthresh imm =>
    exact decodeI16_eq_some.2 ⟨imm, rfl, rfl⟩
  | settxrate imm | setrxrate imm => exact decodeI24_eq_some.2 ⟨imm, rfl, rfl⟩
  | ldp idx val => exact decodeW_eq_some.2 ⟨idx, val, rfl, h, rfl⟩
  | sendframe len cmd => exact decodeS_eq_some.2 ⟨len, cmd, rfl, rfl⟩

/-- 30_encoding.md R91, the second law: in each row of the opcode map the operands accepted are those of a well-formed
command with the row's opcode. -/
theorem wellFormed_and_encode_eq_of_decode {w : Word32} {i : Instr} (h : decode w = some i) :
    i.WellFormed ∧ encode i = w := by
  unfold decode at h
  split at h
  case h_1 hop | h_2 hop | h_3 hop | h_4 hop | h_18 hop =>
    obtain ⟨hx, rfl⟩ := decodeZ_eq_some.1 h
    exact ⟨trivial, encode_eq_of_fields hop hx⟩
  case h_7 hop =>
    obtain ⟨b, hx, rfl⟩ := decodeB_eq_some.1 h
    exact ⟨trivial, encode_eq_of_fields hop hx⟩
  case h_5 hop | h_6 hop | h_10 hop | h_11 hop | h_12 hop | h_13 hop | h_14 hop | h_15 hop =>
    obtain ⟨imm, hx, rfl⟩ := decodeI16_eq_some.1 h
    exact ⟨trivial, encode_eq_of_fields hop hx⟩
  case h_8 hop | h_9 hop =>
    obtain ⟨imm, hx, rfl⟩ := decodeI24_eq_some.1 h
    exact ⟨trivial, encode_eq_of_fields hop hx⟩
  case h_16 hop =>
    obtain ⟨idx, val, hx, hidx, rfl⟩ := decodeW_eq_some.1 h
    exact ⟨hidx, encode_eq_of_fields hop hx⟩
  case h_17 hop =>
    obtain ⟨len, cmd, hx, rfl⟩ := decodeS_eq_some.1 h
    exact ⟨trivial, encode_eq_of_fields hop hx⟩
  case h_19 => cases h

/-! ### The word of a command -/

/-- A word as 30_encoding.md R91 writes it: the opcode shifted left by 24, or-ed with the operands. -/
theorem encode_eq_shiftLeft_or (i : Instr) :
    encode i = i.opcode.setWidth 32 <<< 24 ||| i.operands.setWidth 32 := by
  rw [← BitVec.setWidth_append_eq_shiftLeft_setWidth_or, BitVec.setWidth_eq, encode]

/-- Zeros above a field leave it what it is in a wider word. -/
theorem setWidth_zero_append {n m k : Nat} (x : BitVec m) : (0#n ++ x).setWidth k = x.setWidth k := by
  simp [BitVec.setWidth_append_eq_shiftLeft_setWidth_or]

theorem setWidth_operandsB (b : Bool) :
    BitVec.setWidth (w := 24) 32 (0#23 ++ BitVec.ofBool b) = (BitVec.ofBool b).setWidth 32 :=
  setWidth_zero_append (BitVec.ofBool b)

theorem setWidth_operandsI16 (imm : BitVec 16) : BitVec.setWidth (w := 24) 32 (0#8 ++ imm) = imm.setWidth 32 :=
  setWidth_zero_append imm

theorem setWidth_operandsS (len : BitVec 8) (cmd : Bool) :
    BitVec.setWidth (w := 24) 32 (0#15 ++ BitVec.ofBool cmd ++ len) =
      (BitVec.ofBool cmd).setWidth 32 <<< 8 ||| len.setWidth 32 := by
  rw [← setWidth_zero_append (n := 15) (BitVec.ofBool cmd)]
  exact BitVec.setWidth_append_eq_shiftLeft_setWidth_or

theorem setWidth_operandsW (idx : BitVec 8) (val : BitVec 16) :
    BitVec.setWidth (w := 24) 32 (idx ++ val) = idx.setWidth 32 <<< 16 ||| val.setWidth 32 :=
  BitVec.setWidth_append_eq_shiftLeft_setWidth_or

end Sys2Proof

namespace Sys2Proof.Machine

/-- A step with a word first on CMD takes it and accepts it (00_scope.md R10). -/
theorem step_of_word {s : State} {w : Word32} {rest : List HostInput} (h : s.port.pending = .word w :: rest) :
    step s = (s.withPort { s.port with pending := rest }).accept w := by
  simp [step, takeInput_word h]

/-- A reserved word accepted is rejected, and nothing else happens (30_encoding.md R92). -/
theorem accept_of_reserved {w : Word32} (s : State) (h : decode w = none) : s.accept w = .next (wordRejected w s) := by
  rw [State.accept, h]
  rfl

end Sys2Proof.Machine

open Sys2Proof Sys2Proof.Machine

/-- Settles O1: the words by `encode_eq_shiftLeft_or` and the operands of each format, then the two inverse laws. -/
theorem decodeAndEncodeAreInverse : Obligations.DecodeAndEncodeAreInverse := by
  refine ⟨⟨rfl, rfl, rfl, rfl, rfl⟩, fun b => ?_, fun imm => ?_, fun imm => ?_, fun idx val => ?_,
    fun len cmd => ?_, fun i => decode_encode, fun w i => wellFormed_and_encode_eq_of_decode⟩
  · simp [encode_eq_shiftLeft_or, Instr.opcode, Instr.operands, setWidth_operandsB]
  · simp [encode_eq_shiftLeft_or, Instr.opcode, Instr.operands, setWidth_operandsI16]
  · simp [encode_eq_shiftLeft_or, Instr.opcode, Instr.operands]
  · simp [encode_eq_shiftLeft_or, Instr.opcode, Instr.operands, setWidth_operandsW, BitVec.or_assoc]
  · simp [encode_eq_shiftLeft_or, Instr.opcode, Instr.operands, setWidth_operandsS, BitVec.or_assoc]

/-- Settles O3: row by row of the opcode map, what the row's format refuses; an opcode outside the map lies in one of
the three gaps. -/
theorem reservedWordIsRejected : Obligations.ReservedWordIsRejected := by
  refine ⟨fun w => ?_, fun s w rest hw hd => ?_⟩
  · rw [← toNat_opField, ← toNat_operandField]
    unfold decode
    split
    case h_1 hop | h_2 hop | h_3 hop | h_4 hop | h_18 hop => simp [hop, decodeZ_eq_none]
    case h_7 hop => simp [hop, decodeB_eq_none]
    case h_5 hop | h_6 hop | h_10 hop | h_11 hop | h_12 hop | h_13 hop | h_14 hop | h_15 hop =>
      simp [hop, decodeI16_eq_none]
    case h_8 hop | h_9 hop => simp [hop, decodeI24_ne_none]
    case h_16 hop => simp [hop, decodeW_eq_none]
    case h_17 hop => simp [hop, decodeS_eq_none]
    case h_19 =>
      simp only [imp_false, true_iff] at *
      have gaps : 6 ≤ (opField w).toNat ∧ (opField w).toNat ≤ 15 ∨
        25 ≤ (opField w).toNat ∧ (opField w).toNat ≤ 31 ∨ 35 ≤ (opField w).toNat := by omega
      exact gaps.imp_right (Or.imp_right Or.inl)
  · rw [step_of_word hw]
    exact accept_of_reserved _ hd

end

section
/-!
SUPPORT. The control commands and the setters (40_config_ops.md): RxClear as one record, the common procedure of the
setters for each of its two kinds, and what the first BLOCK after a command finds.
-/

namespace Sys2Proof.Machine

/-! ### Words and flags -/

/-- A step with the word of a command first on CMD executes that command (30_encoding.md R90). -/
theorem step_of_decode {s : State} {w : Word32} {i : Instr} {rest : List HostInput}
    (hw : s.port.pending = .word w :: rest) (hd : decode w = some i) :
    step s = exec i (s.withPort { s.port with pending := rest }) := by
  rw [step_of_word hw, State.accept, hd]

/-- A flag after ACK: as before, unless the mask names it (40_config_ops.md R102). -/
theorem getLsbD_acknowledge (mask : BitVec 16) (status : BitVec 7) {i : Nat} (hi : i < 7) :
    (acknowledge mask status).getLsbD i = (status.getLsbD i && !mask.getLsbD i) := by
  simp [acknowledge, hi]

/-- The interrupt level bit by bit (60_exceptions.md R272). -/
theorem irq_eq_true_iff (s : State) :
    irq s = true ↔ ∃ i < 7, s.diag.status.getLsbD i = true ∧ s.cfg.irqEn.getLsbD i = true := by
  rw [irq, bne_iff_ne, Ne, BitVec.eq_of_getLsbD_eq_iff]
  simp

/-! ### RxClear -/

/-- What RxClear gives every item of the receive path, before the CANDS report (40_config_ops.md R104). -/
def rxCleared (s : State) : State :=
  { s with
    rx :=
      { RxRegs.por s.params with
        rxState := if s.rx.rxState = .fatalError then .fatalError else .idleInit
        sampCnt := s.rx.sampCnt
        nextSyncId := s.rx.nextSyncId }
    frm.cand := [] }

theorem rxClearBody_rxToIdleInit (s : State) : rxClearBody (rxToIdleInit s) = rxCleared s := by
  unfold rxToIdleInit rxCleared
  split
  next h =>
    rw [← h]
    rfl
  next => rfl

/-- With no candidate in flight RxClear reports nothing. -/
theorem rxClear_of_nil {s : State} (h : s.frm.cand = []) : rxClear s = rxCleared s := by
  rw [rxClear, if_pos h, rxClearBody_rxToIdleInit]

/-- The candidates RxClear removes are reported unjudged. -/
theorem rxClear_of_ne {s : State} (h : s.frm.cand ≠ []) :
    rxClear s = candsReported (s.frm.cand.map fun x => (x.id, .unknown)) (rxCleared s) := by
  rw [rxClear, if_neg h, rxClearBody_rxToIdleInit]
  rfl

/-- RxClear neither reads nor writes the configuration. -/
theorem rxClear_withCfg (c : ConfigRegs) (s : State) : rxClear (s.withCfg c) = (rxClear s).withCfg c := by
  by_cases h : s.frm.cand = []
  · rw [rxClear_of_nil h, rxClear_of_nil (s := s.withCfg c) h]
    rfl
  · rw [rxClear_of_ne h, rxClear_of_ne (s := s.withCfg c) h]
    rfl

/-- RxClear does not enter FatalError. -/
theorem rxClear_ne_fatalError {s : State} (h : s.rx.rxState ≠ .fatalError) :
    (rxClear s).rx.rxState ≠ .fatalError := by
  have hr : (rxCleared s).rx.rxState = .idleInit := if_neg h
  by_cases hc : s.frm.cand = []
  · rw [rxClear_of_nil hc, hr]
    decide
  · rw [rxClear_of_ne hc, candsReported, hr]
    decide

/-! ### The setters' common procedure -/

/-- A setter that is not Rx-affecting: accepted or rejected whole (40_config_ops.md R106, R107). -/
theorem setter_tx (which : BitVec 8) (valid : Bool) (code : BitVec 4) (c : ConfigRegs) (s : State) :
    setter which valid code false c s = if valid then cfgInstalled which c s else setterRejected which code s := rfl

/-- An Rx-affecting setter: RxClear before the CFG event, exactly when the configuration changed (40_config_ops.md
R106). -/
theorem setter_rx (which : BitVec 8) (valid : Bool) (code : BitVec 4) (c : ConfigRegs) (s : State) :
    setter which valid code true c s =
      if valid then cfgInstalled which c (if c = s.cfg then s else rxClear s)
      else setterRejected which code s := by
  have installed : installConfig which true c s = cfgInstalled which c (if c = s.cfg then s else rxClear s) := by
    by_cases h : c = s.cfg
    · simp only [installConfig, h, bne_self_eq_false, Bool.and_false, Bool.false_eq_true, if_false, if_true]
      rfl
    · simp only [installConfig, bne_iff_ne.2 h, Bool.and_self, if_true, if_neg h, rxClear_withCfg]
      rfl
  rw [setter, installed]
  rfl

theorem rateValid_iff (p : Params) (r : BitVec 24) :
    rateValid p r = true ↔ p.sampleRateMin ≤ r.toNat ∧ r.toNat ≤ p.sampleRateMax := by
  rw [rateValid, Bool.and_eq_true]
  exact and_congr decide_eq_true_iff decide_eq_true_iff

theorem symbolValid_iff (v : BitVec 16) : symbolValid v = true ↔ v.toNat ≤ 0x7FFF := decide_eq_true_iff

theorem ampValid_iff (a : BitVec 16) : ampValid a = true ↔ a.toNat ≤ 0x8000 := decide_eq_true_iff

/-! ### When a write changes the configuration -/

section Writes

variable {c : ConfigRegs}

theorem write_loop_eq_self_iff {b : Bool} :
    { c with loop := b, rxLoop := b } = c ↔ c.loop = b ∧ c.rxLoop = b := by
  constructor
  · intro h
    exact ⟨(congrArg ConfigRegs.loop h).symm, (congrArg ConfigRegs.rxLoop h).symm⟩
  · rintro ⟨rfl, hr⟩
    exact congrArg (fun x => { c with rxLoop := x }) hr.symm

theorem write_rxRate_eq_self_iff {r : BitVec 24} : { c with rxRate := r } = c ↔ c.rxRate = r :=
  ⟨fun h => (congrArg ConfigRegs.rxRate h).symm, by rintro rfl; rfl⟩

/-- A legal 16-bit symbol value is held in 15 bits without loss (10_state.md R32, R33). -/
theorem toNat_setWidth_of_symbol {v : BitVec 16} (hv : v.toNat ≤ 0x7FFF) : (v.setWidth 15).toNat = v.toNat := by
  rw [BitVec.toNat_setWidth, Nat.mod_eq_of_lt (by omega)]

theorem write_rxMin_eq_self_iff {v : BitVec 16} (hv : v.toNat ≤ 0x7FFF) :
    { c with rxMin := v.setWidth 15 } = c ↔ c.rxMin.toNat = v.toNat := by
  rw [← toNat_setWidth_of_symbol hv, BitVec.toNat_inj]
  exact ⟨fun h => (congrArg ConfigRegs.rxMin h).symm, fun h => by rw [← h]⟩

theorem write_rxMax_eq_self_iff {v : BitVec 16} (hv : v.toNat ≤ 0x7FFF) :
    { c with rxMax := v.setWidth 15 } = c ↔ c.rxMax.toNat = v.toNat := by
  rw [← toNat_setWidth_of_symbol hv, BitVec.toNat_inj]
  exact ⟨fun h => (congrArg ConfigRegs.rxMax h).symm, fun h => by rw [← h]⟩

end Writes

/-! ### The meanings of RXSYM.MIN's and RXSYM.MAX's setters -/

theorem exec_setrxmin (v : BitVec 16) (s : State) :
    exec (.setrxmin v) s = .next
      (if v.toNat ≤ 0x7FFF then
        cfgInstalled 0x16 { s.cfg with rxMin := v.setWidth 15 }
          (if s.cfg.rxMin.toNat = v.toNat then s else rxClear s)
      else setterRejected 0x16 2 s) := by
  rw [exec, execSetrxmin, setter_rx]
  simp only [symbolValid_iff]
  split
  next hv => simp only [write_rxMin_eq_self_iff hv]
  next => rfl

theorem exec_setrxmax (v : BitVec 16) (s : State) :
    exec (.setrxmax v) s = .next
      (if v.toNat ≤ 0x7FFF then
        cfgInstalled 0x17 { s.cfg with rxMax := v.setWidth 15 }
          (if s.cfg.rxMax.toNat = v.toNat then s else rxClear s)
      else setterRejected 0x17 2 s) := by
  rw [exec, execSetrxmax, setter_rx]
  simp only [symbolValid_iff]
  split
  next hv => simp only [write_rxMax_eq_self_iff hv]
  next => rfl

/-! ### The first BLOCK after a command -/

/-- BLOCK's input selection touches no register the receive path reads (43_rx_state_machine.md R171). -/
theorem selectBlock_keeps {s t : State} {X : List Sample} (h : selectBlock s = some (X, t)) :
    t.params = s.params ∧ t.cfg = s.cfg ∧ t.rx = s.rx := by
  unfold selectBlock at h
  split at h
  · obtain ⟨-, rfl⟩ := h
    exact ⟨rfl, rfl, rfl⟩
  · split at h
    · obtain ⟨-, rfl⟩ := h
      exact ⟨rfl, rfl, rfl⟩
    · cases h

/-- A BLOCK that completes is the receive path on the block selected (43_rx_state_machine.md R170). -/
theorem exists_receiveBlock_of_exec_block {s u : State} (h : exec .block s = .next u) :
    ∃ X t, u = receiveBlock X t ∧ t.params = s.params ∧ t.cfg = s.cfg ∧ t.rx = s.rx := by
  rw [exec, execBlock] at h
  split at h
  next X t hsel =>
    cases h
    exact ⟨X, t, rfl, selectBlock_keeps hsel⟩
  next => cases h

theorem fatalCode_of_range {p : Params} {c : ConfigRegs} (h : c.rxMax.toNat ≤ c.rxMin.toNat) : fatalCode p c = 1 :=
  if_pos h

theorem fatalCode_of_nyquist {p : Params} {c : ConfigRegs} (hr : c.rxMin.toNat < c.rxMax.toNat)
    (hn : p.fftSize / 2 ≤ p.fftFactor * c.rxMax.toNat) : fatalCode p c = 2 := by
  rw [fatalCode, if_neg (by omega), if_pos hn]

/-- A fatal configuration found by the receive path (43_rx_state_machine.md R174). -/
theorem receiveBlock_of_fatalCode_ne {X : List Sample} {s : State} (hs : s.rx.rxState ≠ .fatalError)
    (hc : fatalCode s.params s.cfg ≠ 0) : receiveBlock X s = fatalEntered (fatalCode s.params s.cfg) s := by
  rw [receiveBlock, if_neg hs, if_pos hc]
  rfl

/-- The receive path leaves IdleInit for FirstSyncWait on any block, if the configuration is not fatal
(43_rx_state_machine.md R175). -/
theorem receiveBlock_rxState_of_idleInit {X : List Sample} {s : State} (hs : s.rx.rxState = .idleInit)
    (hc : fatalCode s.params s.cfg = 0) : (receiveBlock X s).rx.rxState = .firstSyncWait := by
  have hm (r : Symbol) (sync sp : Bool) : nextMove (histPush r s) sync sp r = .toFirstSyncWait := by
    rw [nextMove, histPush, State.withRx_rx, hs]
  rw [receiveBlock, if_neg (by rw [hs]; decide), if_neg (not_not.2 hc), processVerdict]
  simp only [hm]
  rfl

/-- A BLOCK under a fatal configuration enters FatalError with its code. -/
theorem fatalError_of_exec_block {s u : State} (hs : s.rx.rxState ≠ .fatalError)
    (hc : fatalCode s.params s.cfg ≠ 0) (h : exec .block s = .next u) :
    u.rx.rxState = .fatalError ∧ u.diag.fatalCode = fatalCode s.params s.cfg := by
  obtain ⟨X, t, rfl, hp, hcfg, hrx⟩ := exists_receiveBlock_of_exec_block h
  rw [receiveBlock_of_fatalCode_ne (by rwa [hrx]) (by rwa [hp, hcfg]), hp, hcfg]
  exact ⟨rfl, rfl⟩

/-- A BLOCK after an Rx-affecting setter that installed a fatal configuration, whether it cleared the receive path or
not (40_config_ops.md R116, R117). -/
theorem fatalError_of_cfgInstalled {which : BitVec 8} {c : ConfigRegs} {s u : State} (same : Prop) [Decidable same]
    (hs : s.rx.rxState ≠ .fatalError) (hc : fatalCode s.params c ≠ 0)
    (h : exec .block (cfgInstalled which c (if same then s else rxClear s)) = .next u) :
    u.rx.rxState = .fatalError ∧ u.diag.fatalCode = fatalCode s.params c := by
  split at h
  · exact fatalError_of_exec_block (s := cfgInstalled which c s) hs hc h
  · have hp : (rxClear s).params = s.params := (rxClear_keeps s).1.params
    rw [← hp] at hc ⊢
    exact fatalError_of_exec_block (s := cfgInstalled which c (rxClear s)) (rxClear_ne_fatalError hs) hc h

/-! ### Silence at amplitude 0, and the symbols of the window -/

theorem roundedSine_amplitude_zero (logN j : Nat) : roundedSine logN 0 j = 0 := by
  simp only [roundedSine, quarterSine, if_true]
  split <;> rfl

/-- The tone of amplitude 0 is silence (45_tx_sequencer.md R247). -/
theorem isSilent_toneBlock_amplitude_zero (logN k : Nat) : isSilent (toneBlock logN 0 k) = true := by
  have h0 (n : Nat) : toneSample logN 0 k n = 0 := by
    rw [toneSample, roundedSine_amplitude_zero]
    rfl
  simp [isSilent, toneBlock, h0]

theorem peakSymbol_le (level : Nat → Int) (lo n : Nat) : peakSymbol level lo n ≤ lo + n := by
  induction n with
  | zero => exact le_rfl
  | succ n ih =>
    rw [peakSymbol]
    split <;> omega

/-- The peak's symbol is a 15-bit symbol, whatever the window (41_detector.md R136). -/
theorem windowPeak_lt (p : Params) (c : ConfigRegs) (X : List Sample) : windowPeak p c X < 2 ^ 15 := by
  have hpeak := peakSymbol_le (fun s => sext16 (symDb p X s)) c.rxMin.toNat (c.rxMax.toNat - c.rxMin.toNat)
  have hmin := c.rxMin.isLt
  have hmax := c.rxMax.isLt
  rw [windowPeak]
  omega

/-- A verdict of a level that is not below the threshold is the peak's symbol (41_detector.md R137). -/
theorem detect_fst_of_not_lt {p : Params} {c : ConfigRegs} {X : List Sample}
    (h : ¬ sext16 (symDb p X (windowPeak p c X)) < sext16 c.thresh) :
    (detect p c X).1 = BitVec.ofNat 16 (windowPeak p c X) := by
  simp only [detect, if_neg h]

end Sys2Proof.Machine

open Sys2Proof Sys2Proof.Machine

/-- Settles O15: the setters by `setter_rx`; the fatal values by the check the next BLOCK makes. -/
theorem rxSettersClearOnChange : Obligations.RxSettersClearOnChange := by
  refine ⟨fun s b => ?_, fun s r => ?_, fun s v => exec_setrxmin v s, fun s v => exec_setrxmax v s,
    fun s t u v hv hr hs ht hu => ?_, fun s t u v hv hr hn hs ht hu => ?_, rfl, rfl, rfl, rfl⟩
  · rw [exec, execSetloop, setter_rx]
    simp only [write_loop_eq_self_iff, if_true]
  · rw [exec, execSetrxrate, setter_rx]
    simp only [rateValid_iff, write_rxRate_eq_self_iff]
  · rw [exec_setrxmin, if_pos hv] at ht
    cases ht
    have hc : fatalCode s.params { s.cfg with rxMin := v.setWidth 15 } = 1 :=
      fatalCode_of_range (hr.trans_eq (toNat_setWidth_of_symbol hv).symm)
    rw [← hc]
    exact fatalError_of_cfgInstalled _ hs (by rw [hc]; decide) hu
  · rw [exec_setrxmax, if_pos hv] at ht
    cases ht
    have hc : fatalCode s.params { s.cfg with rxMax := v.setWidth 15 } = 2 :=
      fatalCode_of_nyquist (hr.trans_eq (toNat_setWidth_of_symbol hv).symm)
        (by rwa [toNat_setWidth_of_symbol hv])
    rw [← hc]
    exact fatalError_of_cfgInstalled _ hs (by rw [hc]; decide) hu

/-- Settles O7: the word by its row of the opcode map, the command by its meaning. -/
theorem nopChangesNothing : Obligations.NopChangesNothing := ⟨rfl, fun _ => rfl⟩

/-- Settles O8: the flags bit by bit by `getLsbD_acknowledge`. -/
theorem ackClearsTheNamedFlags : Obligations.AckClearsTheNamedFlags := by
  refine ⟨fun _ _ => rfl, fun s t imm ht => ?_, fun s rest hw hs => ?_⟩
  · cases ht
    exact ⟨fun i hi => getLsbD_acknowledge imm s.diag.status hi, rfl⟩
  · have cleared : acknowledge 1 s.diag.status = 0x02 := by rw [hs]; rfl
    rw [step_of_decode (i := .ack 1) hw rfl, exec, execAck, State.withPort_diag, cleared]
    rfl

/-- Settles O9: the level by `irq_eq_true_iff`, the command by its meaning. -/
theorem irqenWritesTheMask : Obligations.IrqenWritesTheMask := by
  refine ⟨irq_eq_true_iff, fun s h => ?_, rfl, fun _ _ => rfl, fun s rest hw => ?_⟩
  · simp [irq, h]
  · rw [step_of_decode (i := .irqen 0x11) hw rfl]
    rfl

/-- Settles O10: after RESET the receive path is in IdleInit under the configuration kept, and the first BLOCK either
finds that configuration fatal or leaves IdleInit. -/
theorem resetReinitialises : Obligations.ResetReinitialises := by
  refine ⟨fun _ => rfl, fun s t u ht hu => ?_, fun s rest hw => step_of_decode hw rfl⟩
  cases ht
  have hidle : (resetOperation s).rx.rxState = .idleInit := rfl
  by_cases hc : fatalCode s.params s.cfg = 0
  · obtain ⟨X, t', rfl, hp, hcfg, hrx⟩ := exists_receiveBlock_of_exec_block hu
    rw [if_pos hc]
    exact receiveBlock_rxState_of_idleInit (by rw [hrx, hidle]) (by rw [hp, hcfg]; exact hc)
  · rw [if_neg hc]
    exact (fatalError_of_exec_block (s := resetOperation s) (by rw [hidle]; decide) hc hu).1

/-- Settles O11: each setter by `setter_tx` and its value's check. -/
theorem txSettersWriteOneRegister : Obligations.TxSettersWriteOneRegister := by
  refine ⟨fun _ _ _ => rfl, fun s r => ?_, fun s v => ?_, fun s v => ?_, rfl, rfl, rfl, rfl⟩
  · rw [exec, execSettxrate, setter_tx]
    simp only [rateValid_iff]
  · rw [exec, execSettxmin, setter_tx]
    simp only [symbolValid_iff]
  · rw [exec, execSettxmax, setter_tx]
    simp only [symbolValid_iff]

/-- Settles O12: the setter by `setter_tx`; a loopback block at amplitude 0 is silence or the tone of amplitude 0. -/
theorem setampWritesBothAmplitudes : Obligations.SetampWritesBothAmplitudes := by
  refine ⟨fun s a => ?_, fun s t h => ?_, rfl⟩
  · rw [exec, execSetamp, setter_tx]
    simp only [ampValid_iff]
  · rw [loopBlock, h]
    split
    · exact isSilent_silentBlock _
    · exact isSilent_toneBlock_amplitude_zero _ _

/-- Settles O13: no level is below -32768, so the verdict is the peak's symbol, which has 15 bits. -/
theorem setthreshIsAlwaysAccepted : Obligations.SetthreshIsAlwaysAccepted := by
  refine ⟨fun _ _ => rfl, fun p c X h => ?_, rfl, rfl⟩
  have hlevel : ¬ sext16 (symDb p X (windowPeak p c X)) < sext16 c.thresh := by
    rw [h]
    exact not_lt.2 (BitVec.le_toInt _)
  have hpeak := windowPeak_lt p c X
  rw [detect_fst_of_not_lt hlevel, Ne, ← BitVec.toNat_inj, BitVec.toNat_ofNat, Nat.mod_eq_of_lt (by omega)]
  exact (hpeak.trans (by decide)).ne

/-- Settles O14: RxClear with no candidate in flight, and with one. -/
theorem rxClearIsWhole : Obligations.RxClearIsWhole := by
  intro s
  by_cases h : s.frm.cand = []
  · exact (rxClear_of_nil h).trans (if_pos h).symm
  · exact (rxClear_of_ne h).trans (if_neg h).symm

end

section
/-!
SUPPORT. The detector's scan and its verdict (41_detector.md R134 to R137): what the peak of a window is among the
window's symbols, by induction on the window's length, and the verdict as one equation.
-/

namespace Sys2Proof.Machine

/-! ### The scan -/

section Scan

variable (level : Nat → Int) (lo : Nat)

theorem le_peakSymbol (n : Nat) : lo ≤ peakSymbol level lo n := by
  induction n with
  | zero => exact le_rfl
  | succ n ih =>
    rw [peakSymbol]
    split
    · omega
    · exact ih

variable {level lo} {s : Nat}

/-- No symbol of the window is above the peak's level (41_detector.md R136). -/
theorem level_le_level_peakSymbol (hlo : lo ≤ s) {n : Nat} (hs : s ≤ lo + n) :
    level s ≤ level (peakSymbol level lo n) := by
  induction n with
  | zero =>
    obtain rfl : s = lo := by omega
    exact le_rfl
  | succ n ih =>
    rw [peakSymbol]
    obtain rfl | hbefore : s = lo + n + 1 ∨ s ≤ lo + n := by omega
    · split
      · exact le_rfl
      next hkept => exact not_lt.1 hkept
    · split
      next hnew => exact (ih hbefore).trans hnew.le
      · exact ih hbefore

/-- A symbol of the window before the peak is below its level, since the scan moves on only to a greater one
(41_detector.md R136). -/
theorem level_lt_level_peakSymbol (hlo : lo ≤ s) {n : Nat} (hs : s < peakSymbol level lo n) :
    level s < level (peakSymbol level lo n) := by
  induction n with
  | zero => exact absurd hs (not_lt.2 hlo)
  | succ n ih =>
    rw [peakSymbol] at hs ⊢
    split at hs
    next hnew =>
      rw [if_pos hnew]
      exact (level_le_level_peakSymbol hlo (by omega)).trans_lt hnew
    next hkept =>
      rw [if_neg hkept]
      exact ih hs

end Scan

/-! ### The peak of the Rx window and the verdict -/

section Verdict

variable (p : Params) (c : ConfigRegs) (X : List Sample)

theorem rxMin_le_windowPeak : c.rxMin.toNat ≤ windowPeak p c X := le_peakSymbol _ _ _

theorem windowPeak_le_rxMax (hwin : c.rxMin.toNat ≤ c.rxMax.toNat) : windowPeak p c X ≤ c.rxMax.toNat :=
  (peakSymbol_le _ _ _).trans (Nat.add_sub_cancel' hwin).le

/-- The peak's level is the greatest in the window `[RXSYM.MIN, RXSYM.MAX]`. -/
theorem symDb_le_symDb_windowPeak {s : Nat} (hlo : c.rxMin.toNat ≤ s) (hhi : s ≤ c.rxMax.toNat) :
    (symDb p X s).toInt ≤ (symDb p X (windowPeak p c X)).toInt :=
  level_le_level_peakSymbol (level := fun s => sext16 (symDb p X s)) hlo (by omega)

/-- No lower symbol of the window reaches the peak's level. -/
theorem symDb_lt_symDb_windowPeak {s : Nat} (hlo : c.rxMin.toNat ≤ s) (hs : s < windowPeak p c X) :
    (symDb p X s).toInt < (symDb p X (windowPeak p c X)).toInt :=
  level_lt_level_peakSymbol (level := fun s => sext16 (symDb p X s)) hlo hs

/-- The verdict reports the peak's level in both cases (41_detector.md R137). -/
theorem detect_eq :
    detect p c X =
      (if (symDb p X (windowPeak p c X)).toInt < c.thresh.toInt then noSymbol
        else BitVec.ofNat 16 (windowPeak p c X), symDb p X (windowPeak p c X)) :=
  (apply_ite (·, symDb p X (windowPeak p c X)) _ _ _).symm

theorem toNat_ofNat_windowPeak : (BitVec.ofNat 16 (windowPeak p c X)).toNat = windowPeak p c X :=
  (BitVec.toNat_ofNat _ _).trans (Nat.mod_eq_of_lt ((windowPeak_lt p c X).trans (by decide)))

/-- The word of a peak is never NO_SYMBOL, which is no 15-bit symbol (10_state.md R24). -/
theorem ofNat_windowPeak_ne_noSymbol : BitVec.ofNat 16 (windowPeak p c X) ≠ noSymbol := by
  intro h
  have hpeak : windowPeak p c X = 0xFFFF := by
    rw [← toNat_ofNat_windowPeak, h]
    rfl
  have := windowPeak_lt p c X
  omega

end Verdict

end Sys2Proof.Machine

open Sys2Proof Sys2Proof.Machine

/-- Settles O22: the symbol is the peak of the scan, greatest and lowest by the induction over the window, and the
verdict is `detect_eq`. -/
theorem detectorVerdict : Obligations.DetectorVerdict := by
  intro p c X hwin
  exact ⟨windowPeak p c X, rxMin_le_windowPeak p c X, windowPeak_le_rxMax p c X hwin.le,
    fun _ => symDb_le_symDb_windowPeak p c X, fun _ => symDb_lt_symDb_windowPeak p c X,
    detect_eq p c X, toNat_ofNat_windowPeak p c X, ofNat_windowPeak_ne_noSymbol p c X⟩

end

section
/-!
SUPPORT. The history ring and the recognizer (42_sync_tracker.md R151 to R160): the valid entries newest first, what one
push and a list of pushes do to them, and the recognizer as "the pattern is a suffix of the history".
-/

namespace Sys2Proof.Machine

/-! ### The ends of a list -/

theorem rtake_rtake_append {α : Type} (l m : List α) (n : Nat) : (l.rtake n ++ m).rtake n = (l ++ m).rtake n := by
  simp [List.rtake_eq_reverse_take_reverse, List.take_append, List.take_take]

theorem rtake_eq_self {α : Type} {l : List α} {n : Nat} (h : l.length ≤ n) : l.rtake n = l := by
  rw [List.rtake, Nat.sub_eq_zero_of_le h, List.drop_zero]

/-- Where a list longer than `run` is a suffix of `l ++ run`, it reaches back over `l`'s last entry. -/
theorem getLast?_of_suffix_append {α : Type} {u l run : List α} (h : u <:+ l ++ run) (hlt : run.length < u.length) :
    l.getLast? = u[u.length - 1 - run.length]? := by
  obtain ⟨t, ht⟩ := h
  have hlen : t.length + u.length = l.length + run.length := by
    rw [← List.length_append, ht, List.length_append]
  calc l.getLast? = (l ++ run)[l.length - 1]? := by
        rw [List.getLast?_eq_getElem?, List.getElem?_append_left (by omega)]
    _ = u[l.length - 1 - t.length]? := by rw [← ht, List.getElem?_append_right (by omega)]
    _ = u[u.length - 1 - run.length]? := by congr 1; omega

/-! ### The ring, newest entry first -/

/-- The ring's entry written `age` pushes before the newest one (42_sync_tracker.md R152). -/
def histEntry (s : State) (age : Nat) : Symbol :=
  s.rx.hist.getD ((s.rx.histWr + s.params.rawSymbolMax - (age + 1)) % s.params.rawSymbolMax) noSymbol

theorem length_histAll (s : State) : (histAll s).length = s.rx.histCnt := by
  rw [histAll, List.length_map, List.length_range]

theorem getElem_histAll {s : State} (h : RingShape s) {i : Nat} (hi : i < (histAll s).length) :
    (histAll s)[i] = histEntry s (s.rx.histCnt - 1 - i) := by
  have hcount := h.count_le
  rw [length_histAll] at hi
  simp only [histAll, List.getElem_map, List.getElem_range, histEntry]
  congr 2
  omega

/-- Newest first, the valid entries are those of the ages below HISTCNT. -/
theorem reverse_histAll {s : State} (h : RingShape s) :
    (histAll s).reverse = (List.range s.rx.histCnt).map (histEntry s) := by
  refine List.ext_getElem (by simp [length_histAll]) fun i hi _ => ?_
  rw [List.length_reverse, length_histAll] at hi
  rw [List.getElem_reverse, getElem_histAll h, List.getElem_map, List.getElem_range, length_histAll]
  congr 1
  omega

/-! ### One push -/

/-- From the moved cursor, the slot `j + 1` places back is the one `j` places back before. -/
theorem next_cursor_back {w n j : Nat} (hw : w < n) (hj : j < n) :
    ((w + 1) % n + n - (j + 1)) % n = (w + n - j) % n := by
  obtain hlt | hwrap : w + 1 < n ∨ w + 1 = n := Nat.lt_or_eq_of_le hw
  · rw [Nat.mod_eq_of_lt hlt, Nat.add_right_comm, Nat.add_sub_add_right]
  · have hround : w + n - j = 0 + n - (j + 1) + n := by omega
    rw [hwrap, Nat.mod_self, hround, Nat.add_mod_right]

/-- Less than once around the ring no slot is met again. -/
theorem cursor_back_ne {w n j : Nat} (hw : w < n) (hpos : 0 < j) (hj : j < n) : (w + n - j) % n ≠ w := by
  obtain hle | hgt := Nat.lt_or_ge w j |>.symm
  · rw [Nat.sub_add_comm hle, Nat.add_mod_right, Nat.mod_eq_of_lt (by omega)]
    omega
  · rw [Nat.mod_eq_of_lt (by omega)]
    omega

section Push

variable {s : State} (h : RingShape s) (r : Symbol)

include h

theorem RingShape.histPush : RingShape (histPush r s) where
  capacity_pos := h.capacity_pos
  length_eq := List.length_set.trans h.length_eq
  cursor_lt := Nat.mod_lt _ h.capacity_pos
  count_le := Nat.min_le_right _ _

/-- The newest entry after a push is the pushed one. -/
theorem histEntry_histPush_zero : histEntry (histPush r s) 0 = r := by
  have hslot := next_cursor_back h.cursor_lt h.capacity_pos
  rw [Nat.sub_zero, Nat.add_mod_right, Nat.mod_eq_of_lt h.cursor_lt] at hslot
  simp only [histEntry, histPush, State.withRx_rx, State.withRx_params, hslot, List.getD_eq_getElem?_getD]
  rw [List.getElem?_set_self (h.cursor_lt.trans_eq h.length_eq.symm), Option.getD_some]

/-- A push makes every older entry it does not overwrite one older. -/
theorem histEntry_histPush_succ {age : Nat} (hage : age + 1 < s.params.rawSymbolMax) :
    histEntry (histPush r s) (age + 1) = histEntry s age := by
  have hslot := next_cursor_back h.cursor_lt hage
  have hkept := cursor_back_ne h.cursor_lt (Nat.succ_pos age) hage
  simp only [histEntry, histPush, State.withRx_rx, State.withRx_params, hslot, List.getD_eq_getElem?_getD]
  rw [List.getElem?_set_ne hkept.symm]

/-- Newest first, a push puts its symbol in front and keeps no more than the capacity. -/
theorem reverse_histAll_histPush :
    (histAll (histPush r s)).reverse = (r :: (histAll s).reverse).take s.params.rawSymbolMax := by
  obtain ⟨cap, hcap⟩ := Nat.exists_eq_add_one.mpr h.capacity_pos
  have hcount : (histPush r s).rx.histCnt = min s.rx.histCnt cap + 1 := by
    simp [histPush, hcap]
  rw [reverse_histAll (h.histPush r), reverse_histAll h, hcount, hcap, List.take_succ_cons, List.range_succ_eq_map,
    List.map_cons, List.map_map, histEntry_histPush_zero h r, ← List.map_take, List.take_range, Nat.min_comm cap]
  congr 1
  refine List.map_congr_left fun age hage => histEntry_histPush_succ h r ?_
  have := List.mem_range.mp hage
  omega

/-- 42_sync_tracker.md R153 for one push. -/
theorem histAll_histPush : histAll (histPush r s) = (histAll s ++ [r]).rtake s.params.rawSymbolMax := by
  rw [List.rtake_eq_reverse_take_reverse, List.reverse_append, List.reverse_singleton, List.singleton_append,
    ← reverse_histAll_histPush h r, List.reverse_reverse]

end Push

/-! ### A list of pushes -/

@[simp] theorem pushAll_params (rs : List Symbol) (s : State) : (pushAll rs s).params = s.params := by
  induction rs generalizing s with
  | nil => rfl
  | cons r rest ih => exact ih _

@[simp] theorem pushAll_cfg (rs : List Symbol) (s : State) : (pushAll rs s).cfg = s.cfg := by
  induction rs generalizing s with
  | nil => rfl
  | cons r rest ih => exact ih _

theorem RingShape.pushAll {s : State} (h : RingShape s) (rs : List Symbol) : RingShape (pushAll rs s) := by
  induction rs generalizing s with
  | nil => exact h
  | cons r rest ih => exact ih (h.histPush r)

theorem histAll_pushAll {s : State} (h : RingShape s) (rs : List Symbol) :
    histAll (pushAll rs s) = (histAll s ++ rs).rtake s.params.rawSymbolMax := by
  induction rs generalizing s with
  | nil =>
    rw [List.append_nil, rtake_eq_self ((length_histAll s).trans_le h.count_le)]
    rfl
  | cons r rest ih =>
    calc histAll (pushAll rest (histPush r s))
        = (histAll (histPush r s) ++ rest).rtake s.params.rawSymbolMax := ih (h.histPush r)
      _ = (histAll s ++ r :: rest).rtake s.params.rawSymbolMax := by
        rw [histAll_histPush h r, rtake_rtake_append, List.append_assoc, List.singleton_append]

/-! ### The recognizer -/

section Recognizer

variable {s : State}

theorem length_syncPattern (s : State) : (syncPattern s).length = 2 * s.params.periodBlocks := by
  simp [syncPattern, Nat.two_mul]

theorem syncPattern_pushAll (rs : List Symbol) : syncPattern (pushAll rs s) = syncPattern s := by
  simp [syncPattern]

theorem mem_syncPattern {x : Symbol} (hx : x ∈ syncPattern s) : x = syncA s.cfg.rxMax ∨ x = syncB s.cfg.rxMax :=
  (List.mem_append.mp hx).imp List.eq_of_mem_replicate List.eq_of_mem_replicate

/-- The first half of the pattern is SYNC_A. -/
theorem getElem?_syncPattern_of_lt {i : Nat} (hi : i < s.params.periodBlocks) :
    (syncPattern s)[i]? = some (syncA s.cfg.rxMax) := by
  rw [syncPattern, List.getElem?_append_left (by simpa using hi), List.getElem?_replicate, if_pos hi]

theorem syncA_ne_syncB (m : BitVec 15) : syncA m ≠ syncB m := by
  simp only [syncA, syncB]
  bv_omega

theorem syncA_ne_noSymbol {m : BitVec 15} (h : 0 < m.toNat) : syncA m ≠ 0xFFFF := by
  simp only [syncA]
  bv_omega

theorem syncB_ne_noSymbol (m : BitVec 15) : syncB m ≠ 0xFFFF := by
  simp only [syncB]
  bv_omega

/-- 42_sync_tracker.md R159: the recognizer matches exactly when the pattern ends the history. -/
theorem syncNow_iff_suffix : syncNow s = true ↔ syncPattern s <:+ histAll s := by
  rw [List.suffix_iff_eq_drop, length_syncPattern, syncNow, Bool.and_eq_true, decide_eq_true_iff, beq_iff_eq, histTail]
  refine ⟨fun ⟨_, htail⟩ => htail.symm, fun htail => ⟨?_, htail.symm⟩⟩
  have hlen := congrArg List.length htail
  rw [List.length_drop, length_syncPattern, length_histAll] at hlen
  omega

theorem syncNow_eq_false_iff : syncNow s = false ↔ ¬ syncPattern s <:+ histAll s := by
  rw [← syncNow_iff_suffix, Bool.not_eq_true]

/-- An entry among the last 2P that is no sync symbol forbids the pattern. -/
theorem not_suffix_of_foreign {l run : List Symbol} (hrun : run.length < 2 * s.params.periodBlocks)
    (hlast : ∀ x, l.getLast? = some x → x ≠ syncA s.cfg.rxMax ∧ x ≠ syncB s.cfg.rxMax) :
    ¬ syncPattern s <:+ l ++ run := by
  intro h
  have hlen := length_syncPattern s
  have hget := getLast?_of_suffix_append h (by omega)
  rw [List.getElem?_eq_getElem (by omega)] at hget
  have hne := hlast _ hget
  exact (mem_syncPattern (List.getElem_mem _)).elim hne.1 hne.2

/-- SYNC_B where the pattern has its SYNC_A half, P to 2P − 1 entries from the end, forbids the pattern. -/
theorem not_suffix_of_early_syncB {l run : List Symbol} (hlast : l.getLast? = some (syncB s.cfg.rxMax))
    (hlo : s.params.periodBlocks ≤ run.length) (hhi : run.length < 2 * s.params.periodBlocks) :
    ¬ syncPattern s <:+ l ++ run := by
  intro h
  have hlen := length_syncPattern s
  have hget := getLast?_of_suffix_append h (by omega)
  rw [hlast, getElem?_syncPattern_of_lt (by omega)] at hget
  exact syncA_ne_syncB _ (Option.some.inj hget).symm

theorem getLast?_append_replicate_succ {α : Type} (l : List α) (n : Nat) (x : α) :
    (l ++ List.replicate (n + 1) x).getLast? = some x := by
  rw [List.replicate_succ', ← List.append_assoc, List.getLast?_concat]

/-- 42_sync_tracker.md R160 (d): more than P of SYNC_B at the end. -/
theorem not_suffix_of_long_syncB (before : List Symbol) {n : Nat} (hn : s.params.periodBlocks < n)
    (hP : 0 < s.params.periodBlocks) :
    ¬ syncPattern s <:+ before ++ List.replicate n (syncB s.cfg.rxMax) := by
  obtain ⟨k, rfl⟩ : ∃ k, n = k + 1 + s.params.periodBlocks := ⟨n - s.params.periodBlocks - 1, by omega⟩
  rw [List.replicate_add, ← List.append_assoc]
  exact not_suffix_of_early_syncB (getLast?_append_replicate_succ _ _ _) List.length_replicate.ge
    (by rw [List.length_replicate]; omega)

/-- 42_sync_tracker.md R160 (e): with k entries after the pattern, its SYNC_B number k − P, counted from 0 (number 0 when
k ≤ P), stands where SYNC_A is needed. -/
theorem not_suffix_after_syncPattern (before rs : List Symbol) (hne : rs ≠ [])
    (hlt : rs.length < 2 * s.params.periodBlocks) : ¬ syncPattern s <:+ before ++ syncPattern s ++ rs := by
  have hpos := List.length_pos_iff.mpr hne
  obtain ⟨m, hm⟩ : ∃ m, s.params.periodBlocks = (rs.length - s.params.periodBlocks + 1) + m :=
    Nat.exists_eq_add_of_le (by omega)
  have hsplit : syncPattern s =
      List.replicate s.params.periodBlocks (syncA s.cfg.rxMax) ++
        List.replicate (rs.length - s.params.periodBlocks + 1) (syncB s.cfg.rxMax) ++
      List.replicate m (syncB s.cfg.rxMax) := by
    rw [List.append_assoc, ← List.replicate_add, ← hm]
    rfl
  have hlen : (List.replicate m (syncB s.cfg.rxMax) ++ rs).length = m + rs.length := by
    rw [List.length_append, List.length_replicate]
  have hnot : ¬ syncPattern s <:+
      (before ++ List.replicate s.params.periodBlocks (syncA s.cfg.rxMax) ++
        List.replicate (rs.length - s.params.periodBlocks + 1) (syncB s.cfg.rxMax)) ++
      (List.replicate m (syncB s.cfg.rxMax) ++ rs) :=
    not_suffix_of_early_syncB (getLast?_append_replicate_succ _ _ _) (by omega) (by omega)
  simpa only [hsplit, List.append_assoc] using hnot

end Recognizer

end Sys2Proof.Machine

open Sys2Proof Sys2Proof.Machine

/-- Settles O25, by induction on the pushes; after RAW_SYMBOL_MAX of them nothing of the old entries is left. -/
theorem historyKeepsTheNewest : Obligations.HistoryKeepsTheNewest := by
  refine ⟨fun s rs h => ⟨h.pushAll rs, histAll_pushAll h rs⟩, fun s rs h hlen => ?_⟩
  rw [histAll_pushAll h rs, List.rtake, List.length_append, Nat.add_sub_assoc hlen, List.drop_append,
    List.drop_of_length_le (Nat.le_add_right _ _), List.nil_append, Nat.add_sub_cancel_left]

/-- Settles O26: each clause says which entry at which distance from the history's end the pattern needs. -/
theorem syncMustPersist : Obligations.SyncMustPersist := by
  intro s h hP hmax a b period
  refine ⟨?exact, ?short, ?longA, ?longB, ?noRepeat, ?noSymbol⟩
  case exact =>
    rw [syncNow_iff_suffix]
    refine exists_congr fun before => ?_
    rw [eq_comm, List.append_assoc]
    rfl
  case short =>
    intro before run hhist hrun hlast
    rw [syncNow_eq_false_iff, hhist]
    exact not_suffix_of_foreign hrun hlast
  case longA =>
    intro before n hn hhist
    rw [syncNow_iff_suffix, hhist, ← Nat.sub_add_cancel hn, List.replicate_add, ← List.append_assoc before,
      List.append_assoc _ _ (List.replicate period b)]
    exact List.suffix_append _ (syncPattern s)
  case longB =>
    intro before n hn hhist
    rw [syncNow_eq_false_iff, hhist]
    exact not_suffix_of_long_syncB before hn (by omega)
  case noRepeat =>
    intro rs hsync hne hlt
    obtain ⟨before, hhist⟩ := syncNow_iff_suffix.mp hsync
    rw [syncNow_eq_false_iff, syncPattern_pushAll, histAll_pushAll h, ← hhist]
    exact fun hsuffix => not_suffix_after_syncPattern before rs hne hlt (hsuffix.trans (List.drop_suffix _ _))
  case noSymbol =>
    intro before after hhist hlt
    rw [syncNow_eq_false_iff, hhist]
    refine not_suffix_of_foreign hlt fun x hx => ?_
    rw [List.getLast?_concat] at hx
    obtain rfl := Option.some.inj hx
    exact ⟨(syncA_ne_noSymbol hmax).symm, (syncB_ne_noSymbol _).symm⟩

end

section
/-!
SUPPORT. The receive state machine (43_rx_state_machine.md): BLOCK's input, what each transition leaves (R185 to R192),
a processed block as one record for each kind of transition, and the table of R184 against the step.
-/

namespace Sys2Proof.Machine

/-! ### BLOCK and its input -/

/-- BLOCK with LOOP = 0 and a block on SIN (43_rx_state_machine.md R171). -/
theorem exec_block_of_sin {s : State} {X : List Sample} {rest : List (List Sample)} (hloop : s.cfg.loop = false)
    (hsin : s.port.sin = X :: rest) (hlen : X.length = s.params.fftSize) :
    exec .block s = .next (receiveBlock X { s with port.sin := rest }) := by
  simp only [exec, execBlock, selectBlock, sinBlock, hloop, hsin, hlen, Bool.false_eq_true, if_false, if_true]
  rfl

/-- BLOCK in loopback (43_rx_state_machine.md R171). -/
theorem exec_block_of_loop {s : State} (hloop : s.cfg.loop = true) :
    exec .block s = .next (receiveBlock (loopBlock s (txTickRegs s.params s.tx).1)
      { s with tx := (txTickRegs s.params s.tx).2 }) := by
  simp only [exec, execBlock, selectBlock, hloop, if_true]
  rfl

/-- The receive path does nothing in FatalError (43_rx_state_machine.md R172). -/
theorem receiveBlock_of_fatalError (X : List Sample) {s : State} (hs : s.rx.rxState = .fatalError) :
    receiveBlock X s = s := if_pos hs

theorem geometryOk_iff (p : Params) :
    geometryOk p = true ↔ 1 ≤ p.guardBlocks ∧ p.guardBlocks + 2 ≤ p.periodBlocks ∧ 2 ≤ p.offsetBlocks ∧
      p.offsetBlocks ≤ p.periodBlocks ∧ 2 * p.periodBlocks ≤ p.rawSymbolMax := by
  simp [geometryOk, and_assoc]

/-! ### FatalError and the commands -/

/-- RxClear does not leave FatalError (40_config_ops.md R104). -/
theorem rxClear_of_fatalError {s : State} (h : s.rx.rxState = .fatalError) :
    (rxClear s).rx.rxState = .fatalError := by
  have hr : (rxCleared s).rx.rxState = .fatalError := if_pos h
  by_cases hc : s.frm.cand = []
  · rw [rxClear_of_nil hc, hr]
  · rw [rxClear_of_ne hc, candsReported, hr]

/-- No setter leaves FatalError, accepted or rejected. -/
theorem setter_of_fatalError {which : BitVec 8} {valid : Bool} {code : BitVec 4} {rxAffecting : Bool}
    {c : ConfigRegs} {s : State} (h : s.rx.rxState = .fatalError) :
    (setter which valid code rxAffecting c s).rx.rxState = .fatalError := by
  cases rxAffecting with
  | false =>
    rw [setter_tx]
    split <;> exact h
  | true =>
    rw [setter_rx]
    split
    · rw [cfgInstalled]
      split
      · exact h
      · exact rxClear_of_fatalError h
    · exact h

/-- Only RESET leaves FatalError (43_rx_state_machine.md R172). -/
theorem exec_of_fatalError {s t : State} {i : Instr} (hs : s.rx.rxState = .fatalError) (hi : i ≠ .reset)
    (ht : exec i s = .next t) : t.rx.rxState = .fatalError := by
  cases i with
  | reset => exact absurd rfl hi
  | block =>
    obtain ⟨X, t', rfl, -, -, hrx⟩ := exists_receiveBlock_of_exec_block ht
    rw [← hrx] at hs
    rwa [receiveBlock_of_fatalError X hs]
  | nop | ack imm | irqen imm | txtick =>
    cases ht
    exact hs
  | setloop _ | settxrate _ | setrxrate _ | setamp _ | settxmin _ | settxmax _ | setrxmin _ | setrxmax _
  | setthresh _ =>
    cases ht
    exact setter_of_fatalError hs
  | ldp idx val | sendframe len cmd | sendsync =>
    cases ht
    split <;> exact hs

/-! ### The framer's part of a transition -/

/-- FrmDiscardAll in one record, whether candidates are in flight or not (44_framer.md R220). -/
theorem frmDiscardAll_eq (k : Work) :
    (frmDiscardAll k).s = { k.s with frm.cand := [] } ∧
      (frmDiscardAll k).resolved = k.resolved ++ discarded k.s.frm.cand := by
  by_cases h : k.s.frm.cand = []
  · rw [frmDiscardAll_of_nil h, ← h]
    exact ⟨rfl, by simp [h, discarded]⟩
  · rw [frmDiscardAll_of_ne h]
    exact ⟨rfl, rfl⟩

/-- An operation that ends in FrmOnSync reports the table, the evicted record among the removed ones (44_framer.md
R212, R221). -/
theorem frmFlush_frmOnSync (k : Work) :
    frmFlush (frmOnSync k) =
      candsReported (k.resolved ++ discarded (evictedBySync k.s)) (candidateOpened k.s.rx.syncId k.s) := rfl

/-- Entry to Error in one record, before its CANDS report (60_exceptions.md R267). -/
theorem raise_decodeAnomaly_s (code : BitVec 4) (k : Work) :
    (raise (.decodeAnomaly code) k).s =
      { k.s with
        rx.rxState := .error
        rx.syncValid := false
        rx.syncId := 0
        rx.clockValid := false
        rx.guardLeft := 0
        frm.cand := []
        diag.errCode := code
        diag.errCount := k.s.diag.errCount + 1 } := by
  rw [raise]
  simp only [frmDiscardAll_eq]
  rfl

/-! ### The Sync handler -/

/-- The Sync handler beyond the drift tolerance: a resynchronisation (43_rx_state_machine.md R187). -/
theorem syncHandler_of_drift {c : SampleCount} {k : Work} (h : k.s.params.driftTolerance < drift c k.s) :
    syncHandler c k = frmOnSync { resynchronise k with s := clockAnchor c (resynchronise k).s } := by
  simp only [syncHandler, if_pos h]

/-- The Sync handler within the drift tolerance: a re-confirmation (43_rx_state_machine.md R187). -/
theorem syncHandler_of_not_drift {c : SampleCount} {k : Work} (h : ¬ k.s.params.driftTolerance < drift c k.s) :
    syncHandler c k = frmOnSync { k with s := clockAnchor c k.s } := by
  simp only [syncHandler, if_neg h]

/-- A resynchronisation in one record (43_rx_state_machine.md R187). -/
theorem resynchronise_eq (k : Work) :
    (resynchronise k).s = newSyncId { k.s with frm.cand := [] } ∧
      (resynchronise k).resolved = k.resolved ++ discarded k.s.frm.cand := by
  rw [← (frmDiscardAll_eq k).1, ← (frmDiscardAll_eq k).2]
  exact ⟨rfl, rfl⟩

/-- The Sync handler touches no flag and no code. -/
theorem syncHandler_diag (c : SampleCount) (k : Work) : (syncHandler c k).s.diag = k.s.diag := by
  by_cases h : k.s.params.driftTolerance < drift c k.s
  · rw [syncHandler_of_drift h, (resynchronise_eq k).1]
    rfl
  · rw [syncHandler_of_not_drift h]
    rfl

/-! ### What a transition leaves in RXSTATE, ERRCODE and ERRCOUNT -/

/-- ERRCODE and ERRCOUNT stand. -/
structure KeepsErrors (s t : State) : Prop where
  errCode : t.diag.errCode = s.diag.errCode
  errCount : t.diag.errCount = s.diag.errCount

theorem KeepsErrors.refl (s : State) : KeepsErrors s s := ⟨rfl, rfl⟩

theorem KeepsErrors.of_diag {s t : State} (h : t.diag = s.diag) : KeepsErrors s t := ⟨by rw [h], by rw [h]⟩

theorem KeepsErrors.trans {a b c : State} (h : KeepsErrors a b) (g : KeepsErrors b c) : KeepsErrors a c :=
  ⟨g.errCode.trans h.errCode, g.errCount.trans h.errCount⟩

theorem foldl_settleFed_keepsErrors (fs : List Fed) (k : Work) : KeepsErrors k.s (fs.foldl settleFed k).s := by
  induction fs generalizing k with
  | nil => exact KeepsErrors.refl _
  | cons f fs ih =>
    refine KeepsErrors.trans ?_ (ih _)
    cases f <;> exact ⟨rfl, rfl⟩

theorem frmOnByte_keepsErrors (b : Byte) (idx : Id) (k : Work) : KeepsErrors k.s (frmOnByte b idx k).s := by
  by_cases h : k.s.frm.cand = []
  · rw [frmOnByte_of_nil b idx h]
    exact KeepsErrors.refl _
  · rw [frmOnByte_of_ne b idx h]
    refine KeepsErrors.trans ?_ (foldl_settleFed_keepsErrors _ _)
    exact ⟨rfl, rfl⟩

theorem forwardSymbol_keepsErrors (r : Symbol) (k : Work) : KeepsErrors k.s (forwardSymbol r k).s := by
  unfold forwardSymbol
  split
  · exact frmOnByte_keepsErrors _ _ _
  · exact KeepsErrors.refl _

theorem frmFlush_keepsErrors (k : Work) : KeepsErrors k.s (frmFlush k) := by
  cases h : k.changed
  · rw [frmFlush_of_unchanged h]
    exact KeepsErrors.refl _
  · rw [frmFlush_of_changed h]
    exact ⟨rfl, rfl⟩

/-- A transition enters its state (43_rx_state_machine.md R170, R185). -/
theorem makeMove_rxState {m : Move} (c : SampleCount) (r : Symbol) (k : Work) (h : m.target ≠ .fatalError) :
    (makeMove m c r k).s.rx.rxState = m.target := by
  cases m with
  | toFirstSyncWait | toFirstSync | toIdle | toGuard => rfl
  | toSymbol =>
    rw [makeMove, symbolHandler, (forwardSymbol_keeps r _).rx]
    rfl
  | toSync =>
    rw [makeMove, syncHandler, (frmOnSync_keeps _).rx]
    split
    · rw [(resynchronise_eq _).1]
      rfl
    · rfl
  | toError code =>
    rw [makeMove, raise_decodeAnomaly_s]
    rfl
  | stayFatal => exact absurd rfl h

/-- The anomaly's code of a transition to Error. -/
def Move.errorCode? : Move → Option (BitVec 4)
  | .toError code => some code
  | _ => none

/-- Entering Error sets its code (60_exceptions.md R263, R267). -/
theorem makeMove_errCode {m : Move} {code : BitVec 4} (c : SampleCount) (r : Symbol) (k : Work)
    (h : m.errorCode? = some code) : (makeMove m c r k).s.diag.errCode = code := by
  cases m with
  | toError code' =>
    rw [makeMove, raise_decodeAnomaly_s]
    exact Option.some.inj h
  | _ => cases h

/-- Only entering Error touches ERRCODE and ERRCOUNT. -/
theorem makeMove_keepsErrors {m : Move} (c : SampleCount) (r : Symbol) (k : Work) (h : m.errorCode? = none) :
    KeepsErrors k.s (makeMove m c r k).s := by
  cases m with
  | toFirstSyncWait | toFirstSync | toIdle | toGuard | stayFatal => exact ⟨rfl, rfl⟩
  | toSymbol =>
    refine KeepsErrors.trans ?_ (forwardSymbol_keepsErrors r _)
    exact ⟨rfl, rfl⟩
  | toSync =>
    rw [makeMove]
    refine KeepsErrors.trans ?_ (KeepsErrors.of_diag (syncHandler_diag c _))
    exact ⟨rfl, rfl⟩
  | toError code => cases h

/-! ### NextState, branch by branch -/

section NextState

variable {s : State} {sync sp : Bool} {r : Symbol}

/-- Initialisation is left at once (43_rx_state_machine.md R175). -/
theorem nextMove_of_idleInit (h : s.rx.rxState = .idleInit) : nextMove s sync sp r = .toFirstSyncWait := by
  simp only [nextMove, h]

/-- Error is left at once (43_rx_state_machine.md R184). -/
theorem nextMove_of_error (h : s.rx.rxState = .error) : nextMove s sync sp r = .toFirstSyncWait := by
  simp only [nextMove, h]

theorem nextMove_of_firstSyncWait (h : s.rx.rxState = .firstSyncWait) :
    nextMove s sync sp r = if sync then .toFirstSync else .toFirstSyncWait := by
  simp only [nextMove, h]

/-- A state that presumes a clock, without one (43_rx_state_machine.md R195). -/
theorem nextMove_of_unclocked (h : s.rx.rxState.clocked = true) (hc : s.rx.clockValid = false) :
    nextMove s sync sp r = .toError 3 := by
  unfold nextMove
  split
  case h_1 st | h_2 st | h_5 st | h_9 st =>
    rw [st] at h
    cases h
  all_goals simp [hc]

/-- A block after a sync: the recognizer is ignored (43_rx_state_machine.md R184). -/
theorem nextMove_after_sync (h : s.rx.rxState = .firstSync ∨ s.rx.rxState = .sync) (hc : s.rx.clockValid = true) :
    nextMove s sync sp r = .toIdle := by
  obtain h | h := h <;> simp only [nextMove, h, hc, if_true]

/-- A sync in mid-stream comes before anything else the state looks at (43_rx_state_machine.md R184). -/
theorem nextMove_of_midstream_sync (h : s.rx.rxState = .idle ∨ s.rx.rxState = .symbol ∨ s.rx.rxState = .guard)
    (hc : s.rx.clockValid = true) : nextMove s true sp r = .toSync := by
  obtain h | h | h := h <;> simp [nextMove, h, hc]

theorem nextMove_of_symbol (h : s.rx.rxState = .symbol) (hc : s.rx.clockValid = true) :
    nextMove s false sp r = .toGuard := by
  simp [nextMove, h, hc]

theorem nextMove_of_guard (h : s.rx.rxState = .guard) (hc : s.rx.clockValid = true) :
    nextMove s false sp r = if s.rx.guardLeft = 0 then .toIdle else .toGuard := by
  simp [nextMove, h, hc]

/-- Idle away from a sampling point. -/
theorem nextMove_of_idle_waiting (h : s.rx.rxState = .idle) (hc : s.rx.clockValid = true) :
    nextMove s false false r = .toIdle := by
  simp [nextMove, h, hc]

/-- Idle at a sampling point (43_rx_state_machine.md R180). -/
theorem nextMove_of_idle_sampling (h : s.rx.rxState = .idle) (hc : s.rx.clockValid = true) :
    nextMove s false true r = samplingMove (classify s.cfg r) s.frm.cand := by
  simp [nextMove, h, hc]

end NextState

/-! ### A processed block as one record, by its transition -/

section Blocks

variable {s : State} {r : Symbol}

/-- The transition of a block whose verdict is `r`, processed in state s. -/
def blockMove (s : State) (r : Symbol) : Move :=
  nextMove s (syncNow (histPush r s)) (s.rx.clockValid && s.rx.sampCnt == s.rx.nextSp) r

/-- FirstSyncWait handler: no state change (43_rx_state_machine.md R191). -/
theorem processVerdict_toFirstSyncWait (peak : Level) (h : blockMove s r = .toFirstSyncWait) :
    processVerdict r peak s = blockBooked r peak s { s with rx.rxState := .firstSyncWait } :=
  processVerdict_booked _ h

/-- Idle handler: no state change (43_rx_state_machine.md R191). -/
theorem processVerdict_toIdle (peak : Level) (h : blockMove s r = .toIdle) :
    processVerdict r peak s = blockBooked r peak s { s with rx.rxState := .idle } :=
  processVerdict_booked _ h

/-- Guard handler: GUARDLEFT counts down (43_rx_state_machine.md R189). -/
theorem processVerdict_toGuard (peak : Level) (h : blockMove s r = .toGuard) :
    processVerdict r peak s =
      blockBooked r peak s { s with rx.rxState := .guard, rx.guardLeft := s.rx.guardLeft - 1 } :=
  processVerdict_booked _ h

/-- FirstSync handler (43_rx_state_machine.md R186). -/
theorem processVerdict_toFirstSync (peak : Level) (h : blockMove s r = .toFirstSync) :
    processVerdict r peak s = blockBooked r peak s
      (candsReported (discarded (evictedBySync s))
        (candidateOpened s.rx.nextSyncId
          (anchoredAt s.rx.sampCnt
            { s with
              rx.rxState := .firstSync
              rx.syncId := s.rx.nextSyncId
              rx.syncValid := true
              rx.nextSyncId := s.rx.nextSyncId + 1 }))) := by
  rw [processVerdict_booked _ h, makeMove, firstSyncHandler, frmFlush_frmOnSync]
  rfl

/-- Sync handler within the drift tolerance (43_rx_state_machine.md R187). -/
theorem processVerdict_toSync_of_not_drift (peak : Level) (h : blockMove s r = .toSync)
    (hd : ¬ s.params.driftTolerance < drift s.rx.sampCnt s) :
    processVerdict r peak s = blockBooked r peak s
      (candsReported (discarded (evictedBySync s))
        (candidateOpened s.rx.syncId (anchoredAt s.rx.sampCnt { s with rx.rxState := .sync }))) := by
  rw [processVerdict_booked _ h, makeMove, syncHandler_of_not_drift hd, frmFlush_frmOnSync]
  rfl

/-- An empty table loses nothing to a new candidate (44_framer.md R212). -/
theorem discarded_evictedBySync_of_nil {t : State} (h : t.frm.cand = []) : discarded (evictedBySync t) = [] := by
  rw [evictedBySync, h]
  split <;> rfl

/-- Sync handler beyond the drift tolerance (43_rx_state_machine.md R187). -/
theorem processVerdict_toSync_of_drift (peak : Level) (h : blockMove s r = .toSync)
    (hd : s.params.driftTolerance < drift s.rx.sampCnt s) :
    processVerdict r peak s = blockBooked r peak s
      (candsReported (discarded s.frm.cand)
        (candidateOpened s.rx.nextSyncId
          (anchoredAt s.rx.sampCnt
            { s with
              rx.rxState := .sync
              rx.syncId := s.rx.nextSyncId
              rx.syncValid := true
              rx.nextSyncId := s.rx.nextSyncId + 1
              frm.cand := [] }))) := by
  rw [processVerdict_booked _ h, makeMove, syncHandler_of_drift hd, frmFlush_frmOnSync]
  simp only [resynchronise_eq]
  rw [discarded_evictedBySync_of_nil (by rfl), List.append_nil]
  rfl

/-- A processed block ends in the state its transition enters. -/
theorem processVerdict_rxState (peak : Level) (h : (blockMove s r).target ≠ .fatalError) :
    (processVerdict r peak s).rx.rxState = (blockMove s r).target := by
  rw [processVerdict_booked _ rfl, blockBooked, (frmFlush_keeps _).rx]
  exact makeMove_rxState _ _ _ h

/-- A processed block that enters Error sets the anomaly's code. -/
theorem processVerdict_errCode {code : BitVec 4} (peak : Level) (h : (blockMove s r).errorCode? = some code) :
    (processVerdict r peak s).diag.errCode = code := by
  rw [processVerdict_booked _ rfl, blockBooked, (frmFlush_keepsErrors _).errCode]
  exact makeMove_errCode _ _ _ h

/-- Any other processed block leaves ERRCODE and ERRCOUNT. -/
theorem processVerdict_keepsErrors (peak : Level) (h : (blockMove s r).errorCode? = none) :
    KeepsErrors s (processVerdict r peak s) := by
  rw [processVerdict_booked _ rfl]
  have hmove := makeMove_keepsErrors s.rx.sampCnt r (.start (histPush r s)) h
  have hflush := hmove.trans (frmFlush_keepsErrors _)
  exact ⟨hflush.errCode, hflush.errCount⟩

end Blocks

/-! ### The transition table: no two rows apply -/

/-- Two columns no bit matches both of. -/
def columnsClash : Option Bool → Option Bool → Bool
  | some a, some b => a != b
  | _, _ => false

theorem not_columnMatches_of_clash {a b : Option Bool} (h : columnsClash a b = true) (v : Bool) :
    ¬ (columnMatches a v = true ∧ columnMatches b v = true) := by
  unfold columnsClash at h
  split at h
  next x y =>
    simp only [columnMatches, Option.all_some, beq_iff_eq]
    rintro ⟨rfl, rfl⟩
    simp at h
  next => cases h

/-- Two conditions of the column "other", in the table's order, that no block meets both of. -/
def OtherCondition.clash : OtherCondition → OtherCondition → Bool
  | .lostSync, .notByte | .lostSync, .otherwise | .notByte, .otherwise | .guardOver, .guardLeft => true
  | _, _ => false

theorem OtherCondition.not_holds_of_clash {a b : OtherCondition} (h : a.clash b = true) (s : State) (r : Symbol) :
    ¬ (a.holds s r = true ∧ b.holds s r = true) := by
  unfold OtherCondition.clash at h
  split at h
  case h_1 =>
    simp only [OtherCondition.holds, Bool.and_eq_true, beq_iff_eq]
    rintro ⟨⟨hlost, -⟩, hbad⟩
    exact absurd (hlost.symm.trans hbad) (by decide)
  case h_2 | h_3 | h_4 => simp +contextual [OtherCondition.holds]
  case h_5 => cases h

/-- Two rows that differ in a column both look at. -/
def TransitionRow.clash (t u : TransitionRow) : Bool :=
  t.fromState != u.fromState || columnsClash t.clockValid u.clockValid || columnsClash t.syncNow u.syncNow ||
    columnsClash t.isSp u.isSp || t.other.clash u.other

section Rows

variable {s : State} {sync sp : Bool} {r : Symbol}

theorem TransitionRow.applies_iff {t : TransitionRow} :
    t.applies s sync sp r = true ↔
      t.fromState = s.rx.rxState ∧ columnMatches t.clockValid s.rx.clockValid = true ∧
        columnMatches t.syncNow sync = true ∧ columnMatches t.isSp sp = true ∧ t.other.holds s r = true := by
  simp only [TransitionRow.applies, Bool.and_eq_true, beq_iff_eq, and_assoc]

theorem TransitionRow.not_applies_of_clash {t u : TransitionRow} (h : t.clash u = true) :
    ¬ (t.applies s sync sp r = true ∧ u.applies s sync sp r = true) := by
  simp only [TransitionRow.clash, Bool.or_eq_true, bne_iff_ne] at h
  simp only [TransitionRow.applies_iff]
  rintro ⟨⟨htf, htc, hts, htp, hto⟩, huf, huc, hus, hup, huo⟩
  obtain (((h | h) | h) | h) | h := h
  · exact h (htf.trans huf.symm)
  · exact not_columnMatches_of_clash h _ ⟨htc, huc⟩
  · exact not_columnMatches_of_clash h _ ⟨hts, hus⟩
  · exact not_columnMatches_of_clash h _ ⟨htp, hup⟩
  · exact OtherCondition.not_holds_of_clash h s r ⟨hto, huo⟩

/-- Any two rows of the table differ in a column both look at. -/
theorem transitionTable_clash : transitionTable.Pairwise fun t u => t.clash u = true := by decide

/-- At most one row of the table applies. -/
theorem row_unique {t u : TransitionRow} (ht : t ∈ transitionTable) (hu : u ∈ transitionTable)
    (hat : t.applies s sync sp r = true) (hau : u.applies s sync sp r = true) : t = u := by
  by_contra hne
  have hsymm : Std.Symm fun t u : TransitionRow =>
      ¬ (t.applies s sync sp r = true ∧ u.applies s sync sp r = true) := ⟨fun _ _ h hb => h hb.symm⟩
  exact (transitionTable_clash.imp TransitionRow.not_applies_of_clash).forall ht hu hne ⟨hat, hau⟩

/-! ### The transition table: the row of each transition -/

/-- The transition a row stands for; no row leads to IdleInit or FatalError. -/
def TransitionRow.move (t : TransitionRow) : Move :=
  match t.toState with
  | .firstSyncWait => .toFirstSyncWait
  | .firstSync => .toFirstSync
  | .idle => .toIdle
  | .symbol => .toSymbol
  | .sync => .toSync
  | .guard => .toGuard
  | .error => .toError (t.code.getD 0)
  | .idleInit | .fatalError => .stayFatal

theorem TransitionRow.move_of_mem : ∀ t ∈ transitionTable,
    t.move.target = t.toState ∧ t.move.errorCode? = t.code ∧ t.toState ≠ .fatalError := by decide

@[simp] theorem columnMatches_none (v : Bool) : columnMatches none v = true := rfl
@[simp] theorem columnMatches_some (b v : Bool) : columnMatches (some b) v = (b == v) := rfl
@[simp] theorem OtherCondition.holds_any (s : State) (r : Symbol) : OtherCondition.any.holds s r = true := rfl

/-- The row of each branch of a sampling point in Idle (43_rx_state_machine.md R180). -/
theorem exists_row_of_idle_sampling (st : s.rx.rxState = .idle) (hc : s.rx.clockValid = true) :
    ∃ t ∈ transitionTable, t.applies s false true r = true ∧ nextMove s false true r = t.move := by
  rw [nextMove_of_idle_sampling st hc, samplingMove]
  by_cases hlost : classify s.cfg r = .nothing ∧ s.frm.cand ≠ []
  · exact ⟨⟨.idle, some true, some false, some true, .lostSync, .error, some 1⟩, by decide,
      by simp [TransitionRow.applies_iff, OtherCondition.holds, st, hc, hlost], if_pos hlost⟩
  rw [if_neg hlost]
  by_cases hbad : classify s.cfg r = .notByte
  · exact ⟨⟨.idle, some true, some false, some true, .notByte, .error, some 2⟩, by decide,
      by simp [TransitionRow.applies_iff, OtherCondition.holds, st, hc, hbad], if_pos hbad⟩
  · exact ⟨⟨.idle, some true, some false, some true, .otherwise, .symbol, none⟩, by decide,
      by simpa [TransitionRow.applies_iff, OtherCondition.holds, st, hc, hbad, or_iff_not_imp_left] using hlost,
      if_neg hbad⟩

/-- The table's row for the invalid clock, written out for each state that presumes one (43_rx_state_machine.md
R195). -/
theorem exists_row_of_unclocked (h : s.rx.rxState.clocked = true) (hc : s.rx.clockValid = false) :
    ∃ t ∈ transitionTable, t.applies s sync sp r = true ∧ nextMove s sync sp r = t.move := by
  have hmem : ∀ st : RxState, st.clocked = true →
      (⟨st, some false, none, none, .any, .error, some 3⟩ : TransitionRow) ∈ transitionTable := by
    intro st hst
    cases st with
    | firstSync | idle | symbol | sync | guard => decide
    | _ => cases hst
  exact ⟨_, hmem _ h, by simp [TransitionRow.applies_iff, hc], nextMove_of_unclocked h hc⟩

/-- The row of each branch of NextState (43_rx_state_machine.md R175 to R182). -/
theorem exists_row_of_nextMove (hs : s.rx.rxState ≠ .fatalError) :
    ∃ t ∈ transitionTable, t.applies s sync sp r = true ∧ nextMove s sync sp r = t.move := by
  by_cases hunclocked : s.rx.rxState.clocked = true ∧ s.rx.clockValid = false
  · exact exists_row_of_unclocked hunclocked.1 hunclocked.2
  have hclock (h : s.rx.rxState.clocked = true) : s.rx.clockValid = true := by
    rw [← Bool.not_eq_false]
    exact fun hc => hunclocked ⟨h, hc⟩
  cases st : s.rx.rxState with
  | fatalError => exact absurd st hs
  | idleInit =>
    exact ⟨⟨.idleInit, none, none, none, .any, .firstSyncWait, none⟩, by decide,
      by simp [TransitionRow.applies_iff, st], nextMove_of_idleInit st⟩
  | error =>
    exact ⟨⟨.error, none, none, none, .any, .firstSyncWait, none⟩, by decide,
      by simp [TransitionRow.applies_iff, st], nextMove_of_error st⟩
  | firstSyncWait =>
    cases sync with
    | true =>
      exact ⟨⟨.firstSyncWait, none, some true, none, .any, .firstSync, none⟩, by decide,
        by simp [TransitionRow.applies_iff, st], nextMove_of_firstSyncWait st⟩
    | false =>
      exact ⟨⟨.firstSyncWait, none, some false, none, .any, .firstSyncWait, none⟩, by decide,
        by simp [TransitionRow.applies_iff, st], nextMove_of_firstSyncWait st⟩
  | firstSync =>
    have hc := hclock (by rw [st]; rfl)
    exact ⟨⟨.firstSync, some true, none, none, .any, .idle, none⟩, by decide,
      by simp [TransitionRow.applies_iff, st, hc], nextMove_after_sync (.inl st) hc⟩
  | sync =>
    have hc := hclock (by rw [st]; rfl)
    exact ⟨⟨.sync, some true, none, none, .any, .idle, none⟩, by decide,
      by simp [TransitionRow.applies_iff, st, hc], nextMove_after_sync (.inr st) hc⟩
  | idle =>
    have hc := hclock (by rw [st]; rfl)
    cases sync with
    | true =>
      exact ⟨⟨.idle, some true, some true, none, .any, .sync, none⟩, by decide,
        by simp [TransitionRow.applies_iff, st, hc], nextMove_of_midstream_sync (.inl st) hc⟩
    | false =>
      cases sp with
      | true => exact exists_row_of_idle_sampling st hc
      | false =>
        exact ⟨⟨.idle, some true, some false, some false, .any, .idle, none⟩, by decide,
          by simp [TransitionRow.applies_iff, st, hc], nextMove_of_idle_waiting st hc⟩
  | symbol =>
    have hc := hclock (by rw [st]; rfl)
    cases sync with
    | true =>
      exact ⟨⟨.symbol, some true, some true, none, .any, .sync, none⟩, by decide,
        by simp [TransitionRow.applies_iff, st, hc], nextMove_of_midstream_sync (.inr (.inl st)) hc⟩
    | false =>
      exact ⟨⟨.symbol, some true, some false, none, .any, .guard, none⟩, by decide,
        by simp [TransitionRow.applies_iff, st, hc], nextMove_of_symbol st hc⟩
  | guard =>
    have hc := hclock (by rw [st]; rfl)
    cases sync with
    | true =>
      exact ⟨⟨.guard, some true, some true, none, .any, .sync, none⟩, by decide,
        by simp [TransitionRow.applies_iff, st, hc], nextMove_of_midstream_sync (.inr (.inr st)) hc⟩
    | false =>
      by_cases hleft : s.rx.guardLeft = 0
      · exact ⟨⟨.guard, some true, some false, none, .guardOver, .idle, none⟩, by decide,
          by simp [TransitionRow.applies_iff, OtherCondition.holds, st, hc, hleft],
          (nextMove_of_guard st hc).trans (if_pos hleft)⟩
      · exact ⟨⟨.guard, some true, some false, none, .guardLeft, .guard, none⟩, by decide,
          by simpa [TransitionRow.applies_iff, OtherCondition.holds, st, hc] using hleft,
          (nextMove_of_guard st hc).trans (if_neg hleft)⟩

end Rows

end Sys2Proof.Machine

open Sys2Proof Sys2Proof.Machine

/-- Settles O31: the geometry by `geometryOk_iff`, the entry by the check the receive path makes on BLOCK's input. -/
theorem fatalConfigurationIsEntered : Obligations.FatalConfigurationIsEntered := by
  refine ⟨fun p c => ?_, fun s X rest hs hc hloop hsin hlen => ?_, fun s hs hc hloop => ?_⟩
  · simp only [fatalCode, geometryOk_iff]
  · rw [exec_block_of_sin hloop hsin hlen, receiveBlock_of_fatalCode_ne (s := { s with port.sin := rest }) hs hc]
  · rw [exec_block_of_loop hloop,
      receiveBlock_of_fatalCode_ne (s := { s with tx := (txTickRegs s.params s.tx).2 }) hs hc]

/-- Settles O33: a row for each branch of NextState, no two of which apply together, and the block ends where its
transition leads. (The name `transitionTable` is the table's own.) -/
theorem transitionTableHolds : Obligations.TransitionTable := by
  refine ⟨fun s X => receiveBlock_of_fatalError X, fun s r peak hs => ?_⟩
  obtain ⟨row, hmem, happlies, hmove⟩ := exists_row_of_nextMove hs
  obtain ⟨htarget, hcode, hfatal⟩ := row.move_of_mem hmem
  rw [← hmove] at htarget hcode
  refine ⟨row, hmem, fun other hother => ⟨fun h => row_unique hother hmem h happlies, fun h => h ▸ happlies⟩, ?_,
    fun code hc => processVerdict_errCode peak (hcode.trans hc), fun hc => ?_⟩
  · exact (processVerdict_rxState peak (htarget.trans_ne hfatal)).trans htarget
  · obtain ⟨herr, hcount⟩ := processVerdict_keepsErrors peak (hcode.trans hc)
    exact ⟨herr, hcount⟩

/-- Settles O34: each quiet block by its transition. -/
theorem quietBlocksOnlyBook : Obligations.QuietBlocksOnlyBook := by
  intro s r peak
  refine ⟨fun h => processVerdict_toFirstSyncWait peak ?_, fun hc h => processVerdict_toIdle peak ?_,
    fun hc hsync h => processVerdict_toGuard peak ?_⟩
  · obtain st | st | ⟨st, hsync⟩ := h
    · exact nextMove_of_idleInit st
    · exact nextMove_of_error st
    · rw [blockMove, hsync]
      exact nextMove_of_firstSyncWait st
  · obtain st | st | ⟨st, hsync, hsp⟩ | ⟨st, hsync, hleft⟩ := h
    · exact nextMove_after_sync (.inl st) hc
    · exact nextMove_after_sync (.inr st) hc
    · rw [blockMove, hsync, beq_false_of_ne hsp, Bool.and_false]
      exact nextMove_of_idle_waiting st hc
    · rw [blockMove, hsync, nextMove_of_guard st hc, if_pos hleft]
  · rw [blockMove, hsync]
    obtain st | ⟨st, hleft⟩ := h
    · exact nextMove_of_symbol st hc
    · rw [nextMove_of_guard st hc, if_neg hleft]

/-- Settles O35: the transition to FirstSync and its handler. -/
theorem firstSyncAcquires : Obligations.FirstSyncAcquires := by
  intro s r peak st hsync
  refine processVerdict_toFirstSync peak ?_
  rw [blockMove, hsync]
  exact nextMove_of_firstSyncWait st

/-- Settles O36: the transition to Sync, and its handler on each side of the drift tolerance. -/
theorem midstreamSync : Obligations.MidstreamSync := by
  intro s r peak st hc hsync
  have hmove : blockMove s r = .toSync := by
    rw [blockMove, hsync]
    exact nextMove_of_midstream_sync st hc
  exact ⟨fun hd => processVerdict_toSync_of_not_drift peak hmove (not_lt.2 hd),
    fun hd _ => processVerdict_toSync_of_drift peak hmove hd⟩

/-- Settles O30: BLOCK by its input and the receive path's first check, every command by `exec_of_fatalError`. -/
theorem fatalErrorIgnoresBlocks : Obligations.FatalErrorIgnoresBlocks := by
  refine ⟨fun s X rest hs hloop hsin hlen => ?_, fun s hs hloop => ?_, fun s t i => exec_of_fatalError⟩
  · rw [exec_block_of_sin hloop hsin hlen, receiveBlock_of_fatalError X (s := { s with port.sin := rest }) hs]
  · rw [exec_block_of_loop hloop,
      receiveBlock_of_fatalError _ (s := { s with tx := (txTickRegs s.params s.tx).2 }) hs]

end

section
/-!
SUPPORT. The bytes of a frame (44_framer.md R210, R211): a header is its three fields side by side, each of which is
read back from it, and the checksum is the sum of the bytes.
-/

namespace Sys2Proof.Machine

/-! ### The header -/

/-- With a length of four bits the disjunction of R210 is the header's three fields side by side. -/
theorem frameHeader_eq_append {len : Nat} (hlen : len < 16) (cmd : Bool) :
    frameHeader len cmd = (0b111#3 ++ BitVec.ofBool cmd) ++ BitVec.ofNat 4 len := by
  have hhigh : 0xE0#8 ||| (BitVec.ofBool cmd).setWidth 8 <<< 4 = (0b111#3 ++ BitVec.ofBool cmd) ++ 0#4 := by
    cases cmd <;> rfl
  have hlow : BitVec.ofNat 8 len = 0#4 ++ BitVec.ofNat 4 len := by
    refine BitVec.eq_of_toNat_eq ?_
    rw [BitVec.toNat_append, BitVec.toNat_ofNat, BitVec.toNat_ofNat, BitVec.toNat_ofNat, Nat.zero_mod,
      Nat.zero_shiftLeft, Nat.zero_or]
    omega
  calc frameHeader len cmd
      = (0b111#3 ++ BitVec.ofBool cmd) ++ 0#4 ||| (0#4 ++ BitVec.ofNat 4 len) := by rw [← hhigh, ← hlow]; rfl
    _ = (0b111#3 ++ BitVec.ofBool cmd) ++ BitVec.ofNat 4 len := by
      rw [BitVec.or_append, BitVec.or_zero, BitVec.zero_or]

/-- The frame type of a transmitted header. -/
theorem extractLsb'_frameHeader {len : Nat} (hlen : len < 16) (cmd : Bool) :
    (frameHeader len cmd).extractLsb' 5 3 = 0b111 := by
  rw [frameHeader_eq_append hlen, BitVec.extractLsb'_append_eq_of_le (by decide)]
  exact BitVec.extractLsb'_append_eq_left

theorem headerIsCommand_frameHeader {len : Nat} (hlen : len < 16) (cmd : Bool) :
    headerIsCommand (frameHeader len cmd) = cmd := by
  rw [headerIsCommand, frameHeader_eq_append hlen, BitVec.getLsbD_append, if_neg (by decide), BitVec.getLsbD_append,
    if_pos (by decide)]
  simp

theorem headerLength_frameHeader {len : Nat} (hlen : len < 16) (cmd : Bool) :
    headerLength (frameHeader len cmd) = len := by
  rw [headerLength, frameHeader_eq_append hlen, BitVec.extractLsb'_append_eq_right, BitVec.toNat_ofNat,
    Nat.mod_eq_of_lt hlen]

/-! ### The checksum -/

theorem checksum_eq_sum (bs : List Byte) : checksum bs = bs.sum := List.sum_eq_foldl.symm

theorem toNat_checksum (bs : List Byte) : (checksum bs).toNat = (bs.map BitVec.toNat).sum % 2 ^ 8 := by
  rw [checksum_eq_sum]
  induction bs with
  | nil => rfl
  | cons b bs ih => rw [List.sum_cons, BitVec.toNat_add, ih, List.map_cons, List.sum_cons, Nat.add_mod_mod]

end Sys2Proof.Machine

open Sys2Proof Sys2Proof.Machine

/-- Settles O17: the checksum as a sum, and the header by its three fields; the worked example is evaluated. -/
theorem encodedFrameBytes : Obligations.EncodedFrameBytes := by
  refine ⟨toNat_checksum, fun payload cmd hlen => ?_, by decide⟩
  have hlen : payload.length < 16 := Nat.lt_succ_of_le hlen
  exact ⟨frameHeader payload.length cmd, extractLsb'_frameHeader hlen cmd, headerIsCommand_frameHeader hlen cmd,
    headerLength_frameHeader hlen cmd, rfl⟩

end

section
/-!
SUPPORT. The framer over the bytes of one frame (44_framer.md R212 to R219): what a byte does to a candidate, what the
bytes of a frame do to the one candidate in flight, and the Frame they make; and the byte a data symbol stands for.
-/

namespace Sys2Proof.Machine

/-! ### Data symbols -/

theorem toNat_byteToSymbol (symbolMin : BitVec 15) (b : Byte) :
    (byteToSymbol symbolMin b).toNat = symbolMin.toNat + b.toNat := by
  have hmin := symbolMin.isLt
  have hb := b.isLt
  rw [byteToSymbol, BitVec.toNat_add, BitVec.toNat_setWidth, BitVec.toNat_setWidth]
  omega

/-- The value of a byte's symbol is the byte (00_scope.md R14). -/
theorem symbolToValue_byteToSymbol (symbolMin : BitVec 15) (b : Byte) :
    symbolToValue symbolMin (byteToSymbol symbolMin b).toNat = b.toNat := by
  rw [symbolToValue, toNat_byteToSymbol, Nat.add_sub_cancel_left]

/-! ### One byte and one candidate -/

/-- A candidate that has accumulated the bytes `fed`, each with its block index (44_framer.md R213). -/
def Candidate.withBytes (x : Candidate) (fed : List (Byte × Id)) : Candidate :=
  { x with received := x.received ++ fed.map Prod.fst, symbolId := x.symbolId ++ fed.map Prod.snd }

section OneCandidate

variable {payloadMax : Nat} {x : Candidate}

@[simp] theorem Candidate.withBytes_nil (x : Candidate) : x.withBytes [] = x := by
  simp [Candidate.withBytes]

@[simp] theorem Candidate.withBytes_withBytes (x : Candidate) (fed more : List (Byte × Id)) :
    (x.withBytes fed).withBytes more = x.withBytes (fed ++ more) := by
  simp [Candidate.withBytes]

/-- The number of bytes of a whole frame fits the 8 bits of `expected` (10_state.md R41). -/
theorem toNat_expected {len : Nat} (hlen : len < 16) : (BitVec.ofNat 8 (len + 2)).toNat = len + 2 := by
  rw [BitVec.toNat_ofNat]
  omega

theorem headerLength_lt (h : Byte) : headerLength h < 16 := (h.extractLsb' 0 4).isLt

theorem judgeIfComplete_of_length_eq {e : BitVec 8} (he : x.expected = some e) (hlen : x.received.length = e.toNat) :
    judgeIfComplete x = judge x := by
  rw [judgeIfComplete, he, hlen]
  exact if_pos rfl

theorem judgeIfComplete_of_length_ne {e : BitVec 8} (he : x.expected = some e) (hlen : x.received.length ≠ e.toNat) :
    judgeIfComplete x = .kept x := by
  rw [judgeIfComplete, he]
  exact if_neg fun h => hlen (Option.some.inj h).symm

/-- The first byte is the header, and an acceptable one is parsed (44_framer.md R214). -/
theorem feed_header {h : Byte} (idx : Id) (hx : x.received = []) (hlen : headerLength h ≤ payloadMax) :
    feed payloadMax h idx x = .kept (parseHeader h (x.withBytes [(h, idx)])) := by
  have hone : (x.withBytes [(h, idx)]).received.length = 1 := by simp [Candidate.withBytes, hx]
  have hincomplete : (parseHeader h (x.withBytes [(h, idx)])).received.length ≠
      (BitVec.ofNat 8 (headerLength h + 2)).toNat := by
    rw [toNat_expected (headerLength_lt h)]
    exact hone.trans_ne (by omega)
  exact (if_pos hone).trans ((if_neg (not_lt.2 hlen)).trans (judgeIfComplete_of_length_ne rfl hincomplete))

/-- A later byte accumulates, and the candidate is judged when it is complete (44_framer.md R213). -/
theorem feed_after_header (b : Byte) (idx : Id) (hx : x.received ≠ []) :
    feed payloadMax b idx x = judgeIfComplete (x.withBytes [(b, idx)]) := by
  refine if_neg ?_
  rw [List.length_append, List.length_singleton, Nat.add_eq_right, List.length_eq_zero_iff]
  exact hx

/-- A byte short of the last one accumulates. -/
theorem feed_incomplete {e : BitVec 8} (b : Byte) (idx : Id) (hx : x.received ≠ []) (he : x.expected = some e)
    (hlen : x.received.length + 1 ≠ e.toNat) : feed payloadMax b idx x = .kept (x.withBytes [(b, idx)]) := by
  rw [feed_after_header b idx hx]
  exact judgeIfComplete_of_length_ne he (by simpa [Candidate.withBytes] using hlen)

/-- The last byte completes the candidate, and it is judged (44_framer.md R215). -/
theorem feed_complete {e : BitVec 8} (b : Byte) (idx : Id) (hx : x.received ≠ []) (he : x.expected = some e)
    (hlen : x.received.length + 1 = e.toNat) : feed payloadMax b idx x = judge (x.withBytes [(b, idx)]) := by
  rw [feed_after_header b idx hx]
  exact judgeIfComplete_of_length_eq he (by simpa [Candidate.withBytes] using hlen)

theorem payloadLength_of_expected {len : Nat} (hlen : len < 16) (he : x.expected = some (BitVec.ofNat 8 (len + 2))) :
    x.payloadLength = len := by
  rw [Candidate.payloadLength, he, Option.getD_some, toNat_expected hlen, Nat.add_sub_cancel]

section Complete

variable {h c : Byte} {payload : List Byte} (hlen : payload.length < 16) (hrec : x.received = [h] ++ payload ++ [c])
  (he : x.expected = some (BitVec.ofNat 8 (payload.length + 2)))

include hlen hrec he

/-- The verdict on a complete candidate: the checksum of its header and payload against its last byte (44_framer.md
R216). -/
theorem judge_complete :
    judge x = if checksum ([h] ++ payload) = c then .matched { x with isValid := .valid }
      else .failed { x with isValid := .invalid } := by
  rw [judge, payloadLength_of_expected hlen he, hrec]
  simp

/-- The Frame of a complete candidate, field by field (44_framer.md R218). -/
theorem frameOf_complete (id : Id) :
    frameOf id x =
      { id := id, header := h, payload := payload, checksum := c, isCommand := headerIsCommand h
        frameCandidateId := x.id } := by
  rw [frameOf, payloadLength_of_expected hlen he, hrec]
  simp

end Complete

end OneCandidate

/-! ### The bytes of a frame and the one candidate in flight -/

/-- The middle of an operation with `x` alone in flight. -/
def holding (x : Candidate) (s : State) (resolved : List (Id × Verdict)) : Work :=
  { s := { s with frm.cand := [x] }, resolved := resolved, changed := true }

/-- The middle of an operation in which `fed`, what became of the one candidate, is all there is to settle
(44_framer.md R213). -/
def settled (fed : Fed) (s : State) (resolved : List (Id × Verdict)) : Work :=
  settleFed { s := { s with frm.cand := [] }, resolved := resolved, changed := true } fed

/-- The candidate a sync opens in state `s` (44_framer.md R212). -/
def newCandidate (s : State) : Candidate :=
  { id := s.frm.nextCandId, received := [], expected := none, isValid := .unknown, symbolId := []
    syncId := s.rx.syncId }

/-- The state with the next candidate id given away (44_framer.md R212). -/
def candIdTaken (s : State) : State := { s with frm.nextCandId := s.frm.nextCandId + 1 }

/-- A sync with an empty table opens the one candidate. -/
theorem frmOnSync_start_of_nil {s : State} (h : s.frm.cand = []) :
    frmOnSync (.start s) = holding (newCandidate s) (candIdTaken s) [] := by
  simp only [frmOnSync, Work.start, h, List.take_nil, List.drop_nil, ite_self]
  rfl

theorem deliverBytes_append (fed more : List (Byte × Id)) (k : Work) :
    deliverBytes (fed ++ more) k = deliverBytes more (deliverBytes fed k) := by
  induction fed generalizing k with
  | nil => rfl
  | cons b fed ih => exact ih _

section Delivery

variable {x : Candidate} {s : State} {resolved : List (Id × Verdict)}

theorem frmOnByte_holding (b : Byte) (idx : Id) :
    frmOnByte b idx (holding x s resolved) = settled (feed s.params.payloadMax b idx x) s resolved :=
  frmOnByte_of_ne b idx (List.cons_ne_nil _ _)

/-- A judged candidate whose checksum matches leaves as a Frame (44_framer.md R218, R219). -/
theorem settled_valid (y : Candidate) :
    settled (.matched { y with isValid := .valid }) s resolved =
      { s :=
          { s with
            frm.cand := []
            frm.nextFrameId := s.frm.nextFrameId + 1
            frm.lastFrame := frameOf s.frm.nextFrameId y
            frm.lastFrameValid := true
            diag.status := s.diag.status ||| 0x01
            port.evt := s.port.evt ++ [.frame (frameOf s.frm.nextFrameId y)] }
        resolved := resolved ++ [(y.id, .valid)]
        changed := true } := rfl

theorem settled_kept (y : Candidate) : settled (.kept y) s resolved = holding y s resolved := rfl

/-- Bytes short of the last one accumulate in the candidate (44_framer.md R213). -/
theorem deliverBytes_incomplete {e : BitVec 8} {fed : List (Byte × Id)} (hx : x.received ≠ [])
    (he : x.expected = some e) (hlen : x.received.length + fed.length < e.toNat) :
    deliverBytes fed (holding x s resolved) = holding (x.withBytes fed) s resolved := by
  induction fed generalizing x with
  | nil => rw [deliverBytes, Candidate.withBytes_nil]
  | cons byte fed ih =>
    obtain ⟨b, idx⟩ := byte
    rw [List.length_cons] at hlen
    rw [deliverBytes, frmOnByte_holding, feed_incomplete b idx hx he (by omega), settled_kept, ih,
      Candidate.withBytes_withBytes, List.singleton_append]
    · simp [Candidate.withBytes]
    · exact he
    · rw [Candidate.withBytes, List.length_append, List.length_map, List.length_singleton]
      omega

/-- A candidate that has received a whole frame with header `h` (44_framer.md R214, R215). -/
def Candidate.afterFrame (x : Candidate) (h : Byte) (fed : List (Byte × Id)) : Candidate :=
  (parseHeader h x).withBytes fed

theorem Candidate.afterFrame_received {h : Byte} {bs : List Byte} {fed : List (Byte × Id)}
    (hfed : fed.map Prod.fst = bs) (hx : x.received = []) : (x.afterFrame h fed).received = bs := by
  rw [← hfed]
  exact congrArg (· ++ _) hx

theorem Candidate.afterFrame_expected {h : Byte} {len : Nat} {fed : List (Byte × Id)}
    (hheader : headerLength h = len) :
    (x.afterFrame h fed).expected = some (BitVec.ofNat 8 (len + 2)) := by
  rw [← hheader]
  rfl

/-- The bytes of a whole frame given to a new candidate end in its verdict (44_framer.md R213 to R216). -/
theorem deliverBytes_frame {h c : Byte} {payload : List Byte} {fed : List (Byte × Id)}
    (hfed : fed.map Prod.fst = [h] ++ payload ++ [c]) (hheader : headerLength h = payload.length)
    (hmax : payload.length ≤ s.params.payloadMax) (hx : x.received = []) :
    deliverBytes fed (holding x s resolved) = settled (judge (x.afterFrame h fed)) s resolved := by
  obtain ⟨_, _, rfl, hfront, hlast⟩ := List.map_eq_append_iff.1 hfed
  obtain ⟨_, body, rfl, hfirst, hbody⟩ := List.map_eq_append_iff.1 hfront
  obtain ⟨⟨h', i⟩, rfl, hh⟩ := List.map_eq_singleton_iff.1 hfirst
  obtain ⟨⟨c', j⟩, rfl, -⟩ := List.map_eq_singleton_iff.1 hlast
  obtain rfl : h = h' := hh.symm
  subst hbody
  have hexp : (BitVec.ofNat 8 (headerLength h + 2)).toNat = body.length + 2 := by
    rw [toNat_expected (headerLength_lt h), hheader, List.length_map]
  have hfirstByte : deliverBytes [(h, i)] (holding x s resolved) =
      holding ((parseHeader h x).withBytes [(h, i)]) s resolved := by
    rw [deliverBytes, frmOnByte_holding, feed_header i hx (by omega), settled_kept]
    rfl
  have hlength (fed : List (Byte × Id)) : ((parseHeader h x).withBytes fed).received.length = fed.length := by
    simp [Candidate.withBytes, parseHeader, hx]
  have hne (fed : List (Byte × Id)) : ((parseHeader h x).withBytes ((h, i) :: fed)).received ≠ [] := by
    simp [Candidate.withBytes]
  rw [deliverBytes_append, deliverBytes_append, hfirstByte, deliverBytes_incomplete (hne []) rfl, deliverBytes,
    frmOnByte_holding, Candidate.withBytes_withBytes, List.singleton_append, feed_complete c' j (hne body) rfl,
    Candidate.withBytes_withBytes]
  · rfl
  · rw [hlength, hexp]
    rfl
  · rw [hlength, hexp, List.length_singleton]
    omega

end Delivery

end Sys2Proof.Machine

open Sys2Proof Sys2Proof.Machine

/-- Settles O43: the symbols' values by `symbolToValue_byteToSymbol`; the bytes after a sync are one whole frame, whose
checksum matches. -/
theorem frameRoundTrip : Obligations.FrameRoundTrip := by
  refine ⟨fun c payload cmd _ => ?_, fun s payload cmd ids hmax hlen hcand hids => ?_⟩
  · have hdata : (frameSymbols c (encodeBytes payload cmd)).drop 2 =
        (encodeBytes payload cmd).map (byteToSymbol c.txMin) := rfl
    rw [hdata, List.map_map]
    exact List.map_congr_left fun b _ => symbolToValue_byteToSymbol c.txMin b
  · have hlt : payload.length < 16 := by omega
    have hfed : ((encodeBytes payload cmd).zip ids).map Prod.fst = encodeBytes payload cmd :=
      List.map_fst_zip (by simp [encodeBytes, hids])
    have hheader := headerLength_frameHeader hlt cmd
    have hrec := Candidate.afterFrame_received (x := newCandidate s) (h := frameHeader payload.length cmd) hfed rfl
    have hexp := Candidate.afterFrame_expected (x := newCandidate s) (fed := (encodeBytes payload cmd).zip ids) hheader
    intro bs f
    rw [frmOnSync_start_of_nil hcand, deliverBytes_frame (s := candIdTaken s) hfed hheader hlen rfl,
      judge_complete hlt hrec hexp, if_pos rfl, settled_valid, frameOf_complete hlt hrec hexp,
      headerIsCommand_frameHeader hlt]
    rfl

end

section
/-!
SUPPORT. The transmit sequencer and the send commands (45_tx_sequencer.md): SENDFRAME and SENDSYNC as their checks in
order, PBUF and who reads and writes it, one TXTICK, and the ticks that play the queue out.
-/

namespace Sys2Proof.Machine

/-! ### The send commands -/

/-- A failed send in one record (45_tx_sequencer.md R236). -/
theorem raiseAlone_sendFailed (code : BitVec 4) (s : State) : raiseAlone (.sendFailed code) s = sendFailed code s := rfl

/-- What a send command does, given the outcome of its checks and the symbols it queues (45_tx_sequencer.md R234,
R239). -/
def sendOutcome (failure : Option (BitVec 4)) (syms : List Symbol) (s : State) : State :=
  match failure with
  | some code => sendFailed code s
  | none => enqueueSymbols syms s

theorem sendOutcome_ite (c : Prop) [Decidable c] (code : BitVec 4) (rest : Option (BitVec 4)) (syms : List Symbol)
    (s : State) :
    sendOutcome (if c then some code else rest) syms s = if c then sendFailed code s else sendOutcome rest syms s := by
  split <;> rfl

theorem exec_sendframe (len : BitVec 8) (cmd : Bool) (s : State) :
    exec (.sendframe len cmd) s = .next
      (sendOutcome (sendFrameFailure s len.toNat cmd) (frameSymbols s.cfg (sendBytes s len.toNat cmd)) s) := by
  rw [exec, execSendframe]
  cases sendFrameFailure s len.toNat cmd <;> rfl

/-- The preamble, then every byte's symbol, at the end of the queue (45_tx_sequencer.md R237). -/
theorem sendOutcome_frameSymbols (bs : List Byte) (s : State) :
    sendOutcome none (frameSymbols s.cfg bs) s =
      { s with
        tx.txq := s.tx.txq ++ [s.cfg.txMax.setWidth 16 - 1, s.cfg.txMax.setWidth 16] ++
          bs.map fun b => s.cfg.txMin.setWidth 16 + b.setWidth 16 } := by
  rw [List.append_assoc]
  rfl

theorem exec_sendsync (s : State) :
    exec .sendsync s = .next (sendOutcome (sendSyncFailure s) (preamble s.cfg) s) := by
  rw [exec, execSendsync]
  cases sendSyncFailure s <;> rfl

theorem queueLacksRoom_iff (s : State) (n : Nat) :
    queueLacksRoom s n = true ↔ s.params.txqDepth < s.tx.txq.length + n := decide_eq_true_iff

/-- Some byte has no data symbol (00_scope.md R14). -/
theorem any_not_byteEncodable_iff (c : ConfigRegs) (bs : List Byte) :
    bs.any (fun b => !byteEncodable c.txMin c.txMax b) = true ↔
      ∃ b ∈ bs, c.txMax.toNat < c.txMin.toNat + b.toNat + 2 := by
  simp [byteEncodable]

/-- Some entry read is no byte (45_tx_sequencer.md R234). -/
theorem any_not_byte_iff (values : List (BitVec 16)) :
    values.any (fun v => 255 < v.toNat) = true ↔ ∃ v ∈ values, 255 < v.toNat := by
  simp

/-! ### PBUF -/

/-- `s` with other contents of PBUF. -/
def State.withPbuf (s : State) (pbuf : Vector (BitVec 16) 32) : State := s.withTx { s.tx with pbuf := pbuf }

theorem exec_ldp {idx : BitVec 8} (hidx : idx.toNat < 32) (val : BitVec 16) (s : State) :
    exec (.ldp idx val) s = .next (s.withPbuf (s.tx.pbuf.set idx.toNat val)) := by
  have hset : s.tx.pbuf.setIfInBounds idx.toNat val = s.tx.pbuf.set idx.toNat val :=
    Vector.ext fun i hi => by simp [Vector.getElem_set, Vector.getElem_setIfInBounds]
  rw [exec, execLdp, if_pos hidx, pbufWrite, hset]
  rfl

/-- The payload operand after a write to PBUF is the old one with the entry replaced, where it is read at all
(45_tx_sequencer.md R234). -/
theorem payloadOperand_withPbuf_set {i : Nat} (hi : i < 32) (val : BitVec 16) (s : State) (len : Nat) :
    payloadOperand (s.withPbuf (s.tx.pbuf.set i val)) len = (payloadOperand s len).set i val := by
  rw [payloadOperand, State.withPbuf, State.withTx_tx, Vector.toList_set, List.take_set]
  rfl

theorem length_payloadOperand (s : State) (len : Nat) : (payloadOperand s len).length = min len 32 := by
  rw [payloadOperand, List.length_take, Vector.length_toList]

/-- An entry within `len` that is no byte fails the send (45_tx_sequencer.md R231, R234). -/
theorem sendFrameFailure_of_not_byte {s : State} {len : Nat} (cmd : Bool) (hlen : len ≤ s.params.payloadMax)
    (h : ∃ v ∈ payloadOperand s len, 255 < v.toNat) : sendFrameFailure s len cmd = some 2 := by
  rw [sendFrameFailure, if_neg (not_lt.2 hlen), if_pos ((any_not_byte_iff _).2 h)]

/-- SENDFRAME reads PBUF through its payload operand only. -/
theorem exec_sendframe_withPbuf {len : BitVec 8} {pbuf : Vector (BitVec 16) 32} {s u : State} {cmd : Bool}
    (h : payloadOperand (s.withPbuf pbuf) len.toNat = payloadOperand s len.toNat)
    (hu : exec (.sendframe len cmd) s = .next u) :
    exec (.sendframe len cmd) (s.withPbuf pbuf) = .next (u.withPbuf pbuf) := by
  have hbytes : sendBytes (s.withPbuf pbuf) len.toNat cmd = sendBytes s len.toNat cmd := by rw [sendBytes, h]; rfl
  have hfailure : sendFrameFailure (s.withPbuf pbuf) len.toNat cmd = sendFrameFailure s len.toNat cmd := by
    rw [sendFrameFailure, h, hbytes]
    rfl
  rw [exec_sendframe] at hu ⊢
  cases hu
  rw [hfailure, hbytes]
  cases sendFrameFailure s len.toNat cmd <;> rfl

/-- Accepted or rejected, a setter leaves the transmit path alone (40_config_ops.md R106, R107). -/
theorem tx_setter (which : BitVec 8) (valid : Bool) (code : BitVec 4) (rxAffecting : Bool) (c : ConfigRegs)
    (s : State) : (setter which valid code rxAffecting c s).tx = s.tx := by
  cases rxAffecting with
  | false =>
    rw [setter_tx]
    split <;> rfl
  | true =>
    rw [setter_rx]
    split
    · rw [cfgInstalled]
      split
      · rfl
      · exact (rxClear_keeps s).1.tx
    · rfl

theorem sendOutcome_pbuf (failure : Option (BitVec 4)) (syms : List Symbol) (s : State) :
    (sendOutcome failure syms s).tx.pbuf = s.tx.pbuf := by
  cases failure <;> rfl

/-- BLOCK ticks the sequencer or not, and PBUF stands in both cases (43_rx_state_machine.md R171). -/
theorem pbuf_of_exec_block {s t : State} (h : exec .block s = .next t) : t.tx.pbuf = s.tx.pbuf := by
  rw [exec, execBlock] at h
  split at h
  next X u hsel =>
    cases h
    rw [(receiveBlock_keeps X u).tx]
    unfold selectBlock at hsel
    split at hsel
    · obtain ⟨-, rfl⟩ := hsel
      exact txTickRegs_pbuf s.params s.tx
    · split at hsel
      · obtain ⟨-, rfl⟩ := hsel
        rfl
      · cases hsel
  next => cases h

/-- Only LDP writes PBUF (45_tx_sequencer.md R231). -/
theorem pbuf_of_exec {s t : State} {i : Instr} (hi : ∀ idx val, i ≠ .ldp idx val) (h : exec i s = .next t) :
    t.tx.pbuf = s.tx.pbuf := by
  cases i with
  | ldp idx val => exact absurd rfl (hi idx val)
  | block => exact pbuf_of_exec_block h
  | nop | reset | ack imm | irqen imm =>
    cases h
    rfl
  | txtick =>
    cases h
    exact txTickRegs_pbuf s.params s.tx
  | setloop _ | settxrate _ | setrxrate _ | setamp _ | settxmin _ | settxmax _ | setrxmin _ | setrxmax _
  | setthresh _ =>
    cases h
    rw [tx_setter]
  | sendframe len cmd =>
    rw [exec_sendframe] at h
    cases h
    exact sendOutcome_pbuf _ _ s
  | sendsync =>
    rw [exec_sendsync] at h
    cases h
    exact sendOutcome_pbuf _ _ s

/-! ### One TXTICK -/

/-- TXTICK in one record (45_tx_sequencer.md R242). -/
theorem exec_txtick (s : State) :
    exec .txtick s = .next
      { s with
        tx := (txTickRegs s.params s.tx).2
        port.tout := s.port.tout ++ [descriptor s (txTickRegs s.params s.tx).1] } := rfl

/-- A tick that takes the head of the queue, also where P is stored as 0 in TXHOLD (45_tx_sequencer.md R243). -/
theorem txTickRegs_taken (p : Params) {t : TxRegs} {x : Symbol} {rest : List Symbol} (h : t.txHold = 0)
    (q : t.txq = x :: rest) :
    txTickRegs p t =
      (x, { t with
            txCur := x
            txq := rest
            txHold := BitVec.ofNat 8 p.periodBlocks - if BitVec.ofNat 8 p.periodBlocks = 0 then 0 else 1 }) := by
  by_cases hp : BitVec.ofNat 8 p.periodBlocks = 0
  · simp only [txTickRegs, if_pos h, q, hp, if_true]
    rfl
  · rw [txTickRegs_next p h q hp, if_neg hp]

theorem descriptor_noSymbol (s : State) :
    descriptor s noSymbol =
      { valid := false, symbol := noSymbol, bin := 0, amplitude := s.cfg.txAmp, sampleRate := s.cfg.txRate } :=
  if_pos rfl

theorem descriptor_of_ne {s : State} {x : Symbol} (h : x ≠ noSymbol) :
    descriptor s x =
      { valid := true, symbol := x, bin := BitVec.ofNat 16 (s.params.fftFactor * x.toNat), amplitude := s.cfg.txAmp
        sampleRate := s.cfg.txRate } :=
  if_neg h

/-! ### The queue played out -/

/-- `n` ticks on the transmit registers: the symbols put out, in order, and the registers after them
(45_tx_sequencer.md R243). -/
def playTicks (p : Params) : Nat → TxRegs → List Symbol × TxRegs
  | 0, t => ([], t)
  | n + 1, t =>
    let rest := playTicks p n (txTickRegs p t).2
    ((txTickRegs p t).1 :: rest.1, rest.2)

/-- A run of TXTICKs is the ticks on the transmit registers, each symbol's descriptor driven on TOUT. -/
theorem runCommands_replicate_txtick (n : Nat) (s : State) :
    runCommands (List.replicate n .txtick) s = .next
      { s with
        tx := (playTicks s.params n s.tx).2
        port.tout := s.port.tout ++ (playTicks s.params n s.tx).1.map (descriptor s) } := by
  induction n generalizing s with
  | zero => simp [runCommands, playTicks]
  | succ n ih =>
    simp only [List.replicate_succ, runCommands, exec_txtick, ih, playTicks, List.map_cons, List.append_assoc,
      List.singleton_append]
    rfl

section Play

variable {p : Params} {t t' t'' : TxRegs}

theorem playTicks_append {m n : Nat} {out more : List Symbol} (h : playTicks p m t = (out, t'))
    (g : playTicks p n t' = (more, t'')) : playTicks p (m + n) t = (out ++ more, t'') := by
  induction m generalizing t out with
  | zero =>
    cases h
    rw [Nat.zero_add, g, List.nil_append]
  | succ m ih =>
    rw [playTicks, Prod.mk.injEq] at h
    obtain ⟨rfl, hregs⟩ := h
    rw [Nat.succ_add, playTicks, ih (Prod.ext rfl hregs)]
    rfl

/-- What is held is put out until TXHOLD is 0. -/
theorem playTicks_held {n : Nat} (h : t.txHold.toNat = n) :
    playTicks p n t = (List.replicate n t.txCur, { t with txHold := 0 }) := by
  induction n generalizing t with
  | zero =>
    rw [← BitVec.eq_of_toNat_eq (x := t.txHold) (y := 0) h]
    rfl
  | succ n ih =>
    have hne : t.txHold ≠ 0 := by bv_omega
    have hdec : (t.txHold - 1).toNat = n := by bv_omega
    rw [playTicks, txTickRegs_held p hne, ih (t := { t with txHold := t.txHold - 1 }) hdec]
    rfl

/-- A queued symbol is taken and put out for P ticks. -/
theorem playTicks_symbol {x : Symbol} {rest : List Symbol} (hp : 1 ≤ p.periodBlocks) (hlt : p.periodBlocks < 256)
    (h : t.txHold = 0) (q : t.txq = x :: rest) :
    playTicks p p.periodBlocks t =
      (List.replicate p.periodBlocks x, { t with txCur := x, txq := rest, txHold := 0 }) := by
  obtain ⟨n, hn⟩ := Nat.exists_eq_add_of_le' hp
  have hload : BitVec.ofNat 8 p.periodBlocks ≠ 0 := by bv_omega
  have hhold : (BitVec.ofNat 8 p.periodBlocks - 1).toNat = n := by bv_omega
  rw [hn, playTicks, txTickRegs_next p h q hload, ← hn,
    playTicks_held (t := { t with txCur := x, txq := rest, txHold := BitVec.ofNat 8 p.periodBlocks - 1 }) hhold, hn]
  rfl

/-- The whole queue, each symbol for P ticks, with no gap between them. -/
theorem playTicks_queue (hp : 1 ≤ p.periodBlocks) (hlt : p.periodBlocks < 256) (h : t.txHold = 0) :
    ∃ cur, playTicks p (t.txq.length * p.periodBlocks) t =
      (t.txq.flatMap fun x => List.replicate p.periodBlocks x, { t with txCur := cur, txq := [] }) := by
  generalize q : t.txq = queue
  induction queue generalizing t with
  | nil => exact ⟨t.txCur, by rw [List.length_nil, Nat.zero_mul, playTicks, List.flatMap_nil, ← q]⟩
  | cons x rest ih =>
    obtain ⟨cur, hrest⟩ := ih (t := { t with txCur := x, txq := rest, txHold := 0 }) rfl rfl
    refine ⟨cur, ?_⟩
    rw [List.length_cons, Nat.succ_mul, Nat.add_comm, playTicks_append (playTicks_symbol hp hlt h q) hrest, ← h]
    rfl

/-- With nothing held and nothing queued every tick is silence. -/
theorem playTicks_silence (n : Nat) (h : t.txHold = 0) (q : t.txq = []) :
    ∃ cur, playTicks p n t = (List.replicate n noSymbol, { t with txCur := cur }) := by
  induction n generalizing t with
  | zero => exact ⟨t.txCur, rfl⟩
  | succ n ih =>
    obtain ⟨cur, hrest⟩ := ih (t := { t with txCur := noSymbol }) h q
    refine ⟨cur, ?_⟩
    rw [playTicks, txTickRegs_silent p h q]
    exact congrArg (fun r => (noSymbol :: r.1, r.2)) hrest

/-- What is held, then the queue, then silence (45_tx_sequencer.md R243). -/
theorem playTicks_all (k : Nat) (hp : 1 ≤ p.periodBlocks) (hlt : p.periodBlocks < 256) :
    ∃ cur, playTicks p (t.txHold.toNat + t.txq.length * p.periodBlocks + k) t =
      (List.replicate t.txHold.toNat t.txCur ++ (t.txq.flatMap fun x => List.replicate p.periodBlocks x) ++
          List.replicate k noSymbol,
        { t with txCur := cur, txq := [], txHold := 0 }) := by
  obtain ⟨cur₁, hqueue⟩ := playTicks_queue (t := { t with txHold := 0 }) hp hlt rfl
  obtain ⟨cur, hsilence⟩ :=
    playTicks_silence (p := p) (t := { t with txHold := 0, txCur := cur₁, txq := [] }) k rfl rfl
  exact ⟨cur, playTicks_append (playTicks_append (playTicks_held rfl) hqueue) hsilence⟩

end Play

end Sys2Proof.Machine

open Sys2Proof Sys2Proof.Machine

/-- Settles O16: the write by `exec_ldp`, SENDFRAME by what its payload operand becomes, the other commands by
`pbuf_of_exec`. -/
theorem ldpWritesOneEntry : Obligations.LdpWritesOneEntry := by
  refine ⟨fun s idx val => ?_, fun s t idx len val cmd hidx hread hmax hval ht => ?_,
    fun s t u idx len val cmd hidx hunread ht hu => ?_, fun s t i => pbuf_of_exec, rfl⟩
  · have hidx : (BitVec.ofNat 8 idx).toNat = idx := by
      rw [BitVec.toNat_ofNat]
      omega
    rw [exec_ldp (by omega)]
    simp only [hidx]
    rfl
  · rw [exec_ldp hidx] at ht
    cases ht
    have hmem : val ∈ payloadOperand (s.withPbuf (s.tx.pbuf.set idx.toNat val)) len.toNat := by
      rw [payloadOperand_withPbuf_set hidx]
      exact List.mem_set (by rw [length_payloadOperand]; omega) val
    rw [exec_sendframe, sendFrameFailure_of_not_byte (s := s.withPbuf (s.tx.pbuf.set idx.toNat val)) cmd hmax
      ⟨val, hmem, hval⟩]
    rfl
  · rw [exec_ldp hidx] at ht
    cases ht
    refine exec_sendframe_withPbuf ?_ hu
    rw [payloadOperand_withPbuf_set hidx]
    exact List.set_eq_of_length_le (by rw [length_payloadOperand]; omega)

/-- Settles O21: the run as the ticks on the transmit registers, and those by `playTicks_all`. -/
theorem queueIsPlayedWithoutGaps : Obligations.QueueIsPlayedWithoutGaps := by
  intro s k hp hlt
  obtain ⟨cur, hplay⟩ := playTicks_all (t := s.tx) k hp hlt
  refine ⟨_, runCommands_replicate_txtick _ s, ?_⟩
  rw [hplay]
  exact ⟨rfl, rfl, rfl, rfl, rfl, rfl, rfl, rfl, rfl⟩

/-- Settles O18: the checks of SENDFRAME one after another. -/
theorem sendframeQueuesTheWholeFrame : Obligations.SendframeQueuesTheWholeFrame := by
  refine ⟨⟨rfl, rfl⟩, fun s len cmd => ?_⟩
  rw [exec_sendframe, sendFrameFailure]
  simp only [sendOutcome_ite, any_not_byte_iff, any_not_byteEncodable_iff, queueLacksRoom_iff, ← Nat.add_assoc,
    sendOutcome_frameSymbols]
  rfl

/-- Settles O19: the checks of SENDSYNC one after another. -/
theorem sendsyncQueuesThePreamble : Obligations.SendsyncQueuesThePreamble := by
  refine ⟨fun s => ?_, rfl⟩
  rw [exec_sendsync, sendSyncFailure]
  simp only [sendOutcome_ite, queueLacksRoom_iff]
  rfl

/-- Settles O20: the sequencer's three cases by its rules, the descriptor by its two cases; below N/2, at most 2^15,
no bin is reduced. -/
theorem txtickDrivesOneDescriptor : Obligations.TxtickDrivesOneDescriptor := by
  refine ⟨rfl, fun s => ⟨fun x rest h q => ?_, fun h q => ?_, fun h => ?_⟩,
    fun s => ⟨rfl, rfl, fun t => ?_, fun t ht => ?_, fun t ht hN hbin => ?_⟩⟩
  · rw [exec_txtick, txTickRegs_taken s.params h q]
  · rw [exec_txtick, txTickRegs_silent s.params h q]
  · rw [exec_txtick, txTickRegs_held s.params h]
  · by_cases ht : t = noSymbol
    · rw [ht, descriptor_noSymbol]
      exact ⟨rfl, rfl, rfl⟩
    · rw [descriptor_of_ne ht]
      exact ⟨rfl, rfl, rfl⟩
  · rw [descriptor_of_ne ht]
    exact ⟨rfl, BitVec.toNat_ofNat _ _⟩
  · have hhalf : s.params.fftSize / 2 < 2 ^ 16 := by
      have : s.params.fftSize ≤ 2 ^ 16 := Nat.pow_le_pow_right (by decide) hN
      omega
    rw [descriptor_of_ne ht]
    exact (BitVec.toNat_ofNat _ _).trans (Nat.mod_eq_of_lt (hbin.trans hhalf))

end

section
/-!
SUPPORT. Entry to Error (60_exceptions.md R263, R267): the transition each cause makes, and the block that makes it as
one record.
-/

namespace Sys2Proof.Machine

/-! ### What a sampled symbol is -/

theorem classify_noSymbol (c : ConfigRegs) : classify c 0xFFFF = .nothing := if_pos rfl

/-- A data symbol more than 255 above RXSYM.MIN is no byte (43_rx_state_machine.md R194). -/
theorem classify_of_not_byte {c : ConfigRegs} {r : Symbol} (hne : r ≠ noSymbol) (hdata : r.toNat + 1 < c.rxMax.toNat)
    (hvalue : c.rxMin.toNat + 255 < r.toNat) : classify c r = .notByte := by
  rw [classify, if_neg hne, if_neg (by omega), if_pos (by omega)]

/-! ### The causes -/

section Causes

variable {s : State} {r : Symbol}

/-- SYNC_LOST: nothing sampled with candidates in flight (43_rx_state_machine.md R180). -/
theorem samplingMove_nothing {cs : List Candidate} (h : cs ≠ []) : samplingMove .nothing cs = .toError 1 :=
  if_pos ⟨rfl, h⟩

/-- NOT_A_BYTE, whatever the table holds (43_rx_state_machine.md R180). -/
theorem samplingMove_notByte (cs : List Candidate) : samplingMove .notByte cs = .toError 2 := by
  simp [samplingMove]

/-- At a sampling point in Idle without a sync, the sampled symbol and the table decide. -/
theorem blockMove_of_idle_sampling (st : s.rx.rxState = .idle) (hc : s.rx.clockValid = true)
    (hsync : syncNow (histPush r s) = false) (hsp : s.rx.sampCnt = s.rx.nextSp) :
    blockMove s r = samplingMove (classify s.cfg r) s.frm.cand := by
  rw [blockMove, hsync, hsp, hc, beq_self_eq_true, Bool.and_true]
  exact nextMove_of_idle_sampling st hc

end Causes

/-! ### The entry -/

/-- Error entered with an anomaly's code, before the CANDS report. -/
def errorEntered (code : BitVec 4) (s : State) : State :=
  { s with
    rx.rxState := .error
    rx.syncValid := false
    rx.syncId := 0
    rx.clockValid := false
    rx.guardLeft := 0
    frm.cand := []
    diag.errCode := code
    diag.errCount := s.diag.errCount + 1 }

/-- Entry to Error reports the discarded table if it was not empty (44_framer.md R220, R221). -/
theorem frmFlush_raise_decodeAnomaly (code : BitVec 4) (s : State) :
    frmFlush (raise (.decodeAnomaly code) (.start s)) =
      if s.frm.cand = [] then errorEntered code s
      else candsReported (discarded s.frm.cand) (errorEntered code s) := by
  by_cases h : s.frm.cand = []
  · have hunchanged : (raise (.decodeAnomaly code) (.start s)).changed = false := by
      rw [raise, frmDiscardAll_of_nil (by exact h)]
      rfl
    rw [if_pos h, frmFlush_of_unchanged hunchanged, raise_decodeAnomaly_s]
    rfl
  · rw [if_neg h, raise, frmDiscardAll_of_ne (by exact h)]
    rfl

/-- A block whose transition is to Error (60_exceptions.md R267). -/
theorem processVerdict_toError {s : State} {r : Symbol} {code : BitVec 4} (peak : Level)
    (h : blockMove s r = .toError code) :
    processVerdict r peak s = blockBooked r peak s
      (if s.frm.cand = [] then errorEntered code s
      else candsReported (discarded s.frm.cand) (errorEntered code s)) := by
  rw [processVerdict_booked _ h, makeMove, frmFlush_raise_decodeAnomaly, show (histPush r s).frm = s.frm from rfl]
  split <;> rfl

/-- Candidates not yet judged are reported unknown (44_framer.md R220). -/
theorem discarded_of_unknown {cs : List Candidate} (h : ∀ x ∈ cs, x.isValid = .unknown) :
    discarded cs = cs.map fun x => (x.id, .unknown) :=
  List.map_congr_left fun x hx => by rw [h x hx]

end Sys2Proof.Machine

open Sys2Proof Sys2Proof.Machine

/-- Settles O38: the transition of each cause, then the entry it makes. -/
theorem errorEntry : Obligations.ErrorEntry := by
  intro s r peak code hcause
  refine ⟨processVerdict_toError peak ?_, discarded_of_unknown⟩
  obtain ⟨rfl, hclocked, hc⟩ | ⟨st, hc, hsync, hsp, hsampled⟩ := hcause
  · exact nextMove_of_unclocked hclocked hc
  · rw [blockMove_of_idle_sampling st hc hsync hsp]
    obtain ⟨rfl, rfl, hcand⟩ | ⟨rfl, hne, hdata, hvalue⟩ := hsampled
    · rw [classify_noSymbol]
      exact samplingMove_nothing hcand
    · rw [classify_of_not_byte hne hdata hvalue]
      exact samplingMove_notByte _

end

section
/-!
SUPPORT. The candidate table (44_framer.md R212 to R219): what a sync and a byte do to the whole table, each as one
record.
-/

namespace Sys2Proof.Machine

/-! ### The flags of event records -/

theorem foldl_or_flag (es : List Event) (f : BitVec 7) :
    es.foldl (fun f e => f ||| e.flag) f = f ||| es.foldl (fun f e => f ||| e.flag) 0 := by
  induction es generalizing f with
  | nil => simp
  | cons e es ih => rw [List.foldl_cons, ih, List.foldl_cons, ih (0 ||| e.flag), BitVec.or_assoc]; simp

@[simp] theorem flagsOf_nil : flagsOf [] = 0 := rfl

@[simp] theorem flagsOf_append (es more : List Event) : flagsOf (es ++ more) = flagsOf es ||| flagsOf more := by
  rw [flagsOf, List.foldl_append, foldl_or_flag, ← flagsOf, ← flagsOf]

theorem flagsOf_singleton (e : Event) : flagsOf [e] = e.flag := by simp [flagsOf]

@[simp] theorem flagsOf_cons (e : Event) (es : List Event) : flagsOf (e :: es) = e.flag ||| flagsOf es := by
  rw [← List.singleton_append, flagsOf_append, flagsOf_singleton]

/-- One flag stands for any number of FRAME records (10_state.md R38). -/
theorem flagsOf_map_frame (frames : List Frame) :
    flagsOf (frames.map Event.frame) = if frames = [] then 0 else 0x01 := by
  induction frames with
  | nil => rfl
  | cons f frames ih =>
    rw [List.map_cons, flagsOf_cons, ih, if_neg (List.cons_ne_nil _ _)]
    split <;> simp [Event.flag]

/-! ### The Frames of one operation -/

/-- The Frames of matched candidates, oldest first, under consecutive ids from `id` (44_framer.md R218). -/
def framesFrom (id : Id) (xs : List Candidate) : List Frame :=
  xs.mapIdx fun i x => frameOf (id + BitVec.ofNat 32 i) x

@[simp] theorem framesFrom_nil (id : Id) : framesFrom id [] = [] := rfl

@[simp] theorem framesFrom_cons (id : Id) (x : Candidate) (xs : List Candidate) :
    framesFrom id (x :: xs) = frameOf id x :: framesFrom (id + 1) xs := by
  have hnext (i : Nat) : id + BitVec.ofNat 32 (i + 1) = id + 1 + BitVec.ofNat 32 i := by
    rw [BitVec.add_assoc, Nat.add_comm, BitVec.ofNat_add]
    rfl
  simp only [framesFrom, List.mapIdx_cons, hnext]
  rw [show BitVec.ofNat 32 0 = 0#32 from rfl, BitVec.add_zero]

/-! ### The table after a byte -/

/-- EmitFrame in one record (44_framer.md R218). -/
theorem emitFrame_eq (x : Candidate) (s : State) :
    emitFrame x s =
      { s with
        frm.nextFrameId := s.frm.nextFrameId + 1
        frm.lastFrame := frameOf s.frm.nextFrameId x
        frm.lastFrameValid := true
        diag.status := s.diag.status ||| 0x01
        port.evt := s.port.evt ++ [.frame (frameOf s.frm.nextFrameId x)] } := rfl

/-- An operation after the fates `fed` have been settled in table order (44_framer.md R213, R218, R219). -/
def fedSettled (fed : List Fed) (k : Work) : Work :=
  let frames := framesFrom k.s.frm.nextFrameId (fed.filterMap Fed.matched?)
  { s :=
      { k.s with
        frm.cand := k.s.frm.cand ++ fed.filterMap Fed.kept?
        frm.nextFrameId := k.s.frm.nextFrameId + BitVec.ofNat 32 frames.length
        frm.lastFrame := frames.getLast?.getD k.s.frm.lastFrame
        frm.lastFrameValid := k.s.frm.lastFrameValid || !frames.isEmpty
        diag.status := k.s.diag.status ||| flagsOf (frames.map Event.frame)
        port.evt := k.s.port.evt ++ frames.map Event.frame }
    resolved := k.resolved ++ fed.filterMap Fed.removed?
    changed := k.changed }

/-- The settling of a table is the settling of its first fate, then of the rest. -/
theorem fedSettled_cons (f : Fed) (fed : List Fed) (k : Work) :
    fedSettled (f :: fed) k = fedSettled fed (settleFed k f) := by
  cases f with
  | kept x => simp [fedSettled, settleFed, candAppend, List.filterMap_cons, Fed.kept?, Fed.matched?, Fed.removed?]
  | matched x =>
    have hid (n : Nat) (id : Id) : id + 1#32 + BitVec.ofNat 32 n = id + BitVec.ofNat 32 (n + 1) := by
      bv_omega
    simp [fedSettled, settleFed, resolve, emitFrame_eq, List.filterMap_cons, Fed.kept?, Fed.matched?, Fed.removed?,
      List.getLast?_cons, hid, BitVec.or_assoc, Event.flag]
  | failed x =>
    simp [fedSettled, settleFed, resolve, List.filterMap_cons, Fed.kept?, Fed.matched?, Fed.removed?]

theorem foldl_settleFed (fed : List Fed) (k : Work) : fed.foldl settleFed k = fedSettled fed k := by
  induction fed generalizing k with
  | nil => simp [fedSettled]
  | cons f fed ih => rw [List.foldl_cons, ih, fedSettled_cons]

/-- A byte with candidates in flight, in one record (44_framer.md R213). -/
theorem frmOnByte_eq_fedSettled (b : Byte) (idx : Id) {k : Work} (h : k.s.frm.cand ≠ []) :
    frmOnByte b idx k =
      fedSettled (k.s.frm.cand.map (feed k.s.params.payloadMax b idx))
        { s := { k.s with frm.cand := [] }, resolved := k.resolved, changed := true } := by
  rw [frmOnByte_of_ne b idx h, foldl_settleFed]
  rfl

/-- A malformed length fails the candidate at its first byte (44_framer.md R214). -/
theorem feed_malformed {payloadMax : Nat} {x : Candidate} {h : Byte} (idx : Id) (hx : x.received = [])
    (hlen : payloadMax < headerLength h) :
    feed payloadMax h idx x = .failed { x.withBytes [(h, idx)] with isValid := .invalid } := by
  have hone : (x.withBytes [(h, idx)]).received.length = 1 := by simp [Candidate.withBytes, hx]
  exact (if_pos hone).trans (if_pos hlen)

/-- The verdict on a candidate completed by the byte `b`: the checksum of the bytes before it (44_framer.md R216). -/
theorem judge_withBytes_last {x : Candidate} {e : BitVec 8} (b : Byte) (idx : Id) (hx : x.received ≠ [])
    (he : x.expected = some e) (hlen : x.received.length + 1 = e.toNat) :
    judge (x.withBytes [(b, idx)]) =
      if checksum x.received = b then .matched { x.withBytes [(b, idx)] with isValid := .valid }
      else .failed { x.withBytes [(b, idx)] with isValid := .invalid } := by
  have hpos := List.length_pos_iff.2 hx
  have hpayload : (x.withBytes [(b, idx)]).payloadLength + 1 = x.received.length := by
    rw [Candidate.payloadLength, Candidate.withBytes, he, Option.getD_some]
    omega
  rw [judge, hpayload]
  simp [Candidate.withBytes]

end Sys2Proof.Machine

open Sys2Proof Sys2Proof.Machine

/-- Settles O41: the byte's fates settled in table order, by induction over the table. -/
theorem byteToTheTable : Obligations.ByteToTheTable := by
  refine fun b idx k => ⟨frmOnByte_of_nil b idx, fun h => ?_⟩
  intro fed frames
  have hstatus : k.s.diag.status ||| flagsOf (frames.map Event.frame) =
      if frames = [] then k.s.diag.status else k.s.diag.status ||| 0x01 := by
    rw [flagsOf_map_frame]
    split
    · exact BitVec.or_zero
    · rfl
  rw [frmOnByte_eq_fedSettled b idx h, ← hstatus]
  rfl

/-- Settles O40: the Frame by `frameOf_complete`, the byte by its place in the candidate. -/
theorem byteToOneCandidate : Obligations.ByteToOneCandidate := by
  refine ⟨fun id x h c payload hlen hrec he => frameOf_complete (Nat.lt_succ_of_le hlen) hrec he id,
    fun payloadMax b idx x => ⟨fun hx hlen => ?_, fun hx hlen => ?_, fun e hx he hlen => ?_, fun e hx he hlen => ?_⟩⟩
  · rw [feed_malformed idx hx hlen, Candidate.withBytes, hx]
    rfl
  · rw [feed_header idx hx hlen, Candidate.withBytes, hx]
    rfl
  · rw [feed_incomplete b idx hx he hlen]
    rfl
  · rw [feed_complete b idx hx he hlen, judge_withBytes_last b idx hx he hlen]
    rfl

/-- Settles O42: FrmOnSync with room in the table, and with none. -/
theorem syncOpensACandidate : Obligations.SyncOpensACandidate := by
  refine fun k => ⟨fun hroom => ?_, fun y rest hcand hfull => ?_⟩
  · simp only [frmOnSync, if_neg hroom, List.map_nil, List.append_nil]
    rfl
  · simp only [frmOnSync, if_pos hfull]
    rw [hcand]
    rfl

end

section
/-!
SUPPORT. What a processed block and what a command can do, said once: `Passage` lists the states a block leaves before
its bookkeeping, `Effect` the states a completed command leaves. Every claim about all commands is a case analysis on
these two.
-/

namespace Sys2Proof

/-- A setter (40_config_ops.md R106). -/
def Instr.isSetter : Instr → Bool
  | .setloop _ | .settxrate _ | .setrxrate _ | .setamp _ | .settxmin _ | .settxmax _ | .setrxmin _ | .setrxmax _
  | .setthresh _ => true
  | _ => false

/-- A send command (45_tx_sequencer.md R236). -/
def Instr.isSend : Instr → Bool
  | .sendframe _ _ | .sendsync => true
  | _ => false

end Sys2Proof

namespace Sys2Proof.Machine

/-! ### The sampling block -/

/-- The symbol clock advanced at a sampling point (43_rx_state_machine.md R188, 42_sync_tracker.md R163). -/
def sampledAt (s : State) : State :=
  { s with
    rx.rxState := .symbol
    rx.nextSp := s.rx.sampCnt + BitVec.ofNat 64 (s.params.periodBlocks * s.params.fftSize)
    rx.guardLeft := BitVec.ofNat 8 s.params.guardBlocks }

/-- A byte given to the candidates in flight, with the CANDS event that ends the operation (44_framer.md R213, R221). -/
def byteReported (b : Byte) (idx : Id) (s : State) : State :=
  let fed := s.frm.cand.map (feed s.params.payloadMax b idx)
  candsReported (fed.filterMap Fed.removed?)
    (fedSettled fed { s := { s with frm.cand := [] }, resolved := [], changed := true }).s

theorem frmFlush_frmOnByte (b : Byte) (idx : Id) {s : State} (h : s.frm.cand ≠ []) :
    frmFlush (frmOnByte b idx (.start s)) = byteReported b idx s := by
  rw [frmOnByte_eq_fedSettled b idx (k := .start s) h]
  rfl

theorem forwardSymbol_of_byte {r : Symbol} {k : Work} {b : Byte} (h : classify k.s.cfg r = .byte b) :
    forwardSymbol r k = frmOnByte b (blockIndex k.s) k := by
  rw [forwardSymbol, h]

/-- What is no byte is forwarded to no one (43_rx_state_machine.md R190). -/
theorem forwardSymbol_of_not_byte {r : Symbol} {k : Work} (h : ∀ b, classify k.s.cfg r ≠ .byte b) :
    forwardSymbol r k = k := by
  unfold forwardSymbol
  split
  next b hb => exact absurd hb (h b)
  · rfl

section Sampling

variable {s : State} {r : Symbol} (peak : Level) (h : blockMove s r = .toSymbol)

include h

/-- The Symbol handler on a byte (43_rx_state_machine.md R188, R190). -/
theorem processVerdict_toSymbol_of_byte {b : Byte} (hb : classify s.cfg r = .byte b) :
    processVerdict r peak s =
      blockBooked r peak s (frmFlush (frmOnByte b (blockIndex s) (.start (sampledAt (histPush r s))))) := by
  rw [processVerdict_booked _ h, makeMove, symbolHandler, forwardSymbol_of_byte (by exact hb)]
  rfl

/-- The Symbol handler on anything else. -/
theorem processVerdict_toSymbol_of_not_byte (hb : ∀ b, classify s.cfg r ≠ .byte b) :
    processVerdict r peak s = blockBooked r peak s (sampledAt s) := by
  rw [processVerdict_booked _ h, makeMove, symbolHandler, forwardSymbol_of_not_byte hb]
  rfl

end Sampling

/-! ### One processed block -/

/-- The states a processed block can leave before its bookkeeping, by its transition (43_rx_state_machine.md R175 to
R192). -/
inductive Passage (s : State) : State → Prop
  | wait (st : s.rx.rxState = .idleInit ∨ s.rx.rxState = .error ∨ s.rx.rxState = .firstSyncWait) :
      Passage s { s with rx.rxState := .firstSyncWait }
  | acquire (st : s.rx.rxState = .firstSyncWait) :
      Passage s
        (candsReported (discarded (evictedBySync s))
          (candidateOpened s.rx.nextSyncId
            (anchoredAt s.rx.sampCnt
              { s with
                rx.rxState := .firstSync
                rx.syncId := s.rx.nextSyncId
                rx.syncValid := true
                rx.nextSyncId := s.rx.nextSyncId + 1 })))
  | idle (hclock : s.rx.clockValid = true)
      (st : s.rx.rxState = .firstSync ∨ s.rx.rxState = .sync ∨
        (s.rx.rxState = .idle ∧ s.rx.sampCnt ≠ s.rx.nextSp) ∨ (s.rx.rxState = .guard ∧ s.rx.guardLeft = 0)) :
      Passage s { s with rx.rxState := .idle }
  | guard (hclock : s.rx.clockValid = true)
      (st : s.rx.rxState = .symbol ∨ (s.rx.rxState = .guard ∧ s.rx.guardLeft ≠ 0)) :
      Passage s { s with rx.rxState := .guard, rx.guardLeft := s.rx.guardLeft - 1 }
  | reconfirm (hclock : s.rx.clockValid = true)
      (st : s.rx.rxState = .idle ∨ s.rx.rxState = .symbol ∨ s.rx.rxState = .guard) :
      Passage s
        (candsReported (discarded (evictedBySync s))
          (candidateOpened s.rx.syncId (anchoredAt s.rx.sampCnt { s with rx.rxState := .sync })))
  | resynchronise (hclock : s.rx.clockValid = true)
      (st : s.rx.rxState = .idle ∨ s.rx.rxState = .symbol ∨ s.rx.rxState = .guard) :
      Passage s
        (candsReported (discarded s.frm.cand)
          (candidateOpened s.rx.nextSyncId
            (anchoredAt s.rx.sampCnt
              { s with
                rx.rxState := .sync
                rx.syncId := s.rx.nextSyncId
                rx.syncValid := true
                rx.nextSyncId := s.rx.nextSyncId + 1
                frm.cand := [] })))
  | sampleUnheard (hclock : s.rx.clockValid = true) (st : s.rx.rxState = .idle) (hsp : s.rx.sampCnt = s.rx.nextSp) :
      Passage s (sampledAt s)
  | sampleByte (hclock : s.rx.clockValid = true) (st : s.rx.rxState = .idle) (hsp : s.rx.sampCnt = s.rx.nextSp)
      (b : Byte) (hcand : s.frm.cand ≠ []) :
      Passage s (byteReported b (blockIndex s) (sampledAt s))
  | errorUnreported {code : BitVec 4} (hcode : code = 1 ∨ code = 2 ∨ code = 3) (hcand : s.frm.cand = []) :
      Passage s (errorEntered code s)
  | errorReported {code : BitVec 4} (hcode : code = 1 ∨ code = 2 ∨ code = 3) (hcand : s.frm.cand ≠ []) :
      Passage s (candsReported (discarded s.frm.cand) (errorEntered code s))

section ExistsPassage

variable {s : State} {r : Symbol} (peak : Level)

theorem exists_passage_of_error {code : BitVec 4} (hcode : code = 1 ∨ code = 2 ∨ code = 3)
    (h : blockMove s r = .toError code) : ∃ t, Passage s t ∧ processVerdict r peak s = blockBooked r peak s t := by
  have hblock := processVerdict_toError peak h
  by_cases hcand : s.frm.cand = []
  · exact ⟨_, .errorUnreported hcode hcand, hblock.trans (by rw [if_pos hcand])⟩
  · exact ⟨_, .errorReported hcode hcand, hblock.trans (by rw [if_neg hcand])⟩

theorem exists_passage_of_sync (hclock : s.rx.clockValid = true)
    (st : s.rx.rxState = .idle ∨ s.rx.rxState = .symbol ∨ s.rx.rxState = .guard)
    (hsync : syncNow (histPush r s) = true) :
    ∃ t, Passage s t ∧ processVerdict r peak s = blockBooked r peak s t := by
  have hmove : blockMove s r = .toSync := by
    rw [blockMove, hsync]
    exact nextMove_of_midstream_sync st hclock
  by_cases hd : s.params.driftTolerance < drift s.rx.sampCnt s
  · exact ⟨_, .resynchronise hclock st, processVerdict_toSync_of_drift peak hmove hd⟩
  · exact ⟨_, .reconfirm hclock st, processVerdict_toSync_of_not_drift peak hmove hd⟩

/-- At a sampling point the symbol is lost, no byte, forwarded to the candidates, or heard by no one. -/
theorem exists_passage_of_sampling (hclock : s.rx.clockValid = true) (st : s.rx.rxState = .idle)
    (hsync : syncNow (histPush r s) = false) (hsp : s.rx.sampCnt = s.rx.nextSp) :
    ∃ t, Passage s t ∧ processVerdict r peak s = blockBooked r peak s t := by
  have hmove := blockMove_of_idle_sampling st hclock hsync hsp
  by_cases hlost : classify s.cfg r = .nothing ∧ s.frm.cand ≠ []
  · exact exists_passage_of_error peak (.inl rfl) (hmove.trans (if_pos hlost))
  by_cases hbad : classify s.cfg r = .notByte
  · exact exists_passage_of_error peak (.inr (.inl rfl)) (hmove.trans ((if_neg hlost).trans (if_pos hbad)))
  have hsymbol : blockMove s r = .toSymbol := hmove.trans ((if_neg hlost).trans (if_neg hbad))
  by_cases hbyte : ∃ b, classify s.cfg r = .byte b
  · obtain ⟨b, hb⟩ := hbyte
    have hblock := processVerdict_toSymbol_of_byte peak hsymbol hb
    by_cases hcand : s.frm.cand = []
    · refine ⟨_, .sampleUnheard hclock st hsp, hblock.trans ?_⟩
      rw [frmOnByte_of_nil b _ (k := .start (sampledAt (histPush r s))) hcand]
      rfl
    · refine ⟨_, .sampleByte hclock st hsp b hcand, hblock.trans ?_⟩
      rw [frmFlush_frmOnByte b _ (s := sampledAt (histPush r s)) hcand]
      rfl
  · exact ⟨_, .sampleUnheard hclock st hsp, processVerdict_toSymbol_of_not_byte peak hsymbol (not_exists.1 hbyte)⟩

/-- Every processed block is one of the passages, booked. -/
theorem exists_passage (hs : s.rx.rxState ≠ .fatalError) :
    ∃ t, Passage s t ∧ processVerdict r peak s = blockBooked r peak s t := by
  by_cases hunclocked : s.rx.rxState.clocked = true ∧ s.rx.clockValid = false
  · exact exists_passage_of_error peak (.inr (.inr rfl)) (nextMove_of_unclocked hunclocked.1 hunclocked.2)
  have hclock (h : s.rx.rxState.clocked = true) : s.rx.clockValid = true := by
    rw [← Bool.not_eq_false]
    exact fun hc => hunclocked ⟨h, hc⟩
  cases st : s.rx.rxState with
  | fatalError => exact absurd st hs
  | idleInit => exact ⟨_, .wait (.inl st), processVerdict_toFirstSyncWait peak (nextMove_of_idleInit st)⟩
  | error => exact ⟨_, .wait (.inr (.inl st)), processVerdict_toFirstSyncWait peak (nextMove_of_error st)⟩
  | firstSyncWait =>
    have hmove := nextMove_of_firstSyncWait (sync := syncNow (histPush r s)) (r := r)
      (sp := s.rx.clockValid && s.rx.sampCnt == s.rx.nextSp) st
    cases hsync : syncNow (histPush r s) with
    | true => exact ⟨_, .acquire st, processVerdict_toFirstSync peak (hmove.trans (if_pos hsync))⟩
    | false =>
      exact ⟨_, .wait (.inr (.inr st)), processVerdict_toFirstSyncWait peak (hmove.trans (by rw [hsync]; rfl))⟩
  | firstSync =>
    have hc := hclock (by rw [st]; rfl)
    exact ⟨_, .idle hc (.inl st), processVerdict_toIdle peak (nextMove_after_sync (.inl st) hc)⟩
  | sync =>
    have hc := hclock (by rw [st]; rfl)
    exact ⟨_, .idle hc (.inr (.inl st)), processVerdict_toIdle peak (nextMove_after_sync (.inr st) hc)⟩
  | idle =>
    have hc := hclock (by rw [st]; rfl)
    cases hsync : syncNow (histPush r s) with
    | true => exact exists_passage_of_sync peak hc (.inl st) hsync
    | false =>
      by_cases hsp : s.rx.sampCnt = s.rx.nextSp
      · exact exists_passage_of_sampling peak hc st hsync hsp
      · refine ⟨_, .idle hc (.inr (.inr (.inl ⟨st, hsp⟩))), processVerdict_toIdle peak ?_⟩
        rw [blockMove, hsync, beq_false_of_ne hsp, Bool.and_false]
        exact nextMove_of_idle_waiting st hc
  | symbol =>
    have hc := hclock (by rw [st]; rfl)
    cases hsync : syncNow (histPush r s) with
    | true => exact exists_passage_of_sync peak hc (.inr (.inl st)) hsync
    | false =>
      refine ⟨_, .guard hc (.inl st), processVerdict_toGuard peak ?_⟩
      rw [blockMove, hsync]
      exact nextMove_of_symbol st hc
  | guard =>
    have hc := hclock (by rw [st]; rfl)
    cases hsync : syncNow (histPush r s) with
    | true => exact exists_passage_of_sync peak hc (.inr (.inr st)) hsync
    | false =>
      have hmove : blockMove s r = if s.rx.guardLeft = 0 then .toIdle else .toGuard := by
        rw [blockMove, hsync]
        exact nextMove_of_guard st hc
      by_cases hleft : s.rx.guardLeft = 0
      · exact ⟨_, .idle hc (.inr (.inr (.inr ⟨st, hleft⟩))), processVerdict_toIdle peak (hmove.trans (if_pos hleft))⟩
      · exact ⟨_, .guard hc (.inr ⟨st, hleft⟩), processVerdict_toGuard peak (hmove.trans (if_neg hleft))⟩

end ExistsPassage

/-! ### BLOCK -/

/-- BLOCK's input taken: one tick of the sequencer in loopback, the head of SIN else (43_rx_state_machine.md R171). -/
inductive InputTaken (s : State) : State → Prop
  | tick (hloop : s.cfg.loop = true) : InputTaken s { s with tx := (txTickRegs s.params s.tx).2 }
  | block (hloop : s.cfg.loop = false) : InputTaken s { s with port.sin := s.port.sin.drop 1 }

theorem selectBlock_inputTaken {s t : State} {X : List Sample} (h : selectBlock s = some (X, t)) : InputTaken s t := by
  unfold selectBlock at h
  split at h
  next hloop =>
    obtain ⟨-, rfl⟩ := h
    exact .tick hloop
  next hloop =>
    have hhead := InputTaken.block (Bool.eq_false_iff.2 hloop)
    unfold sinBlock at h
    split at h
    next X' rest hsin =>
      obtain ⟨-, rfl⟩ := h
      split at hsin
      · cases hsin
      next Y tail hport =>
        rw [hport] at hhead
        split at hsin
        · obtain ⟨rfl, rfl⟩ := hsin
          exact hhead
        · cases hsin
    · cases h

/-- A verdict is a symbol or NO_SYMBOL (41_detector.md R137, 10_state.md R24). -/
theorem isRaw_detect (p : Params) (c : ConfigRegs) (X : List Sample) : IsRaw (detect p c X).1 := by
  rw [detect_eq]
  dsimp only
  split
  · exact .inr rfl
  · left
    rw [toNat_ofNat_windowPeak]
    have := windowPeak_lt p c X
    omega

/-- Neither in FatalError nor under a fatal configuration, the detector's verdict passes through the receive path
(43_rx_state_machine.md R170). -/
theorem receiveBlock_of_legal {X : List Sample} {s : State} (hs : s.rx.rxState ≠ .fatalError)
    (hc : fatalCode s.params s.cfg = 0) :
    receiveBlock X s = processVerdict (detect s.params s.cfg X).1 (detect s.params s.cfg X).2 s := by
  rw [receiveBlock, if_neg hs, if_neg (not_not.2 hc)]

/-- A BLOCK that completes takes its input, and then does nothing in FatalError, enters it, or passes one verdict
through the receive path (43_rx_state_machine.md R170, R172, R174). -/
theorem exec_block_cases {s t : State} (h : exec .block s = .next t) :
    ∃ s', InputTaken s s' ∧
      ((s.rx.rxState = .fatalError ∧ t = s') ∨
       (s.rx.rxState ≠ .fatalError ∧ fatalCode s.params s.cfg ≠ 0 ∧ t = fatalEntered (fatalCode s.params s.cfg) s') ∨
       (s.rx.rxState ≠ .fatalError ∧ fatalCode s.params s.cfg = 0 ∧
         ∃ r peak u, IsRaw r ∧ Passage s' u ∧ t = blockBooked r peak s' u)) := by
  rw [exec, execBlock] at h
  split at h
  next X s' hsel =>
    cases h
    obtain ⟨hp, hcfg, hrx⟩ := selectBlock_keeps hsel
    refine ⟨s', selectBlock_inputTaken hsel, ?_⟩
    rw [← hp, ← hcfg, ← hrx]
    by_cases hs : s'.rx.rxState = .fatalError
    · exact .inl ⟨hs, receiveBlock_of_fatalError X hs⟩
    by_cases hc : fatalCode s'.params s'.cfg = 0
    · obtain ⟨u, hu, hblock⟩ :=
        exists_passage (r := (detect s'.params s'.cfg X).1) (detect s'.params s'.cfg X).2 hs
      exact .inr (.inr ⟨hs, hc, _, _, u, isRaw_detect s'.params s'.cfg X, hu,
        (receiveBlock_of_legal hs hc).trans hblock⟩)
    · exact .inr (.inl ⟨hs, hc, receiveBlock_of_fatalCode_ne hs hc⟩)
  next => cases h

/-! ### One command -/

/-- The configuration an accepted setter leaves (40_config_ops.md R109 to R118). -/
inductive Written (s : State) : Instr → ConfigRegs → Prop
  | setloop (b : Bool) : Written s (.setloop b) { s.cfg with loop := b, rxLoop := b }
  | settxrate (r : BitVec 24) (h : s.params.sampleRateMin ≤ r.toNat ∧ r.toNat ≤ s.params.sampleRateMax) :
      Written s (.settxrate r) { s.cfg with txRate := r }
  | setrxrate (r : BitVec 24) (h : s.params.sampleRateMin ≤ r.toNat ∧ r.toNat ≤ s.params.sampleRateMax) :
      Written s (.setrxrate r) { s.cfg with rxRate := r }
  | setamp (a : BitVec 16) (h : a.toNat ≤ 0x8000) : Written s (.setamp a) { s.cfg with txAmp := a, rxAmp := a }
  | settxmin (v : BitVec 16) : Written s (.settxmin v) { s.cfg with txMin := v.setWidth 15 }
  | settxmax (v : BitVec 16) : Written s (.settxmax v) { s.cfg with txMax := v.setWidth 15 }
  | setrxmin (v : BitVec 16) : Written s (.setrxmin v) { s.cfg with rxMin := v.setWidth 15 }
  | setrxmax (v : BitVec 16) : Written s (.setrxmax v) { s.cfg with rxMax := v.setWidth 15 }
  | setthresh (v : BitVec 16) : Written s (.setthresh v) { s.cfg with thresh := v }

/-- The states a completed command can leave. -/
inductive Effect (s : State) : Instr → State → Prop
  | unchanged : Effect s .nop s
  | reset : Effect s .reset (resetOperation s)
  | acknowledged (mask : BitVec 16) :
      Effect s (.ack mask) { s with diag.status := acknowledge mask s.diag.status }
  | enabled (mask : BitVec 16) : Effect s (.irqen mask) { s with cfg.irqEn := mask.extractLsb' 0 7 }
  | accepted {i : Instr} {c : ConfigRegs} (which : BitVec 8) (hw : Written s i c) :
      Effect s i (cfgInstalled which c s)
  | acceptedClearing {i : Instr} {c : ConfigRegs} (which : BitVec 8) (hw : Written s i c) :
      Effect s i (cfgInstalled which c (rxClear s))
  | rejected {i : Instr} {code : BitVec 4} (which : BitVec 8) (hi : i.isSetter = true) (hcode : code.toNat ≤ 3) :
      Effect s i (setterRejected which code s)
  | entryWritten (idx : BitVec 8) (val : BitVec 16) (pbuf : Vector (BitVec 16) 32) :
      Effect s (.ldp idx val) { s with tx.pbuf := pbuf }
  | entryRefused (idx : BitVec 8) (val : BitVec 16) (w : Word32) : Effect s (.ldp idx val) (wordRejected w s)
  | notSent {i : Instr} {code : BitVec 4} (hi : i.isSend = true) (hcode : code.toNat ≤ 5) :
      Effect s i (sendFailed code s)
  | queued {i : Instr} {syms : List Symbol} (hi : i.isSend = true)
      (hroom : s.tx.txq.length + syms.length ≤ s.params.txqDepth) (hsyms : ∀ x ∈ syms, x.toNat ≤ 0x7FFF) :
      Effect s i { s with tx.txq := s.tx.txq ++ syms }
  | ticked (d : ToneDescriptor) :
      Effect s .txtick { s with tx := (txTickRegs s.params s.tx).2, port.tout := s.port.tout ++ [d] }
  | blockIgnored {s' : State} (hin : InputTaken s s') (hs : s.rx.rxState = .fatalError) : Effect s .block s'
  | blockFatal {s' : State} (hin : InputTaken s s') (hs : s.rx.rxState ≠ .fatalError)
      (hc : fatalCode s.params s.cfg ≠ 0) : Effect s .block (fatalEntered (fatalCode s.params s.cfg) s')
  | blockProcessed {s' u : State} (hin : InputTaken s s') (hs : s.rx.rxState ≠ .fatalError)
      (hc : fatalCode s.params s.cfg = 0) {r : Symbol} (peak : Level) (hr : IsRaw r) (hu : Passage s' u) :
      Effect s .block (blockBooked r peak s' u)

theorem Written.isSetter {s : State} {i : Instr} {c : ConfigRegs} (h : Written s i c) : i.isSetter = true := by
  cases h <;> rfl

theorem effect_setter {s : State} {i : Instr} {c : ConfigRegs} (which : BitVec 8) {valid rxAffecting : Bool}
    {code : BitVec 4} (hi : i.isSetter = true) (hcode : code.toNat ≤ 3) (hw : valid = true → Written s i c) :
    Effect s i (setter which valid code rxAffecting c s) := by
  cases rxAffecting with
  | false =>
    rw [setter_tx]
    split
    next hv => exact .accepted which (hw hv)
    · exact .rejected which hi hcode
  | true =>
    rw [setter_rx]
    split
    next hv =>
      split
      · exact .accepted which (hw hv)
      · exact .acceptedClearing which (hw hv)
    · exact .rejected which hi hcode

section Send

variable {s : State}

/-- Above an empty range the top symbol is at least 1, so the preamble's symbols are 15-bit (00_scope.md R11). -/
theorem preamble_le {c : ConfigRegs} (h : c.txMin.toNat < c.txMax.toNat) : ∀ x ∈ preamble c, x.toNat ≤ 0x7FFF := by
  have hA : (syncA c.txMax).toNat ≤ 0x7FFF := by
    simp only [syncA]
    bv_omega
  have hB : (syncB c.txMax).toNat ≤ 0x7FFF := by
    simp only [syncB]
    bv_omega
  simpa [preamble] using And.intro hA hB

/-- What SENDFRAME's checks give, when none fails (45_tx_sequencer.md R234). -/
theorem sendFrameFailure_eq_none {len : Nat} {cmd : Bool} (h : sendFrameFailure s len cmd = none) :
    s.cfg.txMin.toNat < s.cfg.txMax.toNat ∧
      (∀ b ∈ sendBytes s len cmd, byteEncodable s.cfg.txMin s.cfg.txMax b = true) ∧
      s.tx.txq.length + (2 + (sendBytes s len cmd).length) ≤ s.params.txqDepth := by
  unfold sendFrameFailure at h
  split_ifs at h with hlen hbyte hrange henc hroom
  rw [queueLacksRoom_iff, not_lt] at hroom
  refine ⟨not_le.1 hrange, fun b hb => ?_, hroom⟩
  by_contra hnot
  exact henc (List.any_eq_true.2 ⟨b, hb, by simpa using hnot⟩)

theorem sendSyncFailure_eq_none (h : sendSyncFailure s = none) :
    s.cfg.txMin.toNat < s.cfg.txMax.toNat ∧ s.tx.txq.length + 2 ≤ s.params.txqDepth := by
  unfold sendSyncFailure at h
  split_ifs at h with hrange hroom
  rw [queueLacksRoom_iff, not_lt] at hroom
  exact ⟨not_le.1 hrange, hroom⟩

theorem sendFrameFailure_le {len : Nat} {cmd : Bool} {code : BitVec 4} (h : sendFrameFailure s len cmd = some code) :
    code.toNat ≤ 5 := by
  unfold sendFrameFailure at h
  split_ifs at h <;> cases h <;> decide

theorem sendSyncFailure_le {code : BitVec 4} (h : sendSyncFailure s = some code) : code.toNat ≤ 5 := by
  unfold sendSyncFailure at h
  split_ifs at h <;> cases h <;> decide

theorem effect_sendframe (len : BitVec 8) (cmd : Bool) :
    Effect s (.sendframe len cmd)
      (sendOutcome (sendFrameFailure s len.toNat cmd) (frameSymbols s.cfg (sendBytes s len.toNat cmd)) s) := by
  cases hf : sendFrameFailure s len.toNat cmd with
  | some code => exact .notSent rfl (sendFrameFailure_le hf)
  | none =>
    obtain ⟨hrange, henc, hroom⟩ := sendFrameFailure_eq_none hf
    refine .queued rfl ?_ fun x hx => ?_
    · rwa [frameSymbols, List.length_append, List.length_map]
    · obtain hpre | hdata := List.mem_append.1 hx
      · exact preamble_le hrange x hpre
      · obtain ⟨b, hb, rfl⟩ := List.mem_map.1 hdata
        have hfits := of_decide_eq_true (henc b hb)
        rw [toNat_byteToSymbol]
        omega

theorem effect_sendsync : Effect s .sendsync (sendOutcome (sendSyncFailure s) (preamble s.cfg) s) := by
  cases hf : sendSyncFailure s with
  | some code => exact .notSent rfl (sendSyncFailure_le hf)
  | none =>
    obtain ⟨hrange, hroom⟩ := sendSyncFailure_eq_none hf
    exact .queued rfl hroom (preamble_le hrange)

end Send

/-- Whatever command completes, it has one of the listed effects. -/
theorem effect_of_exec {s t : State} {i : Instr} (h : exec i s = .next t) : Effect s i t := by
  cases i with
  | block =>
    obtain ⟨s', hin, ⟨hs, rfl⟩ | ⟨hs, hc, rfl⟩ | ⟨hs, hc, r, peak, u, hr, hu, rfl⟩⟩ := exec_block_cases h
    · exact .blockIgnored hin hs
    · exact .blockFatal hin hs hc
    · exact .blockProcessed hin hs hc peak hr hu
  | nop =>
    cases h
    exact .unchanged
  | reset =>
    cases h
    exact .reset
  | ack mask =>
    cases h
    exact .acknowledged mask
  | irqen mask =>
    cases h
    exact .enabled mask
  | txtick =>
    rw [exec_txtick] at h
    cases h
    exact .ticked _
  | ldp idx val =>
    cases h
    split
    · exact .entryWritten idx val _
    · exact .entryRefused idx val _
  | sendframe len cmd =>
    rw [exec_sendframe] at h
    cases h
    exact effect_sendframe len cmd
  | sendsync =>
    rw [exec_sendsync] at h
    cases h
    exact effect_sendsync
  | setloop b =>
    cases h
    exact effect_setter _ rfl (by decide) fun _ => .setloop b
  | settxrate r =>
    cases h
    exact effect_setter _ rfl (by decide) fun hv => .settxrate r ((rateValid_iff _ r).1 hv)
  | setrxrate r =>
    cases h
    exact effect_setter _ rfl (by decide) fun hv => .setrxrate r ((rateValid_iff _ r).1 hv)
  | setamp a =>
    cases h
    exact effect_setter _ rfl (by decide) fun hv => .setamp a ((ampValid_iff a).1 hv)
  | settxmin v =>
    cases h
    exact effect_setter _ rfl (by decide) fun _ => .settxmin v
  | settxmax v =>
    cases h
    exact effect_setter _ rfl (by decide) fun _ => .settxmax v
  | setrxmin v =>
    cases h
    exact effect_setter _ rfl (by decide) fun _ => .setrxmin v
  | setrxmax v =>
    cases h
    exact effect_setter _ rfl (by decide) fun _ => .setrxmax v
  | setthresh v =>
    cases h
    exact effect_setter _ rfl (by decide) fun _ => .setthresh v

/-! ### One step -/

/-- A step that completes holds the state, takes a power-on reset, or takes a word: a command's or a reserved one
(00_scope.md R10, 30_encoding.md R90, R92). -/
theorem step_cases {s t : State} (h : step s = .next t) :
    t = s ∨ ∃ rest, (t = porOperation { s with port.pending := rest }) ∨
      (∃ w, t = wordRejected w { s with port.pending := rest }) ∨
      ∃ i, exec i { s with port.pending := rest } = .next t := by
  cases hp : s.port.pending with
  | nil =>
    rw [step, takeInput_nil hp] at h
    cases h
    exact .inl rfl
  | cons input rest =>
    refine .inr ⟨rest, ?_⟩
    cases input with
    | por =>
      rw [step, takeInput_por hp] at h
      cases h
      exact .inl rfl
    | word w =>
      cases hd : decode w with
      | none =>
        rw [step_of_word hp, accept_of_reserved _ hd] at h
        cases h
        exact .inr (.inl ⟨w, rfl⟩)
      | some i =>
        rw [step_of_decode hp hd] at h
        exact .inr (.inr ⟨i, h⟩)

/-- From a property that does not see CMD to one that POR, a rejected word and every command establish. -/
theorem step_leads {P Q : State → Prop} {s t : State} (hs : P s)
    (hport : ∀ rest, P s → P { s with port.pending := rest }) (hnothing : P s → Q s)
    (hpor : ∀ u, P u → Q (porOperation u)) (hword : ∀ w u, P u → Q (wordRejected w u))
    (hexec : ∀ i u v, P u → Effect u i v → Q v) (h : step s = .next t) : Q t := by
  obtain rfl | ⟨rest, rfl | ⟨w, rfl⟩ | ⟨i, hi⟩⟩ := step_cases h
  · exact hnothing hs
  · exact hpor _ (hport rest hs)
  · exact hword w _ (hport rest hs)
  · exact hexec i _ _ (hport rest hs) (effect_of_exec hi)

/-- A property every step keeps. -/
theorem step_keeps {P : State → Prop} {s t : State} (hs : P s)
    (hport : ∀ rest, P s → P { s with port.pending := rest }) (hpor : ∀ u, P u → P (porOperation u))
    (hword : ∀ w u, P u → P (wordRejected w u)) (hexec : ∀ i u v, P u → Effect u i v → P v)
    (h : step s = .next t) : P t := step_leads hs hport id hpor hword hexec h

end Sys2Proof.Machine
end

section
/-!
SUPPORT. What every command and every step keeps (10_state.md, 43_rx_state_machine.md R196, 44_framer.md R222), each
claim a case analysis on the effects of a command and the passages of a block.
-/

namespace Sys2Proof

/-- A setter is neither RESET nor BLOCK nor ACK. -/
theorem Instr.ne_of_isSetter {i : Instr} (h : i.isSetter = true) :
    i ≠ .reset ∧ i ≠ .block ∧ ∀ imm, i ≠ .ack imm := by
  cases i with
  | reset | block | ack => cases h
  | _ => exact ⟨nofun, nofun, nofun⟩

/-- A send command is neither RESET nor BLOCK nor ACK. -/
theorem Instr.ne_of_isSend {i : Instr} (h : i.isSend = true) : i ≠ .reset ∧ i ≠ .block ∧ ∀ imm, i ≠ .ack imm := by
  cases i with
  | reset | block | ack => cases h
  | _ => exact ⟨nofun, nofun, nofun⟩

end Sys2Proof

namespace Sys2Proof.Machine

/-! ### BLOCK's input and the rest of the state -/

/-- BLOCK's input selection writes the transmit registers or SIN, and nothing else. -/
theorem InputTaken.exists_eq {s s' : State} (h : InputTaken s s') :
    ∃ tx sin, s' = { s with tx := tx, port.sin := sin } := by
  cases h with
  | tick => exact ⟨_, s.port.sin, rfl⟩
  | block => exact ⟨s.tx, _, rfl⟩

/-- A block's passage leaves the transmit side and the configuration alone. -/
theorem Passage.keepsTxSide {s t : State} (h : Passage s t) : KeepsTxSide s t := by
  cases h <;> exact ⟨rfl, rfl, rfl, rfl, rfl, rfl⟩

/-- No command changes a parameter (00_scope.md R5). -/
theorem Effect.params {s t : State} {i : Instr} (h : Effect s i t) : t.params = s.params := by
  cases h with
  | acceptedClearing => exact (rxClear_keeps s).1.params
  | blockIgnored hin hs =>
    obtain ⟨tx, sin, rfl⟩ := hin.exists_eq
    rfl
  | blockFatal hin hs hc =>
    obtain ⟨tx, sin, rfl⟩ := hin.exists_eq
    rfl
  | blockProcessed hin hs hc peak hr hu =>
    obtain ⟨tx, sin, rfl⟩ := hin.exists_eq
    exact hu.keepsTxSide.params
  | _ => rfl

/-! ### Flags and events -/

/-- From s to t the records `es` were appended to EVT, and their flags set in STATUS (10_state.md R22, R38). -/
structure Reports (s t : State) (es : List Event) : Prop where
  evt : t.port.evt = s.port.evt ++ es
  status : t.diag.status = s.diag.status ||| flagsOf es

theorem Reports.nothing {s t : State} (hevt : t.port.evt = s.port.evt) (hstatus : t.diag.status = s.diag.status) :
    Reports s t [] := ⟨by rw [hevt, List.append_nil], by rw [hstatus]; exact BitVec.or_zero.symm⟩

theorem Reports.one {s t : State} (e : Event) (hevt : t.port.evt = s.port.evt ++ [e])
    (hstatus : t.diag.status = s.diag.status ||| e.flag) : Reports s t [e] :=
  ⟨hevt, by rw [hstatus, flagsOf_singleton]⟩

theorem Reports.trans {a b c : State} {es more : List Event} (h : Reports a b es) (g : Reports b c more) :
    Reports a c (es ++ more) :=
  ⟨by rw [g.evt, h.evt, List.append_assoc], by rw [g.status, h.status, flagsOf_append, BitVec.or_assoc]⟩

theorem reports_candsReported (resolved : List (Id × Verdict)) (s : State) :
    Reports s (candsReported resolved s) [.cands s.frm.cand resolved] := .one _ rfl rfl

/-- The records of a byte with candidates in flight: its Frames, then the table's CANDS. -/
theorem exists_reports_byteReported (b : Byte) (idx : Id) (s : State) : ∃ es, Reports s (byteReported b idx s) es :=
  ⟨_, Reports.trans (b := (fedSettled _ _).s) ⟨rfl, rfl⟩ (reports_candsReported _ _)⟩

theorem Passage.exists_reports {s t : State} (h : Passage s t) : ∃ es, Reports s t es := by
  cases h with
  | wait | idle | guard | sampleUnheard | errorUnreported => exact ⟨[], .nothing rfl rfl⟩
  | acquire | reconfirm | resynchronise | errorReported => exact ⟨_, .one _ rfl rfl⟩
  | sampleByte hclock st hsp b hcand =>
    obtain ⟨es, hes⟩ := exists_reports_byteReported b (blockIndex s) (sampledAt s)
    exact ⟨es, hes.evt, hes.status⟩

theorem exists_reports_rxClear (s : State) : ∃ es, Reports s (rxClear s) es := by
  by_cases h : s.frm.cand = []
  · rw [rxClear_of_nil h]
    exact ⟨[], .nothing rfl rfl⟩
  · rw [rxClear_of_ne h]
    exact ⟨_, .one _ rfl rfl⟩

/-- Of all commands ACK and RESET alone clear flags, and they append no record. -/
theorem Effect.exists_reports {s t : State} {i : Instr} (h : Effect s i t) :
    (∃ es, Reports s t es) ∧ i ≠ .reset ∧ (∀ imm, i ≠ .ack imm) ∨
      t.port.evt = s.port.evt ∧ ((∃ imm, i = .ack imm) ∨ i = .reset) := by
  have setter (hi : i.isSetter = true) := (Instr.ne_of_isSetter hi).imp_right And.right
  have send (hi : i.isSend = true) := (Instr.ne_of_isSend hi).imp_right And.right
  cases h with
  | acknowledged mask => exact .inr ⟨rfl, .inl ⟨mask, rfl⟩⟩
  | reset => exact .inr ⟨rfl, .inr rfl⟩
  | unchanged | enabled | entryWritten | ticked => exact .inl ⟨⟨[], .nothing rfl rfl⟩, nofun, nofun⟩
  | entryRefused => exact .inl ⟨⟨_, .one _ rfl rfl⟩, nofun, nofun⟩
  | accepted which hw => exact .inl ⟨⟨_, .one _ rfl rfl⟩, setter hw.isSetter⟩
  | rejected which hi hcode => exact .inl ⟨⟨_, .one _ rfl rfl⟩, setter hi⟩
  | acceptedClearing which hw =>
    obtain ⟨es, hes⟩ := exists_reports_rxClear s
    exact .inl ⟨⟨_, hes.trans (.one _ rfl rfl)⟩, setter hw.isSetter⟩
  | notSent hi hcode => exact .inl ⟨⟨_, .one _ rfl rfl⟩, send hi⟩
  | queued hi hroom hsyms => exact .inl ⟨⟨[], .nothing rfl rfl⟩, send hi⟩
  | blockIgnored hin hs =>
    obtain ⟨tx, sin, rfl⟩ := hin.exists_eq
    exact .inl ⟨⟨[], .nothing rfl rfl⟩, nofun, nofun⟩
  | blockFatal hin hs hc =>
    obtain ⟨tx, sin, rfl⟩ := hin.exists_eq
    exact .inl ⟨⟨_, .one _ rfl rfl⟩, nofun, nofun⟩
  | blockProcessed hin hs hc peak hr hu =>
    obtain ⟨tx, sin, rfl⟩ := hin.exists_eq
    obtain ⟨es, hes⟩ := hu.exists_reports
    exact .inl ⟨⟨es, hes.evt, hes.status⟩, nofun, nofun⟩

/-! ### Configuration -/

/-- Only a setter and IRQEN write a configuration register (20_memory.md R66). -/
theorem Effect.cfg_cases {s t : State} {i : Instr} (h : Effect s i t) :
    t.cfg = s.cfg ∨ Written s i t.cfg ∨
      ∃ mask, i = .irqen mask ∧ t.cfg = { s.cfg with irqEn := mask.extractLsb' 0 7 } := by
  cases h with
  | accepted which hw | acceptedClearing which hw => exact .inr (.inl hw)
  | enabled mask => exact .inr (.inr ⟨mask, rfl, rfl⟩)
  | blockIgnored hin hs =>
    obtain ⟨tx, sin, rfl⟩ := hin.exists_eq
    exact .inl rfl
  | blockFatal hin hs hc =>
    obtain ⟨tx, sin, rfl⟩ := hin.exists_eq
    exact .inl rfl
  | blockProcessed hin hs hc peak hr hu =>
    obtain ⟨tx, sin, rfl⟩ := hin.exists_eq
    exact .inl hu.keepsTxSide.cfg
  | _ => exact .inl rfl

/-- No setter writes IRQEN. -/
theorem Written.irqEn {s : State} {i : Instr} {c : ConfigRegs} (h : Written s i c) : c.irqEn = s.cfg.irqEn := by
  cases h <;> rfl

section ConfigInv

variable {s t : State}

theorem ConfigInv.congr (h : ConfigInv s) (hp : t.params = s.params) (hc : t.cfg = s.cfg) : ConfigInv t := by
  obtain ⟨hloop, hamp, hle, htge, htle, hrge, hrle⟩ := h
  constructor <;> simpa only [hp, hc]

theorem ConfigInv.afterPor {p : Params} (hp : p.Consistent) : ConfigInv (State.afterPor p) where
  loop_mirror := rfl
  amp_mirror := rfl
  amp_le := by
    rw [show (State.afterPor p).cfg.txAmp = 0x199A from rfl]
    decide
  txRate_ge := hp.resetRate_ge
  txRate_le := hp.resetRate_le
  rxRate_ge := hp.resetRate_ge
  rxRate_le := hp.resetRate_le

/-- An accepted setter writes a legal value, and both mirrors together (40_config_ops.md R109). -/
theorem ConfigInv.written {i : Instr} {c : ConfigRegs} (h : ConfigInv s) (hw : Written s i c) :
    ConfigInv { s with cfg := c } := by
  obtain ⟨hloop, hamp, hle, htge, htle, hrge, hrle⟩ := h
  cases hw with
  | setloop b => exact ⟨rfl, hamp, hle, htge, htle, hrge, hrle⟩
  | settxrate r hr => exact ⟨hloop, hamp, hle, hr.1, hr.2, hrge, hrle⟩
  | setrxrate r hr => exact ⟨hloop, hamp, hle, htge, htle, hr.1, hr.2⟩
  | setamp a ha => exact ⟨hloop, rfl, ha, htge, htle, hrge, hrle⟩
  | _ => exact ⟨hloop, hamp, hle, htge, htle, hrge, hrle⟩

theorem ConfigInv.effect {i : Instr} (h : ConfigInv s) (ht : Effect s i t) : ConfigInv t := by
  obtain hc | hw | ⟨mask, -, hc⟩ := ht.cfg_cases
  · exact h.congr ht.params hc
  · exact (h.written hw).congr ht.params rfl
  · obtain ⟨hloop, hamp, hle, htge, htle, hrge, hrle⟩ := h
    constructor <;> simpa only [hc, ht.params]

end ConfigInv

/-! ### SAMPCNT and the two paths -/

/-- SAMPCNT after the command `i` (10_state.md R26). -/
def sampCntAfter (i : Instr) (s : State) : SampleCount :=
  if i = .reset then 0
  else if i = .block ∧ s.rx.rxState ≠ .fatalError ∧ fatalCode s.params s.cfg = 0 then
    s.rx.sampCnt + BitVec.ofNat 64 s.params.fftSize
  else s.rx.sampCnt

theorem sampCntAfter_of_ne {i : Instr} (s : State) (hreset : i ≠ .reset) (hblock : i ≠ .block) :
    sampCntAfter i s = s.rx.sampCnt := by
  rw [sampCntAfter, if_neg hreset, if_neg fun h => hblock h.1]

theorem sampCntAfter_block_of_stopped {s : State} (h : s.rx.rxState = .fatalError ∨ fatalCode s.params s.cfg ≠ 0) :
    sampCntAfter .block s = s.rx.sampCnt := by
  rw [sampCntAfter, if_neg nofun, if_neg]
  exact fun hb => h.elim hb.2.1 fun hc => hc hb.2.2

theorem Effect.sampCnt {s t : State} {i : Instr} (h : Effect s i t) : t.rx.sampCnt = sampCntAfter i s := by
  have setter (hi : i.isSetter = true) : sampCntAfter i s = s.rx.sampCnt :=
    sampCntAfter_of_ne s (Instr.ne_of_isSetter hi).1 (Instr.ne_of_isSetter hi).2.1
  cases h with
  | reset => rfl
  | accepted which hw => exact (setter hw.isSetter).symm
  | acceptedClearing which hw => exact (rxClear_keeps s).2.1.trans (setter hw.isSetter).symm
  | rejected which hi => exact (setter hi).symm
  | notSent hi | queued hi =>
    exact (sampCntAfter_of_ne s (Instr.ne_of_isSend hi).1 (Instr.ne_of_isSend hi).2.1).symm
  | blockIgnored hin hs =>
    obtain ⟨tx, sin, rfl⟩ := hin.exists_eq
    exact (sampCntAfter_block_of_stopped (.inl hs)).symm
  | blockFatal hin hs hc =>
    obtain ⟨tx, sin, rfl⟩ := hin.exists_eq
    exact (sampCntAfter_block_of_stopped (.inr hc)).symm
  | blockProcessed hin hs hc peak hr hu =>
    obtain ⟨tx, sin, rfl⟩ := hin.exists_eq
    exact ((if_neg nofun).trans (if_pos ⟨rfl, hs, hc⟩)).symm
  | _ => refine (sampCntAfter_of_ne s ?_ ?_).symm <;> exact nofun

/-- After its input is taken a BLOCK leaves the transmit side alone (20_memory.md R66). -/
theorem exec_block_keepsTxSide {s t : State} (h : exec .block s = .next t) :
    ∃ s', InputTaken s s' ∧ KeepsTxSide s' t := by
  rw [exec, execBlock] at h
  split at h
  next X s' hsel =>
    cases h
    exact ⟨s', selectBlock_inputTaken hsel, receiveBlock_keeps X s'⟩
  next => cases h

/-- A send command leaves the receive path alone (20_memory.md R66). -/
theorem sendOutcome_receive (failure : Option (BitVec 4)) (syms : List Symbol) (s : State) :
    (sendOutcome failure syms s).rx = s.rx ∧ (sendOutcome failure syms s).frm = s.frm ∧
      (sendOutcome failure syms s).port.sin = s.port.sin := by
  cases failure <;> exact ⟨rfl, rfl, rfl⟩

end Sys2Proof.Machine

open Sys2Proof Sys2Proof.Machine

/-- Settles O53: the records and flags of each effect. -/
theorem everyFlagHasItsEvent : Obligations.EveryFlagHasItsEvent := by
  intro i s t h
  obtain ⟨⟨es, hes⟩, hreset, hack⟩ | ⟨hevt, hclears⟩ := (effect_of_exec h).exists_reports
  · refine ⟨es, hes.evt, fun _ _ => hes.status, ?_⟩
    rintro (⟨imm, rfl⟩ | rfl)
    · exact absurd rfl (hack imm)
    · exact absurd rfl hreset
  · refine ⟨[], by rw [hevt, List.append_nil], fun hack hreset => ?_, fun _ => rfl⟩
    obtain ⟨imm, rfl⟩ | rfl := hclears
    · exact absurd rfl (hack imm)
    · exact absurd rfl hreset

/-- Settles O54: the parameters and the configuration registers through each effect. -/
theorem onlySettersWriteConfiguration : Obligations.OnlySettersWriteConfiguration := by
  refine ⟨fun s t h => ?_, fun i s t h hi => ?_, fun i s t h hirq => ?_⟩
  · exact step_keeps (P := fun u => u.params = s.params) rfl (fun _ hu => hu) (fun _ hu => hu) (fun _ _ hu => hu)
      (fun i u v hu hv => hv.params.trans hu) h
  · obtain hc | hw | ⟨mask, rfl, -⟩ := (effect_of_exec h).cfg_cases
    · exact hc
    · have hset := hw.isSetter
      obtain rfl | rfl | rfl | rfl | rfl | ⟨imm, rfl⟩ | ⟨idx, val, rfl⟩ | ⟨len, cmd, rfl⟩ := hi <;> cases hset
    · simp at hi
  · obtain hc | hw | ⟨mask, rfl, -⟩ := (effect_of_exec h).cfg_cases
    · rw [hc]
    · exact hw.irqEn
    · exact absurd rfl (hirq mask)

/-- Settles O57: SAMPCNT through each effect. -/
theorem sampleCounterOnlyCountsBlocks : Obligations.SampleCounterOnlyCountsBlocks :=
  fun _ _ _ h => (effect_of_exec h).sampCnt

/-- Settles O55: the transmit commands by their meanings, BLOCK by its input and `receiveBlock_keeps`. -/
theorem pathsShareNoState : Obligations.PathsShareNoState := by
  refine ⟨fun i s t h hi => ?_, fun s t h => ?_⟩
  · obtain rfl | rfl | ⟨idx, val, rfl⟩ | ⟨len, cmd, rfl⟩ := hi
    · cases h
      exact ⟨rfl, rfl, rfl⟩
    · rw [exec_sendsync] at h
      cases h
      exact sendOutcome_receive _ _ s
    · cases h
      split <;> exact ⟨rfl, rfl, rfl⟩
    · rw [exec_sendframe] at h
      cases h
      exact sendOutcome_receive _ _ s
  · obtain ⟨s', hin, hkeeps⟩ := exec_block_keepsTxSide h
    rw [hkeeps.tx, hkeeps.tout, hkeeps.sin]
    cases hin with
    | tick hloop => simp [hloop, txTickRegs_pbuf]
    | block hloop => simp [hloop]

end

section
/-!
SUPPORT. The invariants of the state (10_state.md sections 3, 5 to 7, 43_rx_state_machine.md R196, 44_framer.md R222),
each established by POR and kept by every effect of a command.
-/

namespace Sys2Proof.Machine

/-! ### Code registers -/

section DiagnosticsInv

variable {s t : State}

theorem DiagnosticsInv.congr (h : DiagnosticsInv s) (herr : t.diag.errCode = s.diag.errCode)
    (hfatal : t.diag.fatalCode = s.diag.fatalCode) (htx : t.diag.txErrCode = s.diag.txErrCode)
    (hset : t.diag.setErrCode = s.diag.setErrCode)
    (hstate : t.rx.rxState = .fatalError → s.rx.rxState = .fatalError) : DiagnosticsInv t where
  errCode_le := by rw [herr]; exact h.errCode_le
  fatalCode_le := by rw [hfatal]; exact h.fatalCode_le
  txErrCode_le := by rw [htx]; exact h.txErrCode_le
  setErrCode_le := by rw [hset]; exact h.setErrCode_le
  fatal_coded := fun ht => by rw [hfatal]; exact h.fatal_coded (hstate ht)

/-- All codes 0 and RXSTATE at IdleInit, as after RESET and POR. -/
theorem DiagnosticsInv.of_por (hdiag : t.diag = .por) (hstate : t.rx.rxState = .idleInit) : DiagnosticsInv t := by
  constructor <;> simp [hdiag, hstate, DiagRegs.por]

theorem rxClear_codes (s : State) :
    (rxClear s).diag.errCode = s.diag.errCode ∧ (rxClear s).diag.fatalCode = s.diag.fatalCode ∧
      (rxClear s).diag.txErrCode = s.diag.txErrCode ∧ (rxClear s).diag.setErrCode = s.diag.setErrCode := by
  by_cases h : s.frm.cand = []
  · rw [rxClear_of_nil h]
    exact ⟨rfl, rfl, rfl, rfl⟩
  · rw [rxClear_of_ne h]
    exact ⟨rfl, rfl, rfl, rfl⟩

theorem toNat_fatalCode_le (p : Params) (c : ConfigRegs) : (fatalCode p c).toNat ≤ 3 := by
  unfold fatalCode
  split_ifs <;> decide

/-- No transition leads to FatalError (43_rx_state_machine.md R184). -/
theorem Passage.rxState_ne (h : Passage s t) : t.rx.rxState ≠ .fatalError := by
  cases h <;> exact nofun

theorem DiagnosticsInv.passage (h : DiagnosticsInv s) (ht : Passage s t) : DiagnosticsInv t := by
  have unmoved : t.rx.rxState = .fatalError → s.rx.rxState = .fatalError := fun hf => absurd hf ht.rxState_ne
  cases ht with
  | errorUnreported hcode | errorReported hcode =>
    refine ⟨?_, h.fatalCode_le, h.txErrCode_le, h.setErrCode_le, nofun⟩
    obtain rfl | rfl | rfl := hcode
    · exact Nat.le_of_ble_eq_true rfl
    · exact Nat.le_of_ble_eq_true rfl
    · exact Nat.le_of_ble_eq_true rfl
  | _ => exact h.congr rfl rfl rfl rfl unmoved

theorem DiagnosticsInv.effect {i : Instr} (h : DiagnosticsInv s) (ht : Effect s i t) : DiagnosticsInv t := by
  cases ht with
  | reset => exact .of_por rfl rfl
  | acceptedClearing =>
    obtain ⟨herr, hfatal, htx, hset⟩ := rxClear_codes s
    exact h.congr herr hfatal htx hset fun hf => by_contra fun hs => rxClear_ne_fatalError hs hf
  | rejected which hi hcode => exact ⟨h.errCode_le, h.fatalCode_le, h.txErrCode_le, hcode, h.fatal_coded⟩
  | notSent hi hcode => exact ⟨h.errCode_le, h.fatalCode_le, hcode, h.setErrCode_le, h.fatal_coded⟩
  | blockIgnored hin hs =>
    obtain ⟨tx, sin, rfl⟩ := hin.exists_eq
    exact h.congr rfl rfl rfl rfl id
  | blockFatal hin hs hc =>
    obtain ⟨tx, sin, rfl⟩ := hin.exists_eq
    exact ⟨h.errCode_le, toNat_fatalCode_le _ _, h.txErrCode_le, h.setErrCode_le, fun _ => hc⟩
  | blockProcessed hin hs hc peak hr hu =>
    obtain ⟨tx, sin, rfl⟩ := hin.exists_eq
    have hinput : DiagnosticsInv { s with tx := tx, port.sin := sin } := h.congr rfl rfl rfl rfl id
    exact (hinput.passage hu).congr rfl rfl rfl rfl id
  | _ => exact h.congr rfl rfl rfl rfl id

end DiagnosticsInv

/-! ### The history -/

section HistoryInv

variable {s t : State}

theorem HistoryInv.congr (h : HistoryInv s) (hp : t.params = s.params) (hhist : t.rx.hist = s.rx.hist)
    (hwr : t.rx.histWr = s.rx.histWr) (hcnt : t.rx.histCnt = s.rx.histCnt) (hraw : t.rx.lastRaw = s.rx.lastRaw) :
    HistoryInv t := by
  obtain ⟨⟨hpos, hlen, hlt, hle⟩, hentries, hlast⟩ := h
  constructor
  · constructor <;> simpa only [hp, hhist, hwr, hcnt]
  · simpa only [hhist]
  · simpa only [hraw]

/-- An emptied ring, as after RxClear, RESET and POR. -/
theorem HistoryInv.of_empty (hpos : 0 < t.params.rawSymbolMax)
    (hhist : t.rx.hist = List.replicate t.params.rawSymbolMax noSymbol) (hwr : t.rx.histWr = 0)
    (hcnt : t.rx.histCnt = 0) (hraw : t.rx.lastRaw = noSymbol) : HistoryInv t where
  capacity_pos := hpos
  length_eq := by rw [hhist, List.length_replicate]
  cursor_lt := by rw [hwr]; exact hpos
  count_le := by rw [hcnt]; exact Nat.zero_le _
  entries_raw := fun r hr => by
    rw [hhist] at hr
    exact .inr (List.eq_of_mem_replicate hr)
  lastRaw_raw := .inr hraw

theorem HistoryInv.rxClear (h : HistoryInv s) : HistoryInv (rxClear s) := by
  by_cases hc : s.frm.cand = []
  · rw [rxClear_of_nil hc]
    exact .of_empty h.capacity_pos rfl rfl rfl rfl
  · rw [rxClear_of_ne hc]
    exact .of_empty h.capacity_pos rfl rfl rfl rfl

/-- A processed block pushes its verdict (42_sync_tracker.md R154). -/
theorem HistoryInv.blockBooked (h : HistoryInv s) {r : Symbol} (hr : IsRaw r) (peak : Level)
    (hp : t.params = s.params) : HistoryInv (blockBooked r peak s t) where
  capacity_pos := by rw [show (Machine.blockBooked r peak s t).params = s.params from hp]; exact h.capacity_pos
  length_eq := by
    rw [show (Machine.blockBooked r peak s t).params = s.params from hp]
    exact (h.toRingShape.histPush r).length_eq
  cursor_lt := by
    rw [show (Machine.blockBooked r peak s t).params = s.params from hp]
    exact (h.toRingShape.histPush r).cursor_lt
  count_le := by
    rw [show (Machine.blockBooked r peak s t).params = s.params from hp]
    exact (h.toRingShape.histPush r).count_le
  entries_raw := fun x hx => (List.mem_or_eq_of_mem_set hx).elim (h.entries_raw x) (by rintro rfl; exact hr)
  lastRaw_raw := hr

theorem HistoryInv.effect {i : Instr} (h : HistoryInv s) (ht : Effect s i t) : HistoryInv t := by
  cases ht with
  | reset => exact .of_empty h.capacity_pos rfl rfl rfl rfl
  | acceptedClearing => exact h.rxClear.congr rfl rfl rfl rfl rfl
  | blockIgnored hin hs =>
    obtain ⟨tx, sin, rfl⟩ := hin.exists_eq
    exact h.congr rfl rfl rfl rfl rfl
  | blockFatal hin hs hc =>
    obtain ⟨tx, sin, rfl⟩ := hin.exists_eq
    exact h.congr rfl rfl rfl rfl rfl
  | blockProcessed hin hs hc peak hr hu =>
    obtain ⟨tx, sin, rfl⟩ := hin.exists_eq
    have hinput : HistoryInv { s with tx := tx, port.sin := sin } := h.congr rfl rfl rfl rfl rfl
    exact hinput.blockBooked hr peak hu.keepsTxSide.params
  | _ => exact h.congr rfl rfl rfl rfl rfl

end HistoryInv

/-! ### The transmit path -/

section TransmitInv

variable {s t : State}

theorem TransmitInv.congr (h : TransmitInv s) (hp : t.params = s.params) (htxq : t.tx.txq = s.tx.txq)
    (hcur : t.tx.txCur = s.tx.txCur) (hhold : t.tx.txHold = s.tx.txHold) : TransmitInv t := by
  obtain ⟨hdepth, hle, hqueued, hraw, hheld⟩ := h
  constructor <;> simpa only [hp, htxq, hcur, hhold]

/-- An idle transmitter, as after RESET and POR. -/
theorem TransmitInv.of_idle (htxq : t.tx.txq = []) (hcur : t.tx.txCur = noSymbol) (hhold : t.tx.txHold = 0) :
    TransmitInv t := by
  constructor <;> simp [htxq, hcur, hhold, IsRaw]

theorem ne_noSymbol_of_le {x : Symbol} (h : x.toNat ≤ 0x7FFF) : x ≠ noSymbol := by
  rintro rfl
  exact absurd h (by decide)

/-- One tick: what is held counts down, the head of the queue is taken, or nothing is put out (45_tx_sequencer.md
R243). -/
theorem TransmitInv.tick (h : TransmitInv s) : TransmitInv { s with tx := (txTickRegs s.params s.tx).2 } := by
  obtain ⟨hdepth, hle, hqueued, hraw, hheld⟩ := h
  by_cases hhold : s.tx.txHold = 0
  · cases htxq : s.tx.txq with
    | nil =>
      rw [txTickRegs_silent s.params hhold htxq]
      exact ⟨hdepth, hle, hqueued, .inr rfl, fun hne => absurd hhold hne⟩
    | cons x rest =>
      rw [htxq] at hdepth hqueued
      have hx := hqueued x List.mem_cons_self
      rw [txTickRegs_taken s.params hhold htxq]
      refine ⟨(Nat.le_succ _).trans hdepth, ?_, fun y hy => hqueued y (List.mem_cons_of_mem x hy), .inl hx,
        fun _ => ne_noSymbol_of_le hx⟩
      have hmod : (BitVec.ofNat 8 s.params.periodBlocks).toNat ≤ s.params.periodBlocks := by
        rw [BitVec.toNat_ofNat]
        exact Nat.mod_le _ _
      dsimp only
      split
      · exact BitVec.sub_zero _ ▸ hmod
      · bv_omega
  · rw [txTickRegs_held s.params hhold]
    refine ⟨hdepth, ?_, hqueued, hraw, fun _ => hheld hhold⟩
    dsimp only
    bv_omega

theorem TransmitInv.effect {i : Instr} (h : TransmitInv s) (ht : Effect s i t) : TransmitInv t := by
  have input {s' : State} (hin : InputTaken s s') : TransmitInv s' := by
    cases hin with
    | tick => exact h.tick
    | block => exact h.congr rfl rfl rfl rfl
  cases ht with
  | reset => exact .of_idle rfl rfl rfl
  | acceptedClearing =>
    obtain ⟨hkeeps, -, -⟩ := rxClear_keeps s
    exact h.congr hkeeps.params (congrArg TxRegs.txq hkeeps.tx) (congrArg TxRegs.txCur hkeeps.tx)
      (congrArg TxRegs.txHold hkeeps.tx)
  | queued hi hroom hsyms =>
    exact ⟨List.length_append.trans_le hroom, h.hold,
      fun x hx => (List.mem_append.1 hx).elim (h.queued x) (hsyms x), h.current, h.held⟩
  | ticked => exact h.tick.congr rfl rfl rfl rfl
  | blockIgnored hin hs => exact input hin
  | blockFatal hin hs hc => exact (input hin).congr rfl rfl rfl rfl
  | blockProcessed hin hs hc peak hr hu =>
    have hkeeps := hu.keepsTxSide
    exact (input hin).congr hkeeps.params (congrArg TxRegs.txq hkeeps.tx) (congrArg TxRegs.txCur hkeeps.tx)
      (congrArg TxRegs.txHold hkeeps.tx)
  | _ => exact h.congr rfl rfl rfl rfl

end TransmitInv

end Sys2Proof.Machine

open Sys2Proof Sys2Proof.Machine

/-- Settles O46: both invariants through each effect. -/
theorem registersStayInRange : Obligations.RegistersStayInRange := by
  refine ⟨fun s t hp h => ?_, fun s t h => ?_⟩
  · have both : s.params.Consistent ∧ ConfigInv s := ⟨hp, h⟩
    exact fun ht => (step_keeps (P := fun u => u.params.Consistent ∧ ConfigInv u) both
      (fun _ hu => ⟨hu.1, hu.2.congr rfl rfl⟩) (fun _ hu => ⟨hu.1, (ConfigInv.afterPor hu.1).congr rfl rfl⟩)
      (fun _ _ hu => ⟨hu.1, hu.2.congr rfl rfl⟩)
      (fun _ _ _ hu hv => ⟨by rw [hv.params]; exact hu.1, hu.2.effect hv⟩) ht).2
  · exact step_keeps h (fun _ hu => hu.congr rfl rfl rfl rfl id) (fun _ _ => .of_por rfl rfl)
      (fun _ _ hu => hu.congr rfl rfl rfl rfl id) (fun _ _ _ hu hv => hu.effect hv)

/-- Settles O47: the ring through each effect. -/
theorem historyInvariantKept : Obligations.HistoryInvariantKept := fun _ _ h =>
  step_keeps h (fun _ hu => hu.congr rfl rfl rfl rfl rfl)
    (fun _ hu => .of_empty hu.capacity_pos rfl rfl rfl rfl) (fun _ _ hu => hu.congr rfl rfl rfl rfl rfl)
    (fun _ _ _ hu hv => hu.effect hv)

/-- Settles O51: the transmit registers through each effect. -/
theorem transmitInvariantKept : Obligations.TransmitInvariantKept := fun _ _ h =>
  step_keeps h (fun _ hu => hu.congr rfl rfl rfl rfl) (fun _ _ => .of_idle rfl rfl rfl)
    (fun _ _ hu => hu.congr rfl rfl rfl rfl) (fun _ _ _ hu hv => hu.effect hv)

end

section
/-!
SUPPORT. The symbol clock, the candidate table and the Frames through every step (43_rx_state_machine.md R196,
44_framer.md R215, R219, R222), and every invariant right after reset.
-/

namespace Sys2Proof.Machine

/-! ### The symbol clock -/

/-- A configuration that is not fatal (43_rx_state_machine.md R174). -/
theorem fatalCode_eq_zero {p : Params} {c : ConfigRegs} (h : fatalCode p c = 0) :
    c.rxMin.toNat < c.rxMax.toNat ∧ p.fftFactor * c.rxMax.toNat < p.fftSize / 2 ∧ geometryOk p = true := by
  unfold fatalCode at h
  split_ifs at h with hrange hnyquist hgeom
  · exact absurd h (by decide)
  · exact absurd h (by decide)
  · exact ⟨not_le.1 hrange, not_le.1 hnyquist, hgeom⟩
  · exact absurd h (by decide)

/-- What is a number of blocks ahead is one block less ahead after a block. -/
theorem blocks_ahead_after {a b : SampleCount} {k n : Nat} (h : a - b = BitVec.ofNat 64 ((k + 1) * n)) :
    a - (b + BitVec.ofNat 64 n) = BitVec.ofNat 64 (k * n) := by
  rw [Nat.add_mul, Nat.one_mul, BitVec.ofNat_add] at h
  bv_omega

/-- What is set a number of blocks after a block's start is one block less ahead after that block. -/
theorem blocks_ahead_after_set (c : SampleCount) {k m : Nat} (n : Nat) (h : k + 1 = m) :
    c + BitVec.ofNat 64 (m * n) - (c + BitVec.ofNat 64 n) = BitVec.ofNat 64 (k * n) := by
  refine blocks_ahead_after ?_
  rw [h]
  bv_omega

/-- A clock is running and the next sampling block is `k` blocks ahead (43_rx_state_machine.md R196). -/
structure Tracking (s : State) (k : Nat) : Prop where
  state : s.rx.rxState.clocked = true
  clock : s.rx.clockValid = true
  blocks : BlocksAhead s k
  ahead : s.rx.nextSp - s.rx.sampCnt = BitVec.ofNat 64 (k * s.params.fftSize)

section Tracking

variable {s t : State} (r : Symbol) (peak : Level) (hp : t.params = s.params) (hclock : t.rx.clockValid = true)

include hp hclock

/-- A sync leaves the next sampling block OFFSET − 1 blocks ahead (42_sync_tracker.md R162). -/
theorem Tracking.anchored (hgeom : geometryOk s.params = true)
    (hstate : t.rx.rxState = .firstSync ∨ t.rx.rxState = .sync)
    (hnext : t.rx.nextSp = s.rx.sampCnt + BitVec.ofNat 64 (s.params.offsetBlocks * s.params.fftSize)) :
    Tracking (blockBooked r peak s t) (s.params.offsetBlocks - 1) := by
  obtain ⟨-, -, hoffset, -, -⟩ := (geometryOk_iff _).1 hgeom
  have hstate' : (blockBooked r peak s t).rx.rxState = t.rx.rxState := rfl
  have hp' : (blockBooked r peak s t).params = s.params := hp
  have hk : s.params.offsetBlocks - 1 + 1 = s.params.offsetBlocks := by omega
  refine ⟨?_, hclock, ?_, ?_⟩
  · rw [hstate']
    obtain h | h := hstate <;> rw [h] <;> rfl
  · rw [BlocksAhead, hstate', hp']
    obtain h | h := hstate <;> simpa only [h] using hk
  · rw [hp', show (blockBooked r peak s t).rx.nextSp = t.rx.nextSp from rfl, hnext]
    exact blocks_ahead_after_set _ _ hk

/-- A sampling block leaves the next one P − 1 blocks ahead (42_sync_tracker.md R163). -/
theorem Tracking.sampled (hgeom : geometryOk s.params = true) (hguard : s.params.guardBlocks < 256)
    (hstate : t.rx.rxState = .symbol)
    (hnext : t.rx.nextSp = s.rx.sampCnt + BitVec.ofNat 64 (s.params.periodBlocks * s.params.fftSize))
    (hleft : t.rx.guardLeft = BitVec.ofNat 8 s.params.guardBlocks) :
    Tracking (blockBooked r peak s t) (s.params.periodBlocks - 1) := by
  obtain ⟨-, hperiod, -, -, -⟩ := (geometryOk_iff _).1 hgeom
  have hstate' : (blockBooked r peak s t).rx.rxState = .symbol := hstate
  have hp' : (blockBooked r peak s t).params = s.params := hp
  have hk : s.params.periodBlocks - 1 + 1 = s.params.periodBlocks := by omega
  have hleft' : (blockBooked r peak s t).rx.guardLeft.toNat = s.params.guardBlocks := by
    rw [show (blockBooked r peak s t).rx.guardLeft = t.rx.guardLeft from rfl, hleft, BitVec.toNat_ofNat]
    omega
  refine ⟨by rw [hstate']; rfl, hclock, ?_, ?_⟩
  · simp only [BlocksAhead, hstate', hp']
    exact ⟨hk, hleft'⟩
  · rw [hp', show (blockBooked r peak s t).rx.nextSp = t.rx.nextSp from rfl, hnext]
    exact blocks_ahead_after_set _ _ hk

/-- From one clocked state to the next the next sampling block comes one block nearer. -/
theorem Tracking.counted (hstate : t.rx.rxState.clocked = true) (hnext : t.rx.nextSp = s.rx.nextSp) {k : Nat}
    (hk : BlocksAhead t k) (hahead : s.rx.nextSp - s.rx.sampCnt = BitVec.ofNat 64 ((k + 1) * s.params.fftSize)) :
    Tracking (blockBooked r peak s t) k := by
  refine ⟨hstate, hclock, hk, ?_⟩
  rw [show (blockBooked r peak s t).params = s.params from hp,
    show (blockBooked r peak s t).rx.nextSp = t.rx.nextSp from rfl, hnext]
  exact blocks_ahead_after hahead

end Tracking

section ClockInv

variable {s t : State}

theorem ClockInv.congr (h : ClockInv s) (hp : t.params = s.params) (hrx : t.rx = s.rx) : ClockInv t := by
  obtain ⟨hclock, hsync, hgeom, hahead⟩ := h
  constructor <;> simpa only [BlocksAhead, hp, hrx]

theorem ClockInv.of_unclocked (hstate : t.rx.rxState.clocked = false) (hclock : t.rx.clockValid = false)
    (hsync : t.rx.syncValid = false) : ClockInv t where
  clock_iff := hclock.trans hstate.symm
  sync_iff := hsync.trans hclock.symm
  geometry := fun h => absurd (hclock.symm.trans h) Bool.false_ne_true
  ahead := fun h => absurd (hclock.symm.trans h) Bool.false_ne_true

/-- A running clock keeps the invariant, with a sync id and a geometry that is not fatal. -/
theorem ClockInv.of_tracking {k : Nat} (h : Tracking t k) (hsync : t.rx.syncValid = true)
    (hgeom : geometryOk t.params = true) : ClockInv t where
  clock_iff := h.clock.trans h.state.symm
  sync_iff := hsync.trans h.clock.symm
  geometry := fun _ => hgeom
  ahead := fun _ => ⟨k, h.blocks, h.ahead⟩

/-- Before a block that ends in Idle without a sync the next sampling block lies ahead, and at most P − 1 blocks
(43_rx_state_machine.md R196 (c)). -/
theorem BlocksAhead.before_idle {k : Nat} (hk : BlocksAhead s k) (hgeom : geometryOk s.params = true)
    (st : s.rx.rxState = .firstSync ∨ s.rx.rxState = .sync ∨ (s.rx.rxState = .idle ∧ k ≠ 0) ∨
      (s.rx.rxState = .guard ∧ s.rx.guardLeft = 0)) :
    ∃ n, k = n + 1 ∧ n + 2 ≤ s.params.periodBlocks := by
  obtain ⟨hguard, hperiod, hoffset, hle, -⟩ := (geometryOk_iff _).1 hgeom
  refine ⟨k - 1, ?_⟩
  unfold BlocksAhead at hk
  obtain st | st | ⟨st, hne⟩ | ⟨st, hleft⟩ := st
  · simp only [st] at hk
    omega
  · simp only [st] at hk
    omega
  · simp only [st] at hk
    omega
  · simp only [st, hleft] at hk
    have : (0 : BitVec 8).toNat = 0 := rfl
    omega

/-- Before a block that ends in Guard the next sampling block lies ahead, and after it GUARDLEFT still tells how far
(43_rx_state_machine.md R189). -/
theorem BlocksAhead.before_guard {k : Nat} (hk : BlocksAhead s k) (hgeom : geometryOk s.params = true)
    (st : s.rx.rxState = .symbol ∨ (s.rx.rxState = .guard ∧ s.rx.guardLeft ≠ 0)) :
    ∃ n, k = n + 1 ∧ n + 1 + s.params.guardBlocks = s.params.periodBlocks + (s.rx.guardLeft - 1).toNat ∧
      (s.rx.guardLeft - 1).toNat < s.params.guardBlocks := by
  obtain ⟨hguard, hperiod, -, -, -⟩ := (geometryOk_iff _).1 hgeom
  have hdec (hpos : 1 ≤ s.rx.guardLeft.toNat) : (s.rx.guardLeft - 1).toNat = s.rx.guardLeft.toNat - 1 := by bv_omega
  refine ⟨k - 1, ?_⟩
  unfold BlocksAhead at hk
  obtain st | ⟨st, hleft⟩ := st
  · simp only [st] at hk
    rw [hdec (by omega)]
    omega
  · simp only [st] at hk
    have hpos : 1 ≤ s.rx.guardLeft.toNat := by bv_omega
    rw [hdec hpos]
    omega

theorem ClockInv.passage (h : ClockInv s) (r : Symbol) (peak : Level) (hgeom : geometryOk s.params = true)
    (hguard : s.params.guardBlocks < 256) (ht : Passage s t) : ClockInv (blockBooked r peak s t) := by
  have hsyncValid (hclock : s.rx.clockValid = true) : s.rx.syncValid = true := h.sync_iff.trans hclock
  cases ht with
  | wait st =>
    have hclock : s.rx.clockValid = false := by
      rw [h.clock_iff]
      obtain st | st | st := st <;> rw [st] <;> rfl
    exact .of_unclocked rfl hclock (h.sync_iff.trans hclock)
  | acquire | resynchronise =>
    exact .of_tracking (.anchored r peak rfl rfl hgeom (by simp [candsReported, candidateOpened, anchoredAt]) rfl) rfl
      hgeom
  | reconfirm hclock =>
    exact .of_tracking (.anchored r peak rfl rfl hgeom (.inr rfl) rfl) (hsyncValid hclock) hgeom
  | idle hclock st =>
    obtain ⟨k, hk, hahead⟩ := h.ahead hclock
    have hne (hsp : s.rx.sampCnt ≠ s.rx.nextSp) : k ≠ 0 := by
      rintro rfl
      rw [Nat.zero_mul] at hahead
      exact hsp (by bv_omega)
    obtain ⟨n, rfl, hn⟩ := hk.before_idle hgeom (st.imp_right (Or.imp_right (Or.imp_left (And.imp_right hne))))
    exact .of_tracking (Tracking.counted (t := { s with rx.rxState := .idle }) r peak rfl hclock rfl rfl hn hahead)
      (hsyncValid hclock) hgeom
  | guard hclock st =>
    obtain ⟨k, hk, hahead⟩ := h.ahead hclock
    obtain ⟨n, rfl, hn⟩ := hk.before_guard hgeom st
    exact .of_tracking (Tracking.counted (t := { s with rx.rxState := .guard, rx.guardLeft := s.rx.guardLeft - 1 })
      r peak rfl hclock rfl rfl hn hahead) (hsyncValid hclock) hgeom
  | sampleUnheard hclock | sampleByte hclock =>
    exact .of_tracking (.sampled r peak rfl hclock hgeom hguard rfl rfl rfl) (hsyncValid hclock) hgeom
  | errorUnreported | errorReported => exact .of_unclocked rfl rfl rfl

theorem ClockInv.rxClear (s : State) : ClockInv (rxClear s) := by
  have hunclocked : (rxCleared s).rx.rxState.clocked = false := by
    simp only [rxCleared]
    split <;> rfl
  by_cases h : s.frm.cand = []
  · rw [rxClear_of_nil h]
    exact .of_unclocked hunclocked rfl rfl
  · rw [rxClear_of_ne h]
    exact .of_unclocked hunclocked rfl rfl

theorem ClockInv.effect {i : Instr} (h : ClockInv s) (hguard : s.params.guardBlocks < 256) (ht : Effect s i t) :
    ClockInv t := by
  cases ht with
  | reset => exact .of_unclocked rfl rfl rfl
  | acceptedClearing => exact (ClockInv.rxClear s).congr rfl rfl
  | blockIgnored hin hs =>
    obtain ⟨tx, sin, rfl⟩ := hin.exists_eq
    exact h.congr rfl rfl
  | blockFatal => exact .of_unclocked rfl rfl rfl
  | blockProcessed hin hs hc peak hr hu =>
    obtain ⟨tx, sin, rfl⟩ := hin.exists_eq
    have hinput : ClockInv { s with tx := tx, port.sin := sin } := h.congr rfl rfl
    exact hinput.passage _ _ (fatalCode_eq_zero hc).2.2 hguard hu
  | _ => exact h.congr rfl rfl

/-- NEXTSP is at most P blocks ahead of SAMPCNT (43_rx_state_machine.md R196 (c)). -/
theorem ClockInv.ahead_le (h : ClockInv s) (hclock : s.rx.clockValid = true) :
    ∃ k ≤ s.params.periodBlocks, s.rx.nextSp - s.rx.sampCnt = BitVec.ofNat 64 (k * s.params.fftSize) := by
  obtain ⟨k, hk, hahead⟩ := h.ahead hclock
  obtain ⟨-, -, -, hle, -⟩ := (geometryOk_iff _).1 (h.geometry hclock)
  have hstate := h.clock_iff.symm.trans hclock
  refine ⟨k, ?_, hahead⟩
  unfold BlocksAhead at hk
  cases st : s.rx.rxState with
  | firstSync | sync | idle | symbol | guard =>
    simp only [st] at hk
    omega
  | _ =>
    rw [st] at hstate
    cases hstate

end ClockInv

end Sys2Proof.Machine

open Sys2Proof Sys2Proof.Machine

/-- Settles O48: the clock through each effect; a Guard count of 8 bits holds G. -/
theorem clockInvariantKept : Obligations.ClockInvariantKept := by
  refine ⟨fun s t hp h => ?_, fun s h hclock => h.ahead_le hclock⟩
  have both : s.params.Consistent ∧ ClockInv s := ⟨hp, h⟩
  exact fun ht => (step_keeps (P := fun u => u.params.Consistent ∧ ClockInv u) both
    (fun _ hu => ⟨hu.1, hu.2.congr rfl rfl⟩) (fun _ hu => ⟨hu.1, .of_unclocked rfl rfl rfl⟩)
    (fun _ _ hu => ⟨hu.1, hu.2.congr rfl rfl⟩)
    (fun _ _ _ hu hv => ⟨by rw [hv.params]; exact hu.1, hu.2.effect hu.1.guardBlocks_lt hv⟩) ht).2

end

section
/-!
SUPPORT. The candidate table and the Frames it emits (44_framer.md R213 to R222) through every step, and every
invariant right after reset.
-/

namespace Sys2Proof.Machine

/-! ### One candidate in flight -/

section InFlight

variable {p : Params} {x y : Candidate} {b : Byte} {idx : Id}

/-- What a byte does to a record in flight: it fails it, leaves it in flight, or completes a whole frame (44_framer.md
R213 to R216). -/
theorem Candidate.InFlight.feed_kept (h : x.InFlight p) (hy : feed p.payloadMax b idx x = .kept y) : y.InFlight p := by
  cases hx : x.received with
  | nil =>
    by_cases hlen : p.payloadMax < headerLength b
    · rw [feed_malformed idx hx hlen] at hy
      cases hy
    · rw [feed_header idx hx (not_lt.1 hlen)] at hy
      cases hy
      have hrec : (parseHeader b (x.withBytes [(b, idx)])).received = [b] := congrArg (· ++ [b]) hx
      refine ⟨h.unjudged, ?_, fun hnil => absurd (hrec.symm.trans hnil) (List.cons_ne_nil _ _),
        fun c rest hc => ?_⟩
      · simp [parseHeader, Candidate.withBytes, h.indexed]
      · obtain ⟨rfl, rfl⟩ := List.cons_eq_cons.1 (hrec.symm.trans hc)
        refine ⟨rfl, not_lt.1 hlen, ?_⟩
        rw [hrec, List.length_singleton]
        omega
  | cons c rest =>
    have hne : x.received ≠ [] := by simp [hx]
    obtain ⟨he, hmax, hlt⟩ := h.parsed c rest hx
    have hexp := toNat_expected (headerLength_lt c)
    by_cases hlast : x.received.length + 1 = (BitVec.ofNat 8 (headerLength c + 2)).toNat
    · rw [feed_complete b idx hne he hlast, judge_withBytes_last b idx hne he hlast] at hy
      split at hy <;> cases hy
    · rw [feed_incomplete b idx hne he hlast] at hy
      cases hy
      have hrec : (x.withBytes [(b, idx)]).received = c :: (rest ++ [b]) := congrArg (· ++ [b]) hx
      refine ⟨h.unjudged, ?_, fun hnil => absurd (hrec.symm.trans hnil) (List.cons_ne_nil _ _),
        fun d rest' hd => ?_⟩
      · simp [Candidate.withBytes, h.indexed]
      · obtain ⟨rfl, -⟩ := List.cons_eq_cons.1 (hrec.symm.trans hd)
        refine ⟨he, hmax, ?_⟩
        rw [Candidate.withBytes, List.length_append, List.length_map, List.length_singleton]
        omega

/-- A record that a byte completes with a matching checksum is a sound Frame (44_framer.md R222 (b)). -/
theorem Candidate.InFlight.frameOf_matched (h : x.InFlight p) (hy : feed p.payloadMax b idx x = .matched y) (id : Id) :
    (frameOf id y).Sound p := by
  cases hx : x.received with
  | nil =>
    by_cases hlen : p.payloadMax < headerLength b
    · rw [feed_malformed idx hx hlen] at hy
      cases hy
    · rw [feed_header idx hx (not_lt.1 hlen)] at hy
      cases hy
  | cons c rest =>
    have hne : x.received ≠ [] := by simp [hx]
    obtain ⟨he, hmax, hlt⟩ := h.parsed c rest hx
    have hexp := toNat_expected (headerLength_lt c)
    by_cases hlast : x.received.length + 1 = (BitVec.ofNat 8 (headerLength c + 2)).toNat
    · rw [feed_complete b idx hne he hlast, judge_withBytes_last b idx hne he hlast] at hy
      split at hy
      next hsum =>
        cases hy
        have hlen : rest.length = headerLength c := by
          rw [hx, List.length_cons] at hlast
          omega
        have hrest : rest.length < 16 := hlen.trans_lt (headerLength_lt c)
        rw [← hlen] at he hmax
        have hframe := frameOf_complete (x := { x.withBytes [(b, idx)] with isValid := .valid }) (h := c) (c := b)
          hrest (congrArg (· ++ [b]) hx) he id
        rw [hframe]
        rw [hx] at hsum
        exact ⟨hsum.symm, hlen, hmax, rfl⟩
      · cases hy
    · rw [feed_incomplete b idx hne he hlast] at hy
      cases hy

end InFlight

theorem newCandidate_inFlight (p : Params) (id sid : Id) :
    Candidate.InFlight p
      { id := id, received := [], expected := none, isValid := .unknown, symbolId := [], syncId := sid } :=
  ⟨rfl, rfl, fun _ => rfl, nofun⟩

/-! ### The table -/

theorem exists_of_mem_kept {cs : List Candidate} {f : Candidate → Fed} {y : Candidate}
    (h : y ∈ (cs.map f).filterMap Fed.kept?) : ∃ x ∈ cs, f x = .kept y := by
  obtain ⟨fate, hfate, hy⟩ := List.mem_filterMap.1 h
  obtain ⟨x, hx, rfl⟩ := List.mem_map.1 hfate
  refine ⟨x, hx, ?_⟩
  cases hf : f x <;> rw [hf] at hy <;> cases hy
  rfl

theorem exists_of_mem_matched {cs : List Candidate} {f : Candidate → Fed} {y : Candidate}
    (h : y ∈ (cs.map f).filterMap Fed.matched?) : ∃ x ∈ cs, f x = .matched y := by
  obtain ⟨fate, hfate, hy⟩ := List.mem_filterMap.1 h
  obtain ⟨x, hx, rfl⟩ := List.mem_map.1 hfate
  refine ⟨x, hx, ?_⟩
  cases hf : f x <;> rw [hf] at hy <;> cases hy
  rfl

section FramerInv

variable {s t : State}

theorem FramerInv.congr (h : FramerInv s) (hp : t.params = s.params) (hcand : t.frm.cand = s.frm.cand)
    (hclock : s.rx.clockValid = true → t.rx.clockValid = true) : FramerInv t where
  bounded := by rw [hcand, hp]; exact h.bounded
  clocked := fun hne => hclock (h.clocked (by rwa [hcand] at hne))
  inFlight := by rw [hcand, hp]; exact h.inFlight

theorem FramerInv.of_nil (hcand : t.frm.cand = []) : FramerInv t := by
  constructor <;> simp [hcand]

theorem length_add_one_le_of_eviction {cs : List Candidate} {m : Nat} (hmax : 1 ≤ m) (hle : cs.length ≤ m) :
    (if cs.length = m then cs.drop 1 else cs).length + 1 ≤ m := by
  split
  · rw [List.length_drop]
    omega
  · omega

/-- A new candidate with the clock anchored; a full table makes room for it (44_framer.md R212). -/
theorem FramerInv.candidateOpened (resolved : List (Id × Verdict)) (sid : Id) (c : SampleCount)
    (hmax : 1 ≤ s.params.maxCandidates) (hle : s.frm.cand.length ≤ s.params.maxCandidates)
    (hin : ∀ x ∈ s.frm.cand, x.InFlight s.params) :
    FramerInv (candsReported resolved (candidateOpened sid (anchoredAt c s))) where
  bounded := List.length_append.trans_le (length_add_one_le_of_eviction hmax hle)
  clocked := fun _ => rfl
  inFlight := fun x hx => by
    obtain hold | hnew := List.mem_append.1 hx
    · refine hin x ?_
      split at hold
      · exact List.mem_of_mem_drop hold
      · exact hold
    · rw [List.mem_singleton.1 hnew]
      exact newCandidate_inFlight _ _ _

/-- The records a byte leaves in the table were in it. -/
theorem FramerInv.byteReported (h : FramerInv s) (b : Byte) (idx : Id) : FramerInv (byteReported b idx s) where
  bounded := ((List.length_filterMap_le _ _).trans_eq (List.length_map _)).trans h.bounded
  clocked := fun hne => h.clocked fun hnil => hne (by simp [Machine.byteReported, candsReported, fedSettled, hnil])
  inFlight := fun y hy => by
    obtain ⟨x, hx, hf⟩ := exists_of_mem_kept hy
    exact (h.inFlight x hx).feed_kept hf

theorem FramerInv.passage (h : FramerInv s) (hmax : 1 ≤ s.params.maxCandidates) (ht : Passage s t) : FramerInv t := by
  cases ht with
  | wait | idle | guard | sampleUnheard => exact h.congr rfl rfl id
  | acquire | reconfirm => exact .candidateOpened _ _ _ hmax h.bounded h.inFlight
  | resynchronise => exact .candidateOpened _ _ _ hmax (Nat.zero_le _) fun _ hx => absurd hx List.not_mem_nil
  | sampleByte hclock st hsp b hcand =>
    have hsampled : FramerInv (sampledAt s) := h.congr rfl rfl id
    exact hsampled.byteReported b _
  | errorUnreported | errorReported => exact .of_nil rfl

theorem rxClear_cand (s : State) : (rxClear s).frm.cand = [] := by
  by_cases h : s.frm.cand = []
  · rw [rxClear_of_nil h]
    rfl
  · rw [rxClear_of_ne h]
    rfl

theorem FramerInv.effect {i : Instr} (h : FramerInv s) (hmax : 1 ≤ s.params.maxCandidates) (ht : Effect s i t) :
    FramerInv t := by
  cases ht with
  | reset | blockFatal => exact .of_nil rfl
  | acceptedClearing => exact .of_nil (rxClear_cand s)
  | blockIgnored hin hs =>
    obtain ⟨tx, sin, rfl⟩ := hin.exists_eq
    exact h.congr rfl rfl id
  | blockProcessed hin hs hc peak hr hu =>
    obtain ⟨tx, sin, rfl⟩ := hin.exists_eq
    have hinput : FramerInv { s with tx := tx, port.sin := sin } := h.congr rfl rfl id
    exact (hinput.passage hmax hu).congr rfl rfl id
  | _ => exact h.congr rfl rfl id

end FramerInv

/-! ### The Frames -/

section FramesInv

variable {s t : State}

/-- Records appended to EVT of which every FRAME is sound, and a LASTFRAME that is sound or as it was. -/
theorem FramesInv.append (h : FramesInv s) (hp : t.params = s.params) {es : List Event}
    (hevt : t.port.evt = s.port.evt ++ es) (hes : ∀ f, Event.frame f ∈ es → f.Sound s.params)
    (hlast : t.frm.lastFrameValid = true → t.frm.lastFrame.Sound s.params) : FramesInv t where
  emitted := fun f hf => by
    rw [hevt] at hf
    rw [hp]
    exact (List.mem_append.1 hf).elim (h.emitted f) (hes f)
  last := by rw [hp]; exact hlast

/-- No Frame emitted, and LASTFRAME as it was. -/
theorem FramesInv.quiet (h : FramesInv s) (hp : t.params = s.params) (es : List Event)
    (hevt : t.port.evt = s.port.evt ++ es) (hes : framesOf es = [])
    (hlast : t.frm.lastFrame = s.frm.lastFrame) (hvalid : t.frm.lastFrameValid = s.frm.lastFrameValid) :
    FramesInv t := by
  refine h.append hp hevt (fun f hf => ?_) (by rw [hlast, hvalid]; exact h.last)
  have hmem : f ∈ framesOf es := List.mem_filterMap.2 ⟨_, hf, rfl⟩
  rw [hes] at hmem
  cases hmem

/-- Nothing emitted at all. -/
theorem FramesInv.congr (h : FramesInv s) (hp : t.params = s.params) (hevt : t.port.evt = s.port.evt)
    (hlast : t.frm.lastFrame = s.frm.lastFrame) (hvalid : t.frm.lastFrameValid = s.frm.lastFrameValid) :
    FramesInv t := h.quiet hp [] (by rw [hevt, List.append_nil]) rfl hlast hvalid

/-- Every Frame of matched candidates is sound when each candidate's is (44_framer.md R218). -/
theorem sound_of_mem_framesFrom {p : Params} {id : Id} {xs : List Candidate}
    (h : ∀ x ∈ xs, ∀ id, (frameOf id x).Sound p) {f : Frame} (hf : f ∈ framesFrom id xs) : f.Sound p := by
  obtain ⟨i, hi, rfl⟩ := List.mem_mapIdx.1 hf
  exact h _ (List.getElem_mem hi) _

theorem FramesInv.byteReported (h : FramesInv s) (hframer : FramerInv s) (b : Byte) (idx : Id) :
    FramesInv (byteReported b idx s) := by
  have hsound : ∀ f ∈ framesFrom s.frm.nextFrameId
      ((s.frm.cand.map (feed s.params.payloadMax b idx)).filterMap Fed.matched?), f.Sound s.params := by
    refine fun f hf => sound_of_mem_framesFrom (fun y hy id => ?_) hf
    obtain ⟨x, hx, hmatched⟩ := exists_of_mem_matched hy
    exact (hframer.inFlight x hx).frameOf_matched hmatched id
  refine h.append (es := _ ++ _) rfl (List.append_assoc _ _ _) (fun f hf => ?_) fun hvalid => ?_
  · obtain hframe | hcands := List.mem_append.1 hf
    · obtain ⟨g, hg, heq⟩ := List.mem_map.1 hframe
      cases heq
      exact hsound f hg
    · cases List.mem_singleton.1 hcands
  · simp only [Machine.byteReported, candsReported, fedSettled] at hvalid ⊢
    cases hframes : framesFrom s.frm.nextFrameId
      ((s.frm.cand.map (feed s.params.payloadMax b idx)).filterMap Fed.matched?) with
    | nil =>
      rw [hframes] at hvalid
      exact h.last (by simpa using hvalid)
    | cons f fs =>
      rw [hframes] at hsound
      rw [List.getLast?_eq_getLast_of_ne_nil (List.cons_ne_nil f fs)]
      exact hsound _ (List.getLast_mem _)

theorem FramesInv.passage (h : FramesInv s) (hframer : FramerInv s) (ht : Passage s t) : FramesInv t := by
  cases ht with
  | wait | idle | guard | sampleUnheard | errorUnreported => exact h.congr rfl rfl rfl rfl
  | acquire | reconfirm | resynchronise | errorReported => exact h.quiet rfl [_] rfl rfl rfl rfl
  | sampleByte hclock st hsp b hcand =>
    have hsampled : FramerInv (sampledAt s) := hframer.congr rfl rfl id
    exact FramesInv.byteReported (s := sampledAt s) (h.congr rfl rfl rfl rfl) hsampled b _

theorem FramesInv.rxClear (h : FramesInv s) : FramesInv (rxClear s) := by
  by_cases hc : s.frm.cand = []
  · rw [rxClear_of_nil hc]
    exact h.congr rfl rfl rfl rfl
  · rw [rxClear_of_ne hc]
    exact h.quiet rfl [_] rfl rfl rfl rfl

theorem FramesInv.effect {i : Instr} (h : FramesInv s) (hframer : FramerInv s) (ht : Effect s i t) :
    FramesInv t := by
  cases ht with
  | reset => exact h.append rfl (List.append_nil _).symm nofun nofun
  | accepted | rejected | entryRefused | notSent => exact h.quiet rfl [_] rfl rfl rfl rfl
  | acceptedClearing => exact h.rxClear.quiet rfl [_] rfl rfl rfl rfl
  | blockIgnored hin hs =>
    obtain ⟨tx, sin, rfl⟩ := hin.exists_eq
    exact h.congr rfl rfl rfl rfl
  | blockFatal hin hs hc =>
    obtain ⟨tx, sin, rfl⟩ := hin.exists_eq
    exact h.quiet rfl [_] rfl rfl rfl rfl
  | blockProcessed hin hs hc peak hr hu =>
    obtain ⟨tx, sin, rfl⟩ := hin.exists_eq
    have hinput : FramesInv { s with tx := tx, port.sin := sin } := h.congr rfl rfl rfl rfl
    exact (hinput.passage (hframer.congr rfl rfl id) hu).congr rfl rfl rfl rfl
  | _ => exact h.congr rfl rfl rfl rfl

end FramesInv

theorem FramesInv.of_por {t : State} (hevt : t.port.evt = []) (hvalid : t.frm.lastFrameValid = false) :
    FramesInv t := by
  constructor <;> simp [hevt, hvalid]

/-- Every invariant right after POR with consistent parameters (70_reset_and_hazards.md R291). -/
theorem inv_afterPor {p : Params} (hp : p.Consistent) : Inv (State.afterPor p) where
  params := hp
  config := .afterPor hp
  history := .of_empty hp.rawSymbolMax_pos rfl rfl rfl rfl
  clock := .of_unclocked rfl rfl rfl
  framer := .of_nil rfl
  frames := .of_por rfl rfl
  transmit := .of_idle rfl rfl rfl
  diagnostics := .of_por rfl rfl

end Sys2Proof.Machine

open Sys2Proof Sys2Proof.Machine

/-- Settles O49: the table through each effect. -/
theorem candidateTableInvariantKept : Obligations.CandidateTableInvariantKept := by
  intro s t hp h
  have both : s.params.Legal ∧ FramerInv s := ⟨hp, h⟩
  exact fun ht => (step_keeps (P := fun u => u.params.Legal ∧ FramerInv u) both
    (fun _ hu => ⟨hu.1, hu.2.congr rfl rfl id⟩) (fun _ hu => ⟨hu.1, .of_nil rfl⟩)
    (fun _ _ hu => ⟨hu.1, hu.2.congr rfl rfl id⟩)
    (fun _ _ _ hu hv => ⟨by rw [hv.params]; exact hu.1, hu.2.effect hu.1.maxCandidates_pos hv⟩) ht).2

/-- Settles O50: a Frame is emitted only by a byte that completes a record in flight. -/
theorem emittedFramesAreSound : Obligations.EmittedFramesAreSound := by
  intro s t hframer h
  have both : FramerInv s ∧ FramesInv s := ⟨hframer, h⟩
  exact step_leads (P := fun u => FramerInv u ∧ FramesInv u) both
    (fun _ hu => ⟨hu.1.congr rfl rfl id, hu.2.congr rfl rfl rfl rfl⟩) And.right (fun _ _ => .of_por rfl rfl)
    (fun _ _ hu => hu.2.quiet rfl [_] rfl rfl rfl rfl) (fun _ _ _ hu hv => hu.2.effect hu.1 hv)

/-- Settles O52: the default parameters are consistent, so one lemma covers both. -/
theorem invariantsHoldAfterReset : Obligations.InvariantsHoldAfterReset :=
  ⟨inv_afterPor Tests.default_consistent, fun _ => inv_afterPor⟩

end

section
/-!
SUPPORT. The detector on the two loopback blocks (41_detector.md R138, 45_tx_sequencer.md R248), BLOCK's input and what
BLOCK neither reads nor skips (43_rx_state_machine.md R170 to R173).
-/

namespace Sys2Proof.Machine

/-! ### Silence -/

theorem symDb_of_silent (p : Params) {X : List Sample} (h : isSilent X = true) (s : Nat) : symDb p X s = 0x8000 :=
  if_pos h

/-- With one level everywhere the scan stays at the lowest symbol (41_detector.md R136). -/
theorem peakSymbol_of_const {level : Nat → Int} {l : Int} (h : ∀ s, level s = l) (lo n : Nat) :
    peakSymbol level lo n = lo := by
  induction n with
  | zero => rfl
  | succ n ih => rw [peakSymbol, ih, h, h, if_neg (lt_irrefl l)]

/-- A level above every 16-bit one there is: the threshold is above −32768 exactly when it is another word. -/
theorem lowest_lt_toInt_iff (t : BitVec 16) : (0x8000 : Level).toInt < t.toInt ↔ t ≠ 0x8000 := by
  constructor
  · rintro h rfl
    exact lt_irrefl _ h
  · exact fun h => (BitVec.le_toInt t).lt_of_ne fun heq => h (BitVec.eq_of_toInt_eq heq.symm)

/-- The verdict on silence (41_detector.md R138 (a)). -/
theorem detect_of_silent (p : Params) (c : ConfigRegs) {X : List Sample} (h : isSilent X = true) :
    detect p c X = (if c.thresh = 0x8000 then c.rxMin.setWidth 16 else 0xFFFF, 0x8000) := by
  have hpeak : windowPeak p c X = c.rxMin.toNat :=
    peakSymbol_of_const (fun s => congrArg sext16 (symDb_of_silent p h s)) _ _
  rw [detect_eq, symDb_of_silent p h, hpeak, BitVec.ofNat_toNat]
  by_cases ht : c.thresh = 0x8000
  · rw [if_pos ht, if_neg fun hlt => (lowest_lt_toInt_iff _).1 hlt ht]
  · rw [if_neg ht, if_pos ((lowest_lt_toInt_iff _).2 ht)]
    rfl

/-! ### A tone -/

section Tone

variable {s : State} {t : Symbol}

theorem loopBlock_noSymbol (s : State) : loopBlock s 0xFFFF = silentBlock s.params.logFftSize := if_pos rfl

/-- The loopback block of a symbol of the window is its tone (45_tx_sequencer.md R247). -/
theorem loopBlock_of_le (ht : t.toNat ≤ s.cfg.rxMax.toNat) :
    loopBlock s t = toneBlock s.params.logFftSize s.cfg.txAmp.toNat (s.params.fftFactor * t.toNat) := by
  have hmax := s.cfg.rxMax.isLt
  exact if_neg (ne_noSymbol_of_le (by omega))

section

variable (hN : 3 ≤ s.params.logFftSize) (hN' : s.params.logFftSize ≤ 16) (hF : 1 ≤ s.params.fftFactor)
  (hA : 3 ≤ s.cfg.txAmp.toNat) (hA' : s.cfg.txAmp.toNat ≤ 0x8000)
  (hwin : s.params.fftFactor * s.cfg.rxMax.toNat < s.params.fftSize / 2)
  (hpos : 0 < t.toNat) (hlo : s.cfg.rxMin.toNat ≤ t.toNat) (hhi : t.toNat ≤ s.cfg.rxMax.toNat)

include hN hN' hF hA hA' hwin hpos hhi

/-- The level of the tone's own symbol reaches the bound (41_detector.md R133, first half). -/
theorem atLeastToneBound_loopBlock :
    AtLeastToneBound s.cfg.txAmp.toNat (symDb s.params (loopBlock s t) t.toNat).toInt := by
  have hbin := (Nat.mul_le_mul_left s.params.fftFactor hhi).trans_lt hwin
  rw [loopBlock_of_le hhi]
  exact implementationDetector.tone_level _ _ _ hN hN' hA hA' (Nat.mul_pos hF hpos) hbin

include hlo

/-- No other symbol of the window reaches the tone's level, so the peak is the tone's symbol (41_detector.md R133,
second half). -/
theorem windowPeak_loopBlock : windowPeak s.params s.cfg (loopBlock s t) = t.toNat := by
  by_contra hne
  have hpeak := windowPeak_le_rxMax s.params s.cfg (loopBlock s t) (hlo.trans hhi)
  have hbin := (Nat.mul_le_mul_left s.params.fftFactor hhi).trans_lt hwin
  have hother := (Nat.mul_le_mul_left s.params.fftFactor hpeak).trans_lt hwin
  have hmax := symDb_le_symDb_windowPeak s.params s.cfg (loopBlock s t) hlo hhi
  refine absurd hmax (not_le.2 ?_)
  rw [loopBlock_of_le hhi] at hne hother ⊢
  exact implementationDetector.tone_peak _ _ _ _ hN hN' hA hA' (Nat.mul_pos hF hpos) hbin hother
    fun heq => hne (Nat.eq_of_mul_eq_mul_left hF heq)

/-- The loopback block of a symbol of the window is read back as that symbol (45_tx_sequencer.md R248 (b)). -/
theorem detect_loopBlock (hthresh : AtMostToneBound s.cfg.txAmp.toNat s.cfg.thresh.toInt) :
    detect s.params s.cfg (loopBlock s t) = (t, symDb s.params (loopBlock s t) t.toNat) := by
  have hlevel := atLeastToneBound_loopBlock hN hN' hF hA hA' hwin hpos hhi
  rw [detect_eq, windowPeak_loopBlock hN hN' hF hA hA' hwin hpos hlo hhi,
    if_neg (not_lt.2 (hthresh.trans hlevel)), BitVec.ofNat_toNat, BitVec.setWidth_eq]

end

end Tone

/-! ### The bound of the default amplitude -/

theorem logb_le_of_pow_le {x : ℝ} {n m : ℕ} (hx : 0 < x) (hn : 0 < n) (h : x ^ n * 10 ^ m ≤ 1) :
    Real.logb 10 x ≤ -(m / n : ℝ) := by
  have hlog : n * Real.logb 10 x + m ≤ 0 := by
    have := Real.logb_nonpos (b := 10) (by norm_num) (by positivity) h
    rwa [Real.logb_mul (by positivity) (by positivity), Real.logb_pow, Real.logb_pow,
      Real.logb_self_eq_one (by norm_num), mul_one] at this
  have hn' : (0 : ℝ) < n := by exact_mod_cast hn
  rw [← neg_div, le_div_iff₀ hn']
  linarith

theorem le_logb_of_le_pow {x : ℝ} {n m : ℕ} (hx : 0 < x) (hn : 0 < n) (h : 1 ≤ x ^ n * 10 ^ m) :
    -(m / n : ℝ) ≤ Real.logb 10 x := by
  have hlog : 0 ≤ n * Real.logb 10 x + m := by
    have := Real.logb_nonneg (b := 10) (by norm_num) h
    rwa [Real.logb_mul (by positivity) (by positivity), Real.logb_pow, Real.logb_pow,
      Real.logb_self_eq_one (by norm_num), mul_one] at this
  have hn' : (0 : ℝ) < n := by exact_mod_cast hn
  rw [← neg_div, div_le_iff₀ hn']
  linarith

/-- Amplitude 0x199A is 6553/32768 of full scale less one step: its bound lies between −3579 and −3578, since
353/505 and 65/93 lie on the two sides of its logarithm. -/
theorem default_tone_bound : ⌊(256 * 20 : ℝ) * Real.logb 10 ((((6554 : ℕ) : ℝ) - 1) / 32768)⌋ = -3579 := by
  have hx : (((6554 : ℕ) : ℝ) - 1) / 32768 = 6553 / 32768 := by norm_num
  have hlo : (1 : ℝ) ≤ (6553 / 32768) ^ 505 * 10 ^ 353 := by
    rw [show 505 = 5 * 101 from rfl, pow_mul, show 353 = 253 + 100 from rfl, pow_add]
    norm_num
  have hhi : (6553 / 32768 : ℝ) ^ 93 * 10 ^ 65 ≤ 1 := by norm_num
  have hlo := le_logb_of_le_pow (by norm_num) (by norm_num) hlo
  have hhi := logb_le_of_pow_le (by norm_num) (by norm_num) hhi
  rw [hx, Int.floor_eq_iff]
  norm_num at hlo hhi ⊢
  constructor <;> linarith

end Sys2Proof.Machine

open Sys2Proof Sys2Proof.Machine

/-- Settles O23: every level is the lowest one, so the scan stays at RXSYM.MIN. -/
theorem silenceVerdict : Obligations.SilenceVerdict := fun p c _ => detect_of_silent p c

/-- Settles O24: the tone by DET-TONE's two halves, silence by `detect_of_silent`, the bound by its two neighbours. -/
theorem loopbackVerdict : Obligations.LoopbackVerdict := by
  refine ⟨fun s t hN hN' hF hA hA' hthresh hwin hpos hlo hhi =>
    ⟨detect_loopBlock hN hN' hF hA hA' hwin hpos hlo hhi hthresh,
      atLeastToneBound_loopBlock hN hN' hF hA hA' hwin hpos hhi⟩, fun s hthresh => ?_, ?_, ?_⟩
  · rw [loopBlock_noSymbol, detect_of_silent _ _ (isSilent_silentBlock _), if_neg hthresh]
  · exact default_tone_bound.ge
  · rw [AtMostToneBound, default_tone_bound]
    decide

end

section
/-!
SUPPORT. BLOCK's input (43_rx_state_machine.md R171), the sampled symbol (R188, R190, R194), and the registers BLOCK does
not read (10_state.md R29 to R38).
-/

namespace Sys2Proof.Machine

/-! ### What is sampled -/

/-- A data symbol at most 255 above RXSYM.MIN is a byte (43_rx_state_machine.md R194). -/
theorem classify_of_byte {c : ConfigRegs} {r : Symbol} (hne : r ≠ noSymbol) (hdata : r.toNat + 1 < c.rxMax.toNat)
    (hvalue : r.toNat ≤ c.rxMin.toNat + 255) : classify c r = .byte (BitVec.ofNat 8 (r.toNat - c.rxMin.toNat)) := by
  rw [classify, if_neg hne, if_neg (by omega), if_neg (by omega)]

theorem classify_of_syncSym {c : ConfigRegs} {r : Symbol} (hne : r ≠ noSymbol) (hsync : c.rxMax.toNat ≤ r.toNat + 1) :
    classify c r = .syncSym := by
  rw [classify, if_neg hne, if_pos hsync]

/-- A byte is sampled whatever the table holds (43_rx_state_machine.md R180). -/
theorem samplingMove_byte (b : Byte) (cs : List Candidate) : samplingMove (.byte b) cs = .toSymbol := by
  simp [samplingMove]

theorem samplingMove_syncSym (cs : List Candidate) : samplingMove .syncSym cs = .toSymbol := by
  simp [samplingMove]

/-! ### What BLOCK does not see -/

/-- `s` with other values in the registers no BLOCK reads: both rates, RXAMP and IRQEN as in `m`, and STATUS. -/
def masked (m : ConfigRegs) (status : BitVec 7) (s : State) : State :=
  { s with
    cfg.txRate := m.txRate, cfg.rxRate := m.rxRate, cfg.rxAmp := m.rxAmp, cfg.irqEn := m.irqEn
    diag.status := status }

/-- On s the operation `f` only sets flags in STATUS, the same ones whatever the masked registers hold, and carries
those registers along. -/
def BlindTo (f : State → State) (s : State) : Prop :=
  ∃ extra, (f s).diag.status = s.diag.status ||| extra ∧
    ∀ m status, f (masked m status s) = masked m (status ||| extra) (f s)

section Blind

variable {f g : State → State} {s : State}

/-- An operation that touches no flag. -/
theorem BlindTo.of_silent (hstatus : (f s).diag.status = s.diag.status)
    (hmask : ∀ m status, f (masked m status s) = masked m status (f s)) : BlindTo f s :=
  ⟨0, hstatus.trans BitVec.or_zero.symm, fun m status =>
    (hmask m status).trans (congrArg (fun flags => masked m flags (f s)) BitVec.or_zero.symm)⟩

/-- Blindness of a formula for the operation, valid on s and under every mask. -/
theorem BlindTo.of_eq (hg : BlindTo g s) (heq : f s = g s)
    (hmask : ∀ m status, f (masked m status s) = g (masked m status s)) : BlindTo f s := by
  obtain ⟨extra, hstatus, hcarry⟩ := hg
  exact ⟨extra, heq ▸ hstatus, fun m status => by rw [hmask, hcarry, heq]⟩

theorem blindTo_byteReported (b : Byte) (idx : Id) (s : State) : BlindTo (byteReported b idx) s :=
  ⟨flagsOf _ ||| 0x02, BitVec.or_assoc _ _ _, fun m status => by rw [← BitVec.or_assoc]; rfl⟩

theorem blindTo_sampled (r : Symbol) (peak : Level) (h : blockMove s r = .toSymbol) :
    BlindTo (processVerdict r peak) s := by
  by_cases hbyte : ∃ b, classify s.cfg r = .byte b
  · obtain ⟨b, hb⟩ := hbyte
    have hblock (u : State) (hu : blockMove u r = .toSymbol) (hub : classify u.cfg r = .byte b) :
        processVerdict r peak u =
          blockBooked r peak u (frmFlush (frmOnByte b (blockIndex u) (.start (sampledAt (histPush r u))))) :=
      processVerdict_toSymbol_of_byte peak hu hub
    by_cases hcand : s.frm.cand = []
    · have hunheard (u : State) (hu : blockMove u r = .toSymbol) (hub : classify u.cfg r = .byte b)
          (huc : u.frm.cand = []) : processVerdict r peak u = blockBooked r peak u (sampledAt u) := by
        rw [hblock u hu hub, frmOnByte_of_nil b _ (k := .start (sampledAt (histPush r u))) huc]
        rfl
      exact BlindTo.of_eq (g := fun u => blockBooked r peak u (sampledAt u)) (.of_silent rfl fun _ _ => rfl)
        (hunheard s h hb hcand) fun m status => hunheard (masked m status s) h hb hcand
    · have hheard (u : State) (hu : blockMove u r = .toSymbol) (hub : classify u.cfg r = .byte b)
          (huc : u.frm.cand ≠ []) :
          processVerdict r peak u = blockBooked r peak u (byteReported b (blockIndex u) (sampledAt u)) := by
        rw [hblock u hu hub, frmFlush_frmOnByte b _ (s := sampledAt (histPush r u)) huc]
        rfl
      obtain ⟨extra, hstatus, hcarry⟩ := blindTo_byteReported b (blockIndex s) (sampledAt s)
      refine BlindTo.of_eq (g := fun u => blockBooked r peak u (byteReported b (blockIndex u) (sampledAt u)))
        ⟨extra, hstatus, fun m status => ?_⟩ (hheard s h hb hcand) fun m status => hheard (masked m status s) h hb hcand
      exact congrArg (blockBooked r peak (masked m status s)) (hcarry m status)
  · have hnot := not_exists.1 hbyte
    exact BlindTo.of_eq (g := fun u => blockBooked r peak u (sampledAt u)) (.of_silent rfl fun _ _ => rfl)
      (processVerdict_toSymbol_of_not_byte peak h hnot)
      fun m status => processVerdict_toSymbol_of_not_byte (s := masked m status s) peak h hnot

theorem blindTo_error (r : Symbol) (peak : Level) {code : BitVec 4} (h : blockMove s r = .toError code) :
    BlindTo (processVerdict r peak) s := by
  refine BlindTo.of_eq (g := fun u => blockBooked r peak u
    (if u.frm.cand = [] then errorEntered code u else candsReported (discarded u.frm.cand) (errorEntered code u)))
    ?_ (processVerdict_toError peak h) fun m status => processVerdict_toError (s := masked m status s) peak h
  by_cases hcand : s.frm.cand = []
  · refine .of_silent ?_ fun m status => ?_
    · simp only [if_pos hcand]
      rfl
    · simp only [if_pos hcand, show (masked m status s).frm.cand = [] from hcand]
      rfl
  · refine ⟨0x02, ?_, fun m status => ?_⟩
    · simp only [if_neg hcand]
      rfl
    · simp only [if_neg hcand, show ¬ (masked m status s).frm.cand = [] from hcand]
      rfl

/-- A processed block sees none of the masked registers: each transition's record names none of them. -/
theorem blindTo_processVerdict (r : Symbol) (peak : Level) (s : State) : BlindTo (processVerdict r peak) s := by
  cases h : blockMove s r with
  | toSymbol => exact blindTo_sampled r peak h
  | toError code => exact blindTo_error r peak h
  | toFirstSyncWait =>
    exact BlindTo.of_eq (g := fun u => blockBooked r peak u { u with rx.rxState := .firstSyncWait })
      (.of_silent rfl fun _ _ => rfl) (processVerdict_toFirstSyncWait peak h)
      fun m status => processVerdict_toFirstSyncWait (s := masked m status s) peak h
  | toIdle =>
    exact BlindTo.of_eq (g := fun u => blockBooked r peak u { u with rx.rxState := .idle })
      (.of_silent rfl fun _ _ => rfl) (processVerdict_toIdle peak h)
      fun m status => processVerdict_toIdle (s := masked m status s) peak h
  | toGuard =>
    exact BlindTo.of_eq
      (g := fun u => blockBooked r peak u { u with rx.rxState := .guard, rx.guardLeft := u.rx.guardLeft - 1 })
      (.of_silent rfl fun _ _ => rfl) (processVerdict_toGuard peak h)
      fun m status => processVerdict_toGuard (s := masked m status s) peak h
  | stayFatal =>
    exact BlindTo.of_eq (g := fun u => blockBooked r peak u u) (.of_silent rfl fun _ _ => rfl)
      (processVerdict_booked _ h) fun m status => processVerdict_booked (s := masked m status s) _ h
  | toFirstSync =>
    exact ⟨0x02, by rw [processVerdict_toFirstSync peak h]; rfl, fun m status => by
      rw [processVerdict_toFirstSync peak h, processVerdict_toFirstSync (s := masked m status s) peak h]
      rfl⟩
  | toSync =>
    by_cases hd : s.params.driftTolerance < drift s.rx.sampCnt s
    · exact ⟨0x02, by rw [processVerdict_toSync_of_drift peak h hd]; rfl, fun m status => by
        rw [processVerdict_toSync_of_drift peak h hd, processVerdict_toSync_of_drift (s := masked m status s) peak h hd]
        rfl⟩
    · exact ⟨0x02, by rw [processVerdict_toSync_of_not_drift peak h hd]; rfl, fun m status => by
        rw [processVerdict_toSync_of_not_drift peak h hd,
          processVerdict_toSync_of_not_drift (s := masked m status s) peak h hd]
        rfl⟩

theorem blindTo_receiveBlock (X : List Sample) (s : State) : BlindTo (receiveBlock X) s := by
  by_cases hs : s.rx.rxState = .fatalError
  · refine .of_silent ?_ fun m status => ?_
    · rw [receiveBlock_of_fatalError X hs]
    · rw [receiveBlock_of_fatalError X hs, receiveBlock_of_fatalError X (s := masked m status s) hs]
  by_cases hc : fatalCode s.params s.cfg = 0
  · exact (blindTo_processVerdict _ _ s).of_eq (receiveBlock_of_legal hs hc)
      fun m status => receiveBlock_of_legal (s := masked m status s) hs hc
  · refine ⟨0x10, ?_, fun m status => ?_⟩
    · rw [receiveBlock_of_fatalCode_ne hs hc]
      rfl
    · rw [receiveBlock_of_fatalCode_ne hs hc, receiveBlock_of_fatalCode_ne (s := masked m status s) hs hc]
      rfl

/-- BLOCK's input selection sees none of the masked registers. -/
theorem selectBlock_masked (m : ConfigRegs) (status : BitVec 7) (s : State) :
    selectBlock (masked m status s) = (selectBlock s).map fun p => (p.1, masked m status p.2) := by
  have hsin : sinBlock (masked m status s) = sinBlock s := rfl
  unfold selectBlock
  rw [show (masked m status s).cfg.loop = s.cfg.loop from rfl, hsin]
  cases s.cfg.loop with
  | true => rfl
  | false => cases sinBlock s <;> rfl

end Blind

end Sys2Proof.Machine

open Sys2Proof Sys2Proof.Machine

/-- Settles O28: BLOCK by its input, the loopback block by its definition. -/
theorem blockSelectsItsInput : Obligations.BlockSelectsItsInput :=
  ⟨fun _ _ _ => exec_block_of_sin, fun _ => exec_block_of_loop, fun _ _ => rfl⟩

/-- Settles O29: without a block of N samples there is nothing to select. -/
theorem blockNeedsExactlyNSamples : Obligations.BlockNeedsExactlyNSamples := by
  intro s hloop hhead
  have hnone : sinBlock s = none := by
    unfold sinBlock
    split
    · rfl
    next X rest hsin => exact if_neg (hhead X (by rw [hsin]; rfl))
  simp only [exec, execBlock, selectBlock, hloop, hnone, Bool.false_eq_true, if_false]

/-- Settles O32: BLOCK by its input and the receive path's checks; the bookkeeping stands at the end of every transition,
and doing it again changes nothing. -/
theorem blockIsProcessed : Obligations.BlockIsProcessed := by
  refine ⟨fun s X rest hloop hsin hlen hs hc => ?_, fun s X hloop hX hs hc => ?_, fun r peak s => ?_⟩
  · rw [exec_block_of_sin hloop hsin hlen, receiveBlock_of_legal (s := { s with port.sin := rest }) hs hc]
  · rw [exec_block_of_loop hloop, ← hX,
      receiveBlock_of_legal (s := { s with tx := (txTickRegs s.params s.tx).2 }) hs hc]
  · rw [processVerdict_booked _ rfl]
    rfl

/-- Settles O37: the transition at a sampling point by what is sampled, then the Symbol handler. -/
theorem samplingPointForwardsTheSymbol : Obligations.SamplingPointForwardsTheSymbol := by
  intro s r peak st hclock hsp hsync sampled
  have hmove := blockMove_of_idle_sampling st hclock hsync hsp
  refine ⟨fun hne hdata hlo hhi => ?_, fun hunheard => ?_⟩
  · have hbyte := classify_of_byte hne hdata hhi
    exact processVerdict_toSymbol_of_byte peak (hmove.trans (by rw [hbyte]; exact samplingMove_byte _ _)) hbyte
  · obtain ⟨hne, hs⟩ | ⟨rfl, hcand⟩ := hunheard
    · have hsync := classify_of_syncSym hne hs
      exact processVerdict_toSymbol_of_not_byte peak (hmove.trans (by rw [hsync]; exact samplingMove_syncSym _))
        (by rw [hsync]; exact nofun)
    · have hnothing := classify_noSymbol s.cfg
      refine processVerdict_toSymbol_of_not_byte peak (hmove.trans ?_) (by rw [hnothing]; exact nofun)
      rw [hnothing, hcand]
      rfl

/-- Settles O56: input selection and receive path, neither of which sees the masked registers. -/
theorem blockIgnoresRatesAndFlags : Obligations.BlockIgnoresRatesAndFlags := by
  intro s t txRate rxRate rxAmp irqEn status h
  rw [exec, execBlock] at h
  split at h
  next X s' hsel =>
    cases h
    obtain ⟨extra, hstatus, hcarry⟩ := blindTo_receiveBlock X s'
    have hinput : s'.diag = s.diag := by
      obtain ⟨tx, sin, rfl⟩ := (selectBlock_inputTaken hsel).exists_eq
      rfl
    refine ⟨extra, hinput ▸ hstatus, ?_⟩
    let m : ConfigRegs := { s.cfg with txRate := txRate, rxRate := rxRate, rxAmp := rxAmp, irqEn := irqEn }
    change execBlock (masked m status s) = .next (masked m (status ||| extra) (receiveBlock X s'))
    rw [execBlock, selectBlock_masked, hsel, ← hcarry]
    rfl
  next => cases h

end

section
/-!
SUPPORT. Runs of processed blocks (43_rx_state_machine.md R198): the history they leave, the blocks that match no sync
pattern, and any number of silent ones.
-/

namespace Sys2Proof.Machine

/-! ### One block and the history -/

section OneBlock

variable {s : State} {r : Symbol} (peak : Level)

/-- The history after a processed block is the history after its push (42_sync_tracker.md R154). -/
theorem histAll_processVerdict : histAll (processVerdict r peak s) = histAll (histPush r s) := by
  have hp : (processVerdict r peak s).params = s.params := (processVerdict_keeps r peak s).params
  rw [processVerdict_booked _ rfl] at hp ⊢
  simp only [histAll, hp]
  rfl

theorem RingShape.processVerdict (h : RingShape s) : RingShape (processVerdict r peak s) := by
  have hp : (Machine.processVerdict r peak s).params = s.params := (processVerdict_keeps r peak s).params
  obtain ⟨hpos, hlen, hlt, hle⟩ := h.histPush r
  rw [processVerdict_booked _ rfl] at hp ⊢
  constructor <;> rw [hp]
  · exact hpos
  · exact hlen
  · exact hlt
  · exact hle

theorem syncPattern_histPush (r : Symbol) (s : State) : syncPattern (histPush r s) = syncPattern s := rfl

/-- Where the pattern does not end the pushed history, the recognizer does not match. -/
theorem syncNow_histPush_of_not_suffix (h : RingShape s) (hno : ¬ syncPattern s <:+ histAll s ++ [r]) :
    syncNow (histPush r s) = false := by
  rw [syncNow_eq_false_iff, syncPattern_histPush, histAll_histPush h]
  exact fun hsuffix => hno (hsuffix.trans (List.drop_suffix _ _))

/-- The second half of the pattern is SYNC_B. -/
theorem getElem?_syncPattern_of_ge {i : Nat} (hlo : s.params.periodBlocks ≤ i) (hhi : i < 2 * s.params.periodBlocks) :
    (syncPattern s)[i]? = some (syncB s.cfg.rxMax) := by
  rw [syncPattern, List.getElem?_append_right (by simpa using hlo), List.length_replicate, List.getElem?_replicate,
    if_pos (by omega)]

/-- What ends in another symbol, or in another symbol and fewer than P of SYNC_B, does not end in the pattern. -/
theorem not_suffix_of_short_syncB {l : List Symbol} {x : Symbol} (hx : x ≠ syncB s.cfg.rxMax) (n : Nat)
    (hn : n < s.params.periodBlocks) : ¬ syncPattern s <:+ l ++ [x] ++ List.replicate n (syncB s.cfg.rxMax) := by
  intro h
  have hlen := length_syncPattern s
  have hget := getLast?_of_suffix_append h (by rw [List.length_replicate]; omega)
  rw [List.getLast?_concat, getElem?_syncPattern_of_ge (by rw [List.length_replicate]; omega)
    (by rw [List.length_replicate]; omega)] at hget
  exact hx (Option.some.inj hget)

/-- A block that is not read as SYNC_B matches nothing (42_sync_tracker.md R160). -/
theorem syncNow_histPush_of_ne (h : RingShape s) (hP : 0 < s.params.periodBlocks) (hr : r ≠ syncB s.cfg.rxMax) :
    syncNow (histPush r s) = false := by
  refine syncNow_histPush_of_not_suffix h ?_
  simpa using not_suffix_of_short_syncB (l := histAll s) hr 0 hP

/-- Without a clock, a block that matches nothing ends in FirstSyncWait (43_rx_state_machine.md R175, R176). -/
theorem processVerdict_of_unsynced (st : s.rx.rxState = .idleInit ∨ s.rx.rxState = .firstSyncWait)
    (hsync : syncNow (histPush r s) = false) :
    processVerdict r peak s = blockBooked r peak s { s with rx.rxState := .firstSyncWait } := by
  refine processVerdict_toFirstSyncWait peak ?_
  obtain st | st := st
  · exact nextMove_of_idleInit st
  · rw [blockMove, hsync]
    exact nextMove_of_firstSyncWait st

end OneBlock

theorem periodBlocks_ge_of_geometryOk {p : Params} (h : geometryOk p = true) : 3 ≤ p.periodBlocks := by
  obtain ⟨hguard, hperiod, -, -, -⟩ := (geometryOk_iff p).1 h
  omega

/-! ### Silence -/

section Silence

variable {s : State}

/-- The state one silent block leaves when there is no clock, `rest` the blocks still waiting on SIN. -/
def silenceBooked (rest : List (List Sample)) (s : State) : State :=
  blockBooked 0xFFFF 0x8000 { s with port.sin := rest } { s with port.sin := rest, rx.rxState := .firstSyncWait }

theorem RingShape.silenceBooked (h : RingShape s) (rest : List (List Sample)) : RingShape (silenceBooked rest s) := by
  obtain ⟨hpos, hlen, hlt, hle⟩ := h.histPush 0xFFFF
  exact ⟨hpos, hlen, hlt, hle⟩

/-- One silent block from SIN with no clock (43_rx_state_machine.md R198). -/
theorem exec_block_of_silence {rest : List (List Sample)} (hring : RingShape s)
    (st : s.rx.rxState = .idleInit ∨ s.rx.rxState = .firstSyncWait) (hc : fatalCode s.params s.cfg = 0)
    (hloop : s.cfg.loop = false) (hthresh : s.cfg.thresh ≠ 0x8000)
    (hsin : s.port.sin = silentBlock s.params.logFftSize :: rest) :
    exec .block s = .next (silenceBooked rest s) := by
  obtain ⟨hrange, -, hgeom⟩ := fatalCode_eq_zero hc
  have hfatal : s.rx.rxState ≠ .fatalError := by
    obtain st | st := st <;> rw [st] <;> exact nofun
  have hring' : RingShape { s with port.sin := rest } := ⟨hring.1, hring.2, hring.3, hring.4⟩
  have hP := periodBlocks_ge_of_geometryOk hgeom
  have hsync : syncNow (histPush 0xFFFF { s with port.sin := rest }) = false :=
    syncNow_histPush_of_ne hring' (by exact Nat.lt_of_lt_of_le (by decide) hP) (syncB_ne_noSymbol _).symm
  rw [exec_block_of_sin hloop hsin List.length_replicate,
    receiveBlock_of_legal (s := { s with port.sin := rest }) hfatal hc, detect_of_silent _ _ (isSilent_silentBlock _),
    if_neg hthresh]
  exact congrArg Host.Outcome.next (processVerdict_of_unsynced 0x8000 (s := { s with port.sin := rest }) st hsync)

/-- Any number of silent blocks, by induction on the number: each leaves the state of the first. -/
theorem runCommands_silence (n : Nat) {rest : List (List Sample)} (hring : RingShape s)
    (st : s.rx.rxState = .idleInit ∨ s.rx.rxState = .firstSyncWait) (hc : fatalCode s.params s.cfg = 0)
    (hloop : s.cfg.loop = false) (hthresh : s.cfg.thresh ≠ 0x8000)
    (hsin : s.port.sin = List.replicate (n + 1) (silentBlock s.params.logFftSize) ++ rest) :
    ∃ t : State, runCommands (List.replicate (n + 1) .block) s = .next t ∧ t.rx.rxState = .firstSyncWait ∧
      t.port.evt = s.port.evt ∧ t.port.sin = rest ∧ t.frm = s.frm ∧ t.diag = s.diag ∧ t.rx.lastRaw = 0xFFFF ∧
      t.rx.sampCnt = s.rx.sampCnt + BitVec.ofNat 64 ((n + 1) * s.params.fftSize) := by
  induction n generalizing s with
  | zero =>
    rw [List.replicate_succ, runCommands, exec_block_of_silence hring st hc hloop hthresh hsin]
    exact ⟨_, rfl, rfl, rfl, rfl, rfl, rfl, rfl, by rw [Nat.zero_add, Nat.one_mul]; rfl⟩
  | succ n ih =>
    have hfirst := exec_block_of_silence hring st hc hloop hthresh hsin
    obtain ⟨t, hrun, hstate, hevt, hport, hfrm, hdiag, hraw, hcount⟩ :=
      ih (hring.silenceBooked (List.replicate (n + 1) (silentBlock s.params.logFftSize) ++ rest)) (.inr rfl) hc hloop
        hthresh rfl
    refine ⟨t, ?_, hstate, hevt, hport, hfrm, hdiag, hraw, hcount.trans ?_⟩
    · rw [List.replicate_succ, runCommands, hfirst]
      exact hrun
    · rw [Nat.succ_mul (n + 1), Nat.add_comm _ s.params.fftSize, BitVec.ofNat_add, ← BitVec.add_assoc]
      rfl

end Silence

end Sys2Proof.Machine

open Sys2Proof Sys2Proof.Machine

/-- Settles O39, by induction on the number of blocks. -/
theorem silenceNeverAcquires : Obligations.SilenceNeverAcquires :=
  fun _ n _ hring st hc hloop hthresh hsin => runCommands_silence n hring st hc hloop hthresh hsin

end

section
/-!
SUPPORT. The receiver over a whole frame (43_rx_state_machine.md section 5, 45_tx_sequencer.md R238): `Received` is a
run of processed blocks by its raw symbols alone. Its phases are the preamble, up to the one block at which the
recognizer matches, and the data symbols, one byte to the framer for each; the framer's part is the round trip of R238.
-/

namespace Sys2Proof.Machine

theorem rtake_append_suffix {α : Type} (l m : List α) (n : Nat) : l.rtake n ++ m <:+ l ++ m :=
  ⟨l.take (l.length - n), by rw [List.rtake, ← List.append_assoc, List.take_append_drop]⟩

/-! ### A run of processed blocks -/

/-- `t` is reached from `s` by processed blocks with the raw symbols `rs`, whatever their levels and whatever BLOCK's
input selection leaves in the transmit registers and on SIN. -/
inductive Received : List Symbol → State → State → Prop
  | nil (s : State) : Received [] s s
  | cons {r : Symbol} {rs : List Symbol} {s t : State} (peak : Level) (tx : TxRegs) (sin : List (List Sample))
      (h : Received rs (processVerdict r peak { s with tx := tx, port.sin := sin }) t) : Received (r :: rs) s t

section Received

variable {rs more : List Symbol} {s t : State}

theorem Received.exists_append (h : Received (rs ++ more) s t) : ∃ u, Received rs s u ∧ Received more u t := by
  induction rs generalizing s with
  | nil => exact ⟨s, .nil s, h⟩
  | cons r rs ih =>
    cases h with
    | cons peak tx sin h =>
      obtain ⟨u, hu, ht⟩ := ih h
      exact ⟨u, .cons peak tx sin hu, ht⟩

theorem Received.params_cfg (h : Received rs s t) : t.params = s.params ∧ t.cfg = s.cfg := by
  induction h with
  | nil => exact ⟨rfl, rfl⟩
  | @cons r rs s t peak tx sin h ih =>
    have hkeeps := processVerdict_keeps r peak { s with tx := tx, port.sin := sin }
    exact ⟨ih.1.trans hkeeps.params, ih.2.trans hkeeps.cfg⟩

theorem RingShape.withInput (h : RingShape s) (tx : TxRegs) (sin : List (List Sample)) :
    RingShape { s with tx := tx, port.sin := sin } := ⟨h.1, h.2, h.3, h.4⟩

/-- The history after a run holds the run's symbols (42_sync_tracker.md R153). -/
theorem Received.history (h : Received rs s t) (hring : RingShape s) :
    RingShape t ∧ histAll t = (histAll s ++ rs).rtake s.params.rawSymbolMax := by
  induction h with
  | nil s => exact ⟨hring, by rw [List.append_nil, rtake_eq_self ((length_histAll s).trans_le hring.count_le)]⟩
  | @cons r rs s t peak tx sin h ih =>
    have hinput := hring.withInput tx sin
    have hp : (processVerdict r peak { s with tx := tx, port.sin := sin }).params = s.params :=
      (processVerdict_keeps _ _ _).params
    obtain ⟨hshape, hhist⟩ := ih (hinput.processVerdict peak)
    refine ⟨hshape, hhist.trans ?_⟩
    rw [hp, histAll_processVerdict, histAll_histPush hinput]
    exact (rtake_rtake_append _ _ _).trans (by rw [List.append_assoc]; rfl)

end Received

/-! ### What a run leaves of the framer, the flags and the errors -/

/-- Framer, flags, error registers and EVT stand. -/
structure Unreported (s t : State) : Prop where
  frm : t.frm = s.frm
  diag : t.diag = s.diag
  evt : t.port.evt = s.port.evt

theorem Unreported.trans {a b c : State} (h : Unreported a b) (g : Unreported b c) : Unreported a c :=
  ⟨g.frm.trans h.frm, g.diag.trans h.diag, g.evt.trans h.evt⟩

/-! ### Before the sync -/

/-- Blocks that complete no pattern leave a receiver with no clock in FirstSyncWait. -/
theorem Received.unsynced {rs : List Symbol} {s t : State} (h : Received rs s t) (hring : RingShape s) (hne : rs ≠ [])
    (st : s.rx.rxState = .idleInit ∨ s.rx.rxState = .firstSyncWait)
    (hno : ∀ k < rs.length, ¬ syncPattern s <:+ histAll s ++ rs.take (k + 1)) :
    t.rx.rxState = .firstSyncWait ∧ Unreported s t := by
  induction h with
  | nil => exact absurd rfl hne
  | @cons r rs s t peak tx sin h ih =>
    have hinput := hring.withInput tx sin
    have hsync : syncNow (histPush r { s with tx := tx, port.sin := sin }) = false :=
      syncNow_histPush_of_not_suffix hinput (hno 0 (Nat.succ_pos _))
    have hblock := processVerdict_of_unsynced peak (s := { s with tx := tx, port.sin := sin }) st hsync
    have hfirst : Unreported s (processVerdict r peak { s with tx := tx, port.sin := sin }) := by
      rw [hblock]
      exact ⟨rfl, rfl, rfl⟩
    have hstate : (processVerdict r peak { s with tx := tx, port.sin := sin }).rx.rxState = .firstSyncWait := by
      rw [hblock]
      rfl
    by_cases hrest : rs = []
    · subst hrest
      cases h
      exact ⟨hstate, hfirst⟩
    · have hpattern : syncPattern (processVerdict r peak { s with tx := tx, port.sin := sin }) = syncPattern s := by
        rw [hblock]
        rfl
      obtain ⟨ht, hlater⟩ := ih (hinput.processVerdict peak) hrest (.inr hstate) fun k hk => by
        rw [hpattern, histAll_processVerdict, histAll_histPush hinput]
        intro hsuffix
        refine hno (k + 1) (Nat.succ_lt_succ hk) ?_
        rw [List.take_succ_cons, ← List.singleton_append, ← List.append_assoc]
        exact hsuffix.trans (rtake_append_suffix _ _ _)
      exact ⟨ht, hfirst.trans hlater⟩

section Preamble

variable {s t : State}

/-- Of the preamble's blocks none before the last completes the pattern (42_sync_tracker.md R160). -/
theorem preamble_not_suffix {k : Nat} (hP : 0 < s.params.periodBlocks)
    (hk : k < s.params.periodBlocks + (s.params.periodBlocks - 1)) :
    ¬ syncPattern s <:+ histAll s ++
      (List.replicate s.params.periodBlocks (syncA s.cfg.rxMax) ++
        List.replicate (s.params.periodBlocks - 1) (syncB s.cfg.rxMax)).take (k + 1) := by
  have hAB := syncA_ne_syncB s.cfg.rxMax
  by_cases hhalf : k < s.params.periodBlocks
  · have h := not_suffix_of_short_syncB (l := histAll s ++ List.replicate k (syncA s.cfg.rxMax)) hAB 0 hP
    rw [List.take_append_of_le_length (by rw [List.length_replicate]; omega), List.take_replicate,
      Nat.min_eq_left (by omega), List.replicate_succ', ← List.append_assoc]
    simpa using h
  · obtain ⟨m, hm⟩ := Nat.exists_eq_add_of_le' hP
    obtain ⟨j, rfl⟩ := Nat.exists_eq_add_of_le (not_lt.1 hhalf)
    have h := not_suffix_of_short_syncB (l := histAll s ++ List.replicate m (syncA s.cfg.rxMax)) hAB (j + 1) (by omega)
    rw [List.take_append, List.take_of_length_le (by rw [List.length_replicate]; omega), List.length_replicate,
      List.take_replicate, Nat.min_eq_left (by omega),
      show s.params.periodBlocks + j + 1 - s.params.periodBlocks = j + 1 by omega]
    rw [List.append_assoc, List.append_assoc, ← List.append_assoc (List.replicate m _), ← List.replicate_succ',
      ← hm] at h
    exact h

/-- With the whole pattern at its end the recognizer matches, as the history holds 2P symbols (42_sync_tracker.md
R159). -/
theorem syncNow_of_histAll {l : List Symbol} (hcap : 2 * s.params.periodBlocks ≤ s.params.rawSymbolMax)
    (h : histAll s = (l ++ syncPattern s).rtake s.params.rawSymbolMax) : syncNow s = true := by
  have hlen := length_syncPattern s
  rw [syncNow_iff_suffix, h, List.rtake, List.length_append,
    List.drop_append_of_le_length (by omega)]
  exact List.suffix_append _ _

theorem syncNow_histPush_of_history {l m : List Symbol} {r : Symbol} (hring : RingShape s)
    (hcap : 2 * s.params.periodBlocks ≤ s.params.rawSymbolMax)
    (hhist : histAll s = (l ++ m).rtake s.params.rawSymbolMax) (hpattern : m ++ [r] = syncPattern s) :
    syncNow (histPush r s) = true := by
  refine syncNow_of_histAll (l := l) hcap ?_
  rw [histAll_histPush hring, hhist, rtake_rtake_append, List.append_assoc, hpattern]
  rfl

/-- The state in which the first sync's candidate is opened (43_rx_state_machine.md R186). -/
def acquired (s : State) : State := clockAnchor s.rx.sampCnt (newSyncId (enterState .firstSync s))

/-- The block that completes the pattern (43_rx_state_machine.md R176, R186). -/
theorem processVerdict_of_synced {r : Symbol} (peak : Level) (st : s.rx.rxState = .firstSyncWait)
    (hsync : syncNow (histPush r s) = true) :
    processVerdict r peak s = blockBooked r peak s (frmFlush (frmOnSync (.start (acquired (histPush r s))))) := by
  have hmove : blockMove s r = .toFirstSync := by
    rw [blockMove, hsync]
    exact nextMove_of_firstSyncWait st
  exact processVerdict_booked _ hmove

end Preamble

/-! ### The symbol clock between syncs -/

section Tracking

variable {s : State} {k : Nat} {r : Symbol} (peak : Level)

theorem Tracking.withInput (h : Tracking s k) (tx : TxRegs) (sin : List (List Sample)) :
    Tracking { s with tx := tx, port.sin := sin } k := ⟨h.state, h.clock, h.blocks, h.ahead⟩

/-- With fewer than 256 blocks of at most 2^16 samples to a period, no number of blocks up to a period
is a multiple of 2^64 samples. -/
theorem sampCnt_ne_nextSp (hahead : s.rx.nextSp - s.rx.sampCnt = BitVec.ofNat 64 (k * s.params.fftSize)) (hk : k ≠ 0)
    (hlt : k < 256) (hN : s.params.logFftSize ≤ 16) : s.rx.sampCnt ≠ s.rx.nextSp := by
  intro heq
  rw [heq, BitVec.sub_self] at hahead
  have hpos : 0 < k * s.params.fftSize := Nat.mul_pos (Nat.pos_of_ne_zero hk) (Nat.two_pow_pos _)
  have hsize : k * s.params.fftSize < 256 * 2 ^ 16 + 1 :=
    Nat.lt_succ_of_le (Nat.mul_le_mul hlt.le (Nat.pow_le_pow_right (by decide) hN))
  have hzero : 0 = k * s.params.fftSize % 2 ^ 64 := (congrArg BitVec.toNat hahead).trans (BitVec.toNat_ofNat _ _)
  rw [Nat.mod_eq_of_lt (hsize.trans (by decide))] at hzero
  exact hpos.ne hzero

/-- A block before the sampling block, not read as a sync: the clock comes one block nearer and nothing is reported
(43_rx_state_machine.md R189, R191). -/
theorem Tracking.quiet (h : Tracking s (k + 1)) (hgeom : geometryOk s.params = true) (hP : s.params.periodBlocks < 256)
    (hN : s.params.logFftSize ≤ 16) (hsync : syncNow (histPush r s) = false) :
    Tracking (processVerdict r peak s) k ∧ Unreported s (processVerdict r peak s) := by
  have idle (st : s.rx.rxState = .firstSync ∨ s.rx.rxState = .sync ∨ (s.rx.rxState = .idle ∧ k + 1 ≠ 0) ∨
        (s.rx.rxState = .guard ∧ s.rx.guardLeft = 0)) (hmove : blockMove s r = .toIdle) :
      Tracking (processVerdict r peak s) k ∧ Unreported s (processVerdict r peak s) := by
    obtain ⟨n, hn, hle⟩ := h.blocks.before_idle hgeom st
    obtain rfl := Nat.succ.inj hn
    rw [processVerdict_toIdle peak hmove]
    exact ⟨Tracking.counted (t := { s with rx.rxState := .idle }) r peak rfl h.clock rfl rfl hle h.ahead, rfl, rfl, rfl⟩
  have guard (st : s.rx.rxState = .symbol ∨ (s.rx.rxState = .guard ∧ s.rx.guardLeft ≠ 0))
      (hmove : blockMove s r = .toGuard) :
      Tracking (processVerdict r peak s) k ∧ Unreported s (processVerdict r peak s) := by
    obtain ⟨n, hn, hleft⟩ := h.blocks.before_guard hgeom st
    obtain rfl := Nat.succ.inj hn
    rw [processVerdict_toGuard peak hmove]
    exact ⟨Tracking.counted (t := { s with rx.rxState := .guard, rx.guardLeft := s.rx.guardLeft - 1 }) r peak rfl
      h.clock rfl rfl hleft h.ahead, rfl, rfl, rfl⟩
  cases st : s.rx.rxState with
  | firstSync => exact idle (.inl st) (nextMove_after_sync (.inl st) h.clock)
  | sync => exact idle (.inr (.inl st)) (nextMove_after_sync (.inr st) h.clock)
  | idle =>
    have hk := h.blocks
    simp only [BlocksAhead, st] at hk
    refine idle (.inr (.inr (.inl ⟨st, Nat.succ_ne_zero k⟩))) ?_
    rw [blockMove, hsync, beq_false_of_ne (sampCnt_ne_nextSp h.ahead (Nat.succ_ne_zero k) (by omega) hN),
      Bool.and_false]
    exact nextMove_of_idle_waiting st h.clock
  | symbol =>
    refine guard (.inl st) ?_
    rw [blockMove, hsync]
    exact nextMove_of_symbol st h.clock
  | guard =>
    have hmove : blockMove s r = if s.rx.guardLeft = 0 then .toIdle else .toGuard := by
      rw [blockMove, hsync]
      exact nextMove_of_guard st h.clock
    by_cases hleft : s.rx.guardLeft = 0
    · exact idle (.inr (.inr (.inr ⟨st, hleft⟩))) (hmove.trans (if_pos hleft))
    · exact guard (.inr ⟨st, hleft⟩) (hmove.trans (if_neg hleft))
  | _ =>
    have hstate := h.state
    rw [st] at hstate
    cases hstate

/-- Only Idle meets its sampling block (43_rx_state_machine.md R180). -/
theorem Tracking.idle_of_zero (h : Tracking s 0) (hgeom : geometryOk s.params = true) : s.rx.rxState = .idle := by
  obtain ⟨hguard, hperiod, hoffset, -, -⟩ := (geometryOk_iff _).1 hgeom
  have hk := h.blocks
  have hstate := h.state
  unfold BlocksAhead at hk
  cases st : s.rx.rxState with
  | idle => rfl
  | firstSync | sync | symbol | guard =>
    simp only [st] at hk
    omega
  | _ =>
    rw [st] at hstate
    cases hstate

/-- The sampling block of a byte: the clock is P − 1 blocks from its next one and the framer gets the byte
(43_rx_state_machine.md R188, R190). -/
theorem Tracking.sample (h : Tracking s 0) (hgeom : geometryOk s.params = true) (hG : s.params.guardBlocks < 256)
    (hsync : syncNow (histPush r s) = false) {b : Byte} (hb : classify s.cfg r = .byte b) :
    processVerdict r peak s =
        blockBooked r peak s (frmFlush (frmOnByte b (blockIndex s) (.start (sampledAt (histPush r s))))) ∧
      Tracking (processVerdict r peak s) (s.params.periodBlocks - 1) := by
  have st := h.idle_of_zero hgeom
  have hahead := h.ahead
  rw [Nat.zero_mul] at hahead
  have hsp : s.rx.sampCnt = s.rx.nextSp := by bv_omega
  have hmove : blockMove s r = .toSymbol := by
    rw [blockMove_of_idle_sampling st h.clock hsync hsp, hb]
    exact samplingMove_byte _ _
  have hblock := processVerdict_toSymbol_of_byte peak hmove hb
  refine ⟨hblock, ?_⟩
  have hkeeps := (frmOnByte_keeps b (blockIndex s) (.start (sampledAt (histPush r s)))).trans (frmFlush_keeps _)
  have hrx := hkeeps.rx
  rw [hblock]
  exact .sampled r peak hkeeps.params (by rw [hrx]; exact h.clock) hgeom hG (by rw [hrx]; rfl) (by rw [hrx]; rfl)
    (by rw [hrx]; rfl)

end Tracking

/-! ### The framer apart from the rest -/

theorem framesOf_append (es more : List Event) : framesOf (es ++ more) = framesOf es ++ framesOf more :=
  List.filterMap_append

/-- Two states with the same framer, the same Frames on EVT and the same PAYLOAD_MAX. -/
structure FramerAgrees (s t : State) : Prop where
  frm : s.frm = t.frm
  frames : framesOf s.port.evt = framesOf t.port.evt
  payloadMax : s.params.payloadMax = t.params.payloadMax

theorem FramerAgrees.trans {a b c : State} (h : FramerAgrees a b) (g : FramerAgrees b c) : FramerAgrees a c :=
  ⟨h.frm.trans g.frm, h.frames.trans g.frames, h.payloadMax.trans g.payloadMax⟩

theorem Unreported.agrees {s t : State} (h : Unreported s t) (hp : t.params = s.params) : FramerAgrees t s :=
  ⟨h.frm, by rw [h.evt], by rw [hp]⟩

theorem FramerAgrees.congr {s s' t : State} (h : FramerAgrees s t) (hfrm : s'.frm = s.frm)
    (hevt : s'.port.evt = s.port.evt) (hp : s'.params = s.params) : FramerAgrees s' t :=
  ⟨hfrm.trans h.frm, hevt ▸ h.frames, hp ▸ h.payloadMax⟩

/-- What a byte does to the framer and to the Frames on EVT depends on these alone (44_framer.md R213). -/
theorem FramerAgrees.frmOnByte {k k' : Work} (h : FramerAgrees k.s k'.s) (b : Byte) (idx : Id) :
    FramerAgrees (frmOnByte b idx k).s (frmOnByte b idx k').s := by
  obtain ⟨hfrm, hframes, hmax⟩ := h
  by_cases hcand : k.s.frm.cand = []
  · rw [frmOnByte_of_nil b idx hcand, frmOnByte_of_nil b idx (hfrm ▸ hcand)]
    exact ⟨hfrm, hframes, hmax⟩
  · rw [frmOnByte_eq_fedSettled b idx hcand, frmOnByte_eq_fedSettled b idx (hfrm ▸ hcand)]
    refine ⟨?_, ?_, hmax⟩
    · simp only [fedSettled, hfrm, hmax]
    · simp only [fedSettled, hfrm, hmax, framesOf_append, hframes]

/-- The CANDS report adds no Frame (44_framer.md R221). -/
theorem frmFlush_agrees (k : Work) : FramerAgrees (frmFlush k) k.s := by
  refine ⟨frmFlush_frm k, ?_, by rw [(frmFlush_keeps k).params]⟩
  cases h : k.changed
  · rw [frmFlush_of_unchanged h]
  · rw [frmFlush_of_changed h]
    exact (framesOf_append _ _).trans (List.append_nil _)

/-- A block that gives the framer a byte. -/
theorem byteBlock_framer {s u v : State} {k : Work} (r : Symbol) (peak : Level) (h : FramerAgrees u k.s)
    (hdiag : u.diag = v.diag) (b : Byte) (idx : Id) :
    FramerAgrees (blockBooked r peak s (frmFlush (frmOnByte b idx (.start u)))) (frmOnByte b idx k).s ∧
      KeepsErrors v (blockBooked r peak s (frmFlush (frmOnByte b idx (.start u)))) :=
  ⟨((frmFlush_agrees _).trans (FramerAgrees.frmOnByte (k := .start u) h b idx)).congr rfl rfl rfl,
    .trans (.of_diag hdiag)
      (.trans (frmOnByte_keepsErrors b idx (.start u)) (.trans (frmFlush_keepsErrors _) (.of_diag rfl)))⟩

/-! ### The preamble of a frame -/

/-- The preamble of the sync pattern acquires the clock and opens the first candidate (43_rx_state_machine.md R175,
R176, R186). -/
theorem Received.preamble {s t : State} (hgeom : geometryOk s.params = true)
    (h : Received (List.replicate s.params.periodBlocks (syncA s.cfg.rxMax) ++
      List.replicate s.params.periodBlocks (syncB s.cfg.rxMax)) s t)
    (hring : RingShape s) (st : s.rx.rxState = .idleInit ∨ s.rx.rxState = .firstSyncWait) :
    ∃ a : State, a.frm = s.frm ∧ a.port.evt = s.port.evt ∧ a.params = s.params ∧
      Tracking t (s.params.offsetBlocks - 1) ∧ FramerAgrees t (frmOnSync (.start a)).s ∧ KeepsErrors s t := by
  obtain ⟨-, -, -, -, hcap⟩ := (geometryOk_iff _).1 hgeom
  have hP := periodBlocks_ge_of_geometryOk hgeom
  have hsplit : List.replicate s.params.periodBlocks (syncB s.cfg.rxMax) =
      List.replicate (s.params.periodBlocks - 1) (syncB s.cfg.rxMax) ++ [syncB s.cfg.rxMax] := by
    rw [← List.replicate_succ', Nat.sub_add_cancel (by omega)]
  rw [hsplit, ← List.append_assoc] at h
  obtain ⟨u, hbefore, hlast⟩ := h.exists_append
  obtain ⟨hpu, hcu⟩ := hbefore.params_cfg
  obtain ⟨hringu, hhist⟩ := hbefore.history hring
  obtain ⟨hstate, hquiet⟩ := hbefore.unsynced hring (by simp; omega) st fun k hk =>
    preamble_not_suffix (by omega) (by simpa using hk)
  cases hlast with
  | cons peak tx sin hlast =>
    cases hlast
    have hinput := hringu.withInput tx sin
    have hsync : syncNow (histPush (syncB s.cfg.rxMax) { u with tx := tx, port.sin := sin }) = true := by
      refine syncNow_histPush_of_history (l := histAll s) hinput (hpu.symm ▸ hcap) (hhist.trans (by rw [hpu])) ?_
      rw [List.append_assoc, ← hsplit, syncPattern, hpu, hcu]
    have hblock := processVerdict_of_synced (s := { u with tx := tx, port.sin := sin }) peak hstate hsync
    rw [hblock]
    refine ⟨acquired (histPush (syncB s.cfg.rxMax) { u with tx := tx, port.sin := sin }), hquiet.frm, hquiet.evt, hpu, ?_,
      (frmFlush_agrees _).congr rfl rfl rfl, ?_⟩
    · have hkeeps := (frmOnSync_keeps (.start (acquired (histPush (syncB s.cfg.rxMax)
        { u with tx := tx, port.sin := sin })))).trans (frmFlush_keeps _)
      have hrx := hkeeps.rx
      rw [← hpu]
      exact Tracking.anchored (s := { u with tx := tx, port.sin := sin }) _ peak hkeeps.params (by rw [hrx]; rfl)
        (hpu ▸ hgeom) (.inl (by rw [hrx]; rfl)) (by rw [hrx]; rfl)
    · exact .trans (.of_diag hquiet.diag) (.trans (b := (frmOnSync (.start (acquired (histPush (syncB s.cfg.rxMax)
        { u with tx := tx, port.sin := sin })))).s) (.of_diag rfl) (.trans (frmFlush_keepsErrors _) (.of_diag rfl)))

/-! ### The data symbols of a frame -/

/-- In an alphabet wide enough for every byte, a byte's symbol is sampled as that byte (00_scope.md R14,
43_rx_state_machine.md R194). -/
theorem classify_byteToSymbol {c : ConfigRegs} (hwide : c.rxMin.toNat + 257 ≤ c.rxMax.toNat) (b : Byte) :
    classify c (byteToSymbol c.rxMin b) = .byte b := by
  have hvalue := toNat_byteToSymbol c.rxMin b
  have hb := b.isLt
  have hmax := c.rxMax.isLt
  rw [classify_of_byte (ne_noSymbol_of_le (by omega)) (by omega) (by omega), hvalue, Nat.add_sub_cancel_left,
    BitVec.ofNat_toNat, BitVec.setWidth_eq]

/-- A byte's symbol is no sync symbol. -/
theorem byteToSymbol_ne_syncB {c : ConfigRegs} (hwide : c.rxMin.toNat + 257 ≤ c.rxMax.toNat) (b : Byte) :
    byteToSymbol c.rxMin b ≠ syncB c.rxMax := by
  intro heq
  have hvalue := (toNat_byteToSymbol c.rxMin b).symm.trans (congrArg BitVec.toNat heq)
  rw [syncB, BitVec.toNat_setWidth_of_le (by decide)] at hvalue
  have hb := b.isLt
  omega

section Data

variable {s t : State} (hp : s.params.Consistent) (hgeom : geometryOk s.params = true)

include hp hgeom

/-- Blocks short of the sampling block bring it nearer and report nothing. -/
theorem Received.quiet {r : Symbol} {n k : Nat} (h : Received (List.replicate n r) s t) (hring : RingShape s)
    (htrack : Tracking s (k + n)) (hr : r ≠ syncB s.cfg.rxMax) : Tracking t k ∧ Unreported s t := by
  induction n generalizing s with
  | zero =>
    cases h
    exact ⟨htrack, rfl, rfl, rfl⟩
  | succ n ih =>
    cases h with
    | cons peak tx sin h =>
      have hinput := hring.withInput tx sin
      have hkeeps := processVerdict_keeps r peak { s with tx := tx, port.sin := sin }
      have hsync : syncNow (histPush r { s with tx := tx, port.sin := sin }) = false :=
        syncNow_histPush_of_ne hinput (by exact Nat.lt_of_lt_of_le (by decide) (periodBlocks_ge_of_geometryOk hgeom)) hr
      obtain ⟨htrack', hquiet⟩ := (htrack.withInput tx sin).quiet peak hgeom hp.periodBlocks_lt hp.logFftSize_le hsync
      obtain ⟨hlast, hrest⟩ := ih (by rw [hkeeps.params]; exact hp) (by rw [hkeeps.params]; exact hgeom) h
        (hinput.processVerdict peak) htrack' (by rw [hkeeps.cfg]; exact hr)
      exact ⟨hlast, Unreported.trans ⟨hquiet.frm, hquiet.diag, hquiet.evt⟩ hrest⟩

/-- The sampling block of a data symbol: the framer gets its byte. -/
theorem Received.sampled {b : Byte} (h : Received [byteToSymbol s.cfg.rxMin b] s t) (hring : RingShape s)
    (hwide : s.cfg.rxMin.toNat + 257 ≤ s.cfg.rxMax.toNat) (htrack : Tracking s 0) {k : Work}
    (hagree : FramerAgrees s k.s) :
    ∃ idx, Tracking t (s.params.periodBlocks - 1) ∧ FramerAgrees t (frmOnByte b idx k).s ∧ KeepsErrors s t := by
  cases h with
  | cons peak tx sin h =>
    cases h
    have hP := periodBlocks_ge_of_geometryOk hgeom
    have hsync : syncNow (histPush (byteToSymbol s.cfg.rxMin b) { s with tx := tx, port.sin := sin }) = false :=
      syncNow_histPush_of_ne (hring.withInput tx sin) (by exact Nat.lt_of_lt_of_le (by decide) hP)
        (byteToSymbol_ne_syncB hwide b)
    obtain ⟨hblock, htrack'⟩ :=
      (htrack.withInput tx sin).sample peak hgeom hp.guardBlocks_lt hsync (classify_byteToSymbol hwide b)
    obtain ⟨hframer, herrors⟩ := byteBlock_framer (s := { s with tx := tx, port.sin := sin })
      (u := sampledAt (histPush (byteToSymbol s.cfg.rxMin b) { s with tx := tx, port.sin := sin }))
      (v := s) (byteToSymbol s.cfg.rxMin b) peak (hagree.congr rfl rfl rfl) rfl b (blockIndex s)
    exact ⟨blockIndex s, htrack', hblock ▸ hframer, hblock ▸ herrors⟩

/-- One data symbol, P blocks of it: the framer gets its byte at the one sampling block among them. -/
theorem Received.byte {b : Byte} (h : Received (List.replicate s.params.periodBlocks (byteToSymbol s.cfg.rxMin b)) s t)
    (hring : RingShape s) (hwide : s.cfg.rxMin.toNat + 257 ≤ s.cfg.rxMax.toNat)
    (htrack : Tracking s (s.params.offsetBlocks - 1)) {k : Work} (hagree : FramerAgrees s k.s) :
    ∃ idx, Tracking t (s.params.offsetBlocks - 1) ∧ FramerAgrees t (frmOnByte b idx k).s ∧ KeepsErrors s t := by
  obtain ⟨-, -, hoffset, hle, -⟩ := (geometryOk_iff _).1 hgeom
  have hne := byteToSymbol_ne_syncB hwide b
  have hsplit : s.params.periodBlocks =
      (s.params.offsetBlocks - 1) + (1 + (s.params.periodBlocks - s.params.offsetBlocks)) := by omega
  rw [hsplit, List.replicate_add, List.replicate_add] at h
  obtain ⟨u, hbefore, hrest⟩ := h.exists_append
  obtain ⟨v, hsampling, hafter⟩ := hrest.exists_append
  obtain ⟨hpu, hcu⟩ := hbefore.params_cfg
  obtain ⟨hpv, hcv⟩ := hsampling.params_cfg
  have hringu := (hbefore.history hring).1
  obtain ⟨hzero, hquiet⟩ := hbefore.quiet (k := 0) hp hgeom hring (by rwa [Nat.zero_add]) hne
  rw [← hcu] at hsampling
  obtain ⟨idx, htrackv, hfed, herrors⟩ := hsampling.sampled (hpu.symm ▸ hp) (hpu.symm ▸ hgeom) hringu (hcu.symm ▸ hwide)
    hzero ((hquiet.agrees hpu).trans hagree)
  have hnext : Tracking v (s.params.offsetBlocks - 1 + (s.params.periodBlocks - s.params.offsetBlocks)) := by
    rw [hpu] at htrackv
    convert htrackv using 1
    omega
  rw [hpu] at hpv
  rw [hcu] at hcv
  obtain ⟨htrackt, hlast⟩ := hafter.quiet (hpv.symm ▸ hp) (hpv.symm ▸ hgeom) (hsampling.history hringu).1 hnext
    (hcv.symm ▸ hne)
  exact ⟨idx, htrackt, (hlast.agrees hafter.params_cfg.1).trans hfed,
    .trans (.of_diag hquiet.diag) (herrors.trans (.of_diag hlast.diag))⟩

/-- The data symbols of `bs`: the framer gets these bytes, one after the other. -/
theorem Received.bytes {bs : List Byte}
    (h : Received (bs.flatMap fun b => List.replicate s.params.periodBlocks (byteToSymbol s.cfg.rxMin b)) s t)
    (hring : RingShape s) (hwide : s.cfg.rxMin.toNat + 257 ≤ s.cfg.rxMax.toNat)
    (htrack : Tracking s (s.params.offsetBlocks - 1)) {k : Work} (hagree : FramerAgrees s k.s) :
    ∃ ids : List Id, ids.length = bs.length ∧ FramerAgrees t (deliverBytes (bs.zip ids) k).s ∧ KeepsErrors s t := by
  induction bs generalizing s k with
  | nil =>
    cases h
    exact ⟨[], rfl, hagree, .refl _⟩
  | cons b bs ih =>
    rw [List.flatMap_cons] at h
    obtain ⟨u, hfirst, hrest⟩ := h.exists_append
    obtain ⟨hpu, hcu⟩ := hfirst.params_cfg
    obtain ⟨idx, htracku, hfed, herrors⟩ := hfirst.byte hp hgeom hring hwide htrack hagree
    obtain ⟨ids, hlen, hagreet, hlater⟩ := ih (by rwa [hpu]) (by rwa [hpu]) (by rwa [hpu, hcu])
      (hfirst.history hring).1 (by rwa [hcu]) (by rwa [hpu]) hfed
    exact ⟨idx :: ids, congrArg Nat.succ hlen, hagreet, herrors.trans hlater⟩

/-- A whole frame, P blocks of each of its symbols: exactly its one Frame is put out (45_tx_sequencer.md R238). -/
theorem Received.frame {c : ConfigRegs} {payload : List Byte} {cmd : Bool}
    (h : Received
      ((frameSymbols c (encodeBytes payload cmd)).flatMap fun x => List.replicate s.params.periodBlocks x) s t)
    (hmin : c.txMin = s.cfg.rxMin) (hmax : c.txMax = s.cfg.rxMax) (hring : RingShape s)
    (hwide : s.cfg.rxMin.toNat + 257 ≤ s.cfg.rxMax.toNat) (hpayload : payload.length ≤ s.params.payloadMax)
    (st : s.rx.rxState = .idleInit ∨ s.rx.rxState = .firstSyncWait) (hcand : s.frm.cand = []) :
    framesOf t.port.evt = framesOf s.port.evt ++
        [{ id := s.frm.nextFrameId, header := frameHeader payload.length cmd, payload := payload
           checksum := checksum ([frameHeader payload.length cmd] ++ payload), isCommand := cmd
           frameCandidateId := s.frm.nextCandId }] ∧
      t.diag.errCount = s.diag.errCount ∧ t.frm.cand = [] := by
  have hsymbols : (frameSymbols c (encodeBytes payload cmd)).flatMap (fun x => List.replicate s.params.periodBlocks x) =
      (List.replicate s.params.periodBlocks (syncA s.cfg.rxMax) ++
        List.replicate s.params.periodBlocks (syncB s.cfg.rxMax)) ++
      (encodeBytes payload cmd).flatMap fun b => List.replicate s.params.periodBlocks (byteToSymbol s.cfg.rxMin b) := by
    rw [frameSymbols, Machine.preamble, hmin, hmax, List.flatMap_append, List.flatMap_map, List.flatMap_cons,
      List.flatMap_cons, List.flatMap_nil, List.append_nil]
  rw [hsymbols] at h
  obtain ⟨u, hpreamble, hdata⟩ := h.exists_append
  obtain ⟨hpu, hcu⟩ := hpreamble.params_cfg
  obtain ⟨a, hfrm, hevt, hpa, htrack, hopened, herrors⟩ := hpreamble.preamble hgeom hring st
  rw [← hpu, ← hcu] at hdata
  obtain ⟨ids, hids, hagree, hlater⟩ := hdata.bytes (hpu.symm ▸ hp) (hpu.symm ▸ hgeom) (hpreamble.history hring).1
    (hcu.symm ▸ hwide) (hpu.symm ▸ htrack) hopened
  have hround := frameRoundTrip.2 a payload cmd ids (hpa.symm ▸ hp.payloadMax_le) (hpa.symm ▸ hpayload) (hfrm ▸ hcand)
    (hids.trans (by simp [encodeBytes]))
  simp only [hround, hfrm, hevt] at hagree
  refine ⟨hagree.frames.trans (framesOf_append _ _), (herrors.trans hlater).errCount, ?_⟩
  rw [hagree.frm]

end Data

end Sys2Proof.Machine
end

section
/-!
SUPPORT. A frame through the loopback (45_tx_sequencer.md section 5): SENDFRAME queues it, the blocks play the queue out
one period at a time, and the receiver reads back every symbol that is played.
-/

namespace Sys2Proof.Machine

/-! ### SENDFRAME -/

section Send

variable {s : State} {payload : List Byte} {cmd : Bool}

/-- A buffer that holds the payload, one byte to an entry. -/
theorem payloadOperand_of_bytes
    (h : ∀ (i : Nat) (b : Byte), payload[i]? = some b → s.tx.pbuf[i]? = some (b.setWidth 16)) :
    payloadOperand s payload.length = payload.map (·.setWidth 16) := by
  refine List.ext_getElem? fun i => ?_
  rw [payloadOperand, List.getElem?_map, List.getElem?_take]
  by_cases hi : i < payload.length
  · rw [if_pos hi, Vector.getElem?_toList, h i payload[i] (List.getElem?_eq_getElem hi), List.getElem?_eq_getElem hi]
    rfl
  · rw [if_neg hi, List.getElem?_eq_none (not_lt.1 hi)]
    rfl

theorem sendBytes_of_bytes (h : payloadOperand s payload.length = payload.map (·.setWidth 16)) :
    sendBytes s payload.length cmd = encodeBytes payload cmd := by
  have hbyte : ((·.setWidth 8) ∘ (·.setWidth 16) : Byte → Byte) = id := funext fun b => by
    simp only [Function.comp_apply, id]
    bv_omega
  rw [sendBytes, h, List.map_map, hbyte, List.map_id]

theorem length_encodeBytes (payload : List Byte) (cmd : Bool) :
    (encodeBytes payload cmd).length = payload.length + 2 := by
  simp [encodeBytes]

/-- SENDFRAME of bytes that all have data symbols and fit is accepted (45_tx_sequencer.md R234, R237). -/
theorem sendFrameFailure_of_bytes (h : payloadOperand s payload.length = payload.map (·.setWidth 16))
    (hmax : payload.length ≤ s.params.payloadMax) (hwide : s.cfg.txMin.toNat + 257 ≤ s.cfg.txMax.toNat)
    (hroom : s.tx.txq.length + (payload.length + 4) ≤ s.params.txqDepth) :
    sendFrameFailure s payload.length cmd = none := by
  have hbytes : ¬ (payloadOperand s payload.length).any (fun v => 255 < v.toNat) = true := by
    rw [h, any_not_byte_iff]
    rintro ⟨v, hv, hlt⟩
    obtain ⟨b, -, rfl⟩ := List.mem_map.1 hv
    bv_omega
  have hencodable : ¬ (sendBytes s payload.length cmd).any
      (fun b => !byteEncodable s.cfg.txMin s.cfg.txMax b) = true := by
    rw [any_not_byteEncodable_iff]
    rintro ⟨b, -, hlt⟩
    have := b.isLt
    omega
  have hfits : ¬ queueLacksRoom s (2 + (sendBytes s payload.length cmd).length) = true := by
    rw [queueLacksRoom_iff, sendBytes_of_bytes h, length_encodeBytes]
    omega
  rw [sendFrameFailure, if_neg (not_lt.2 hmax), if_neg hbytes, if_neg (by omega), if_neg hencodable, if_neg hfits]

/-- Every symbol of a frame is one of its alphabet (00_scope.md R11, R14). -/
theorem mem_frameSymbols {c : ConfigRegs} {bs : List Byte} (hwide : c.txMin.toNat + 257 ≤ c.txMax.toNat) {x : Symbol}
    (hx : x ∈ frameSymbols c bs) : c.txMin.toNat ≤ x.toNat ∧ x.toNat ≤ c.txMax.toNat := by
  have hmax := c.txMax.isLt
  obtain hpre | hdata := List.mem_append.1 hx
  · obtain rfl | rfl : x = syncA c.txMax ∨ x = syncB c.txMax := by simpa [preamble] using hpre
    · rw [syncA]
      bv_omega
    · rw [syncB]
      bv_omega
  · obtain ⟨b, -, rfl⟩ := List.mem_map.1 hdata
    have hb := b.isLt
    rw [toNat_byteToSymbol]
    omega

end Send

/-! ### Blocks in loopback -/

/-- In loopback, with a configuration in which the receive path reads back every symbol of its window
(45_tx_sequencer.md R248). -/
structure ReadsBack (s : State) : Prop where
  loop : s.cfg.loop = true
  params : s.params.Legal
  config : fatalCode s.params s.cfg = 0
  amp_ge : 3 ≤ s.cfg.txAmp.toNat
  amp_le : s.cfg.txAmp.toNat ≤ 0x8000
  thresh : AtMostToneBound s.cfg.txAmp.toNat s.cfg.thresh.toInt

section Loop

variable {s : State}

theorem ReadsBack.congr {t : State} (h : ReadsBack s) (hp : t.params = s.params) (hc : t.cfg = s.cfg) :
    ReadsBack t := by
  obtain ⟨hloop, hparams, hconfig, hge, hle, hthresh⟩ := h
  constructor <;> simpa only [hp, hc]

/-- A block in which a symbol of the window is played is a block in which that symbol is received. -/
theorem exec_block_of_played {x : Symbol} {tx : TxRegs} (h : ReadsBack s) (hs : s.rx.rxState ≠ .fatalError)
    (hplay : txTickRegs s.params s.tx = (x, tx)) (hpos : 0 < x.toNat) (hlo : s.cfg.rxMin.toNat ≤ x.toNat)
    (hhi : x.toNat ≤ s.cfg.rxMax.toNat) :
    exec .block s = .next (processVerdict x (symDb s.params (loopBlock s x) x.toNat) { s with tx := tx }) := by
  have hverdict := detect_loopBlock h.params.logFftSize_ge h.params.logFftSize_le h.params.fftFactor_pos h.amp_ge
    h.amp_le (fatalCode_eq_zero h.config).2.1 hpos hlo hhi h.thresh
  rw [exec_block_of_loop h.loop, hplay, receiveBlock_of_legal (s := { s with tx := tx }) hs h.config, hverdict]

theorem processVerdict_ne_fatalError (r : Symbol) (peak : Level) (hs : s.rx.rxState ≠ .fatalError) :
    (processVerdict r peak s).rx.rxState ≠ .fatalError := by
  obtain ⟨t, ht, hblock⟩ := exists_passage (r := r) peak hs
  rw [hblock]
  exact ht.rxState_ne

/-- A run of blocks receives what the sequencer plays (45_tx_sequencer.md R244, R248). -/
theorem runCommands_block_of_loop (n : Nat) (h : ReadsBack s) (hs : s.rx.rxState ≠ .fatalError)
    (hwindow : ∀ x ∈ (playTicks s.params n s.tx).1,
      0 < x.toNat ∧ s.cfg.rxMin.toNat ≤ x.toNat ∧ x.toNat ≤ s.cfg.rxMax.toNat) :
    ∃ t, runCommands (List.replicate n .block) s = .next t ∧ Received (playTicks s.params n s.tx).1 s t ∧
      t.tx = (playTicks s.params n s.tx).2 := by
  induction n generalizing s with
  | zero => exact ⟨s, rfl, .nil s, rfl⟩
  | succ n ih =>
    obtain ⟨x, tx, hplay⟩ : ∃ x tx, txTickRegs s.params s.tx = (x, tx) := ⟨_, _, rfl⟩
    have hticks :
        playTicks s.params (n + 1) s.tx = (x :: (playTicks s.params n tx).1, (playTicks s.params n tx).2) := by
      rw [playTicks, hplay]
    rw [hticks] at hwindow ⊢
    obtain ⟨⟨hpos, hlo, hhi⟩, hrest⟩ := List.forall_mem_cons.1 hwindow
    have hblock := exec_block_of_played h hs hplay hpos hlo hhi
    generalize symDb s.params (loopBlock s x) x.toNat = peak at hblock
    obtain ⟨hp, hc, htx, -⟩ := processVerdict_keeps x peak { s with tx := tx }
    obtain ⟨t, hrun, hreceived, ht⟩ := ih (h.congr hp hc)
      (processVerdict_ne_fatalError (s := { s with tx := tx }) x peak hs) (by rwa [hp, hc, htx])
    rw [hp, htx] at hreceived ht
    refine ⟨t, ?_, .cons peak tx s.port.sin hreceived, ht⟩
    rw [List.replicate_succ, runCommands, hblock]
    exact hrun

/-- A queue of symbols of the window is received symbol for symbol, P blocks of each, and is empty after that
(45_tx_sequencer.md R243). -/
theorem runCommands_block_of_queue {queue : List Symbol} (h : ReadsBack s) (hlt : s.params.periodBlocks < 256)
    (hs : s.rx.rxState ≠ .fatalError) (hhold : s.tx.txHold = 0) (hq : s.tx.txq = queue)
    (hwindow : ∀ x ∈ queue, 0 < x.toNat ∧ s.cfg.rxMin.toNat ≤ x.toNat ∧ x.toNat ≤ s.cfg.rxMax.toNat) :
    ∃ t, runCommands (List.replicate (queue.length * s.params.periodBlocks) .block) s = .next t ∧
      Received (queue.flatMap fun x => List.replicate s.params.periodBlocks x) s t ∧ t.tx.txq = [] := by
  subst hq
  have hP := periodBlocks_ge_of_geometryOk (fatalCode_eq_zero h.config).2.2
  obtain ⟨cur, hplay⟩ := playTicks_queue (by omega) hlt hhold
  obtain ⟨t, hrun, hreceived, htx⟩ := runCommands_block_of_loop (s.tx.txq.length * s.params.periodBlocks) h hs
    fun x hx => by
      rw [hplay] at hx
      obtain ⟨y, hy, hxy⟩ := List.mem_flatMap.1 hx
      obtain rfl := List.eq_of_mem_replicate hxy
      exact hwindow x hy
  rw [hplay] at hreceived htx
  exact ⟨t, hrun, hreceived, by rw [htx]⟩

end Loop

end Sys2Proof.Machine

open Sys2Proof Sys2Proof.Machine

/-- Settles O45: SENDFRAME queues the frame, the blocks play it out, and the receiver gets back what is played. -/
theorem loopbackDeliversEveryPayload : Obligations.LoopbackDeliversEveryPayload := by
  intro s u payload cmd hp hring hc hmax hroom hpbuf hloop hmin hmaxEq hpos hwide hge hle hthresh hstate hcand hq hhold
    hu
  have hshort := hp.payloadMax_le
  have hlen : (BitVec.ofNat 8 payload.length).toNat = payload.length := by
    rw [BitVec.toNat_ofNat]
    omega
  have hoperand := payloadOperand_of_bytes hpbuf
  have hwideTx : s.cfg.txMin.toNat + 257 ≤ s.cfg.txMax.toNat := by rwa [hmin, hmaxEq]
  rw [exec_sendframe, hlen, sendFrameFailure_of_bytes hoperand hmax hwideTx (by simpa [hq] using hroom),
    sendBytes_of_bytes hoperand] at hu
  cases hu
  have hqueue : s.tx.txq ++ frameSymbols s.cfg (encodeBytes payload cmd) =
      frameSymbols s.cfg (encodeBytes payload cmd) := congrArg (· ++ _) hq
  have hcount : (frameSymbols s.cfg (encodeBytes payload cmd)).length = payload.length + 4 := by
    simp [frameSymbols, preamble, length_encodeBytes]
  have hwindow (x : Symbol) (hx : x ∈ frameSymbols s.cfg (encodeBytes payload cmd)) :
      0 < x.toNat ∧ s.cfg.rxMin.toNat ≤ x.toNat ∧ x.toNat ≤ s.cfg.rxMax.toNat := by
    have hx := mem_frameSymbols hwideTx hx
    rw [hmin, hmaxEq] at hx
    exact ⟨by omega, hx⟩
  obtain ⟨t, hrun, hreceived, htxq⟩ := runCommands_block_of_queue
    (s := sendOutcome none (frameSymbols s.cfg (encodeBytes payload cmd)) s) ⟨hloop, hp.toLegal, hc, hge, hle, hthresh⟩
    hp.periodBlocks_lt (by obtain h | h := hstate <;> exact fun hf => nomatch h.symm.trans hf) hhold hqueue hwindow
  obtain ⟨hframes, herrors, hempty⟩ := Received.frame
    (s := sendOutcome none (frameSymbols s.cfg (encodeBytes payload cmd)) s) hp (fatalCode_eq_zero hc).2.2 hreceived
    hmin hmaxEq (hring.withInput _ s.port.sin) hwide hmax hstate.symm hcand
  exact ⟨t, hcount ▸ hrun, hframes, htxq, herrors, hempty⟩

end

section
/-!
SUPPORT. What one flipped bit does to a frame (44_framer.md R222): the length field stands, and the checksum no longer
matches, as a sum with one summand changed is another sum.
-/

namespace Sys2Proof.Machine

/-- `b` with bit `j` flipped. -/
def flipBit (j : Nat) (b : Byte) : Byte := b ^^^ (1#8 <<< j)

theorem flipBit_ne {j : Nat} (hj : j < 8) (b : Byte) : flipBit j b ≠ b := by
  have hmask : ∀ j < 8, 1#8 <<< j ≠ 0#8 := by decide
  intro h
  exact hmask j hj ((BitVec.xor_right_inj b).1 (h.trans BitVec.xor_zero.symm))

/-- Bits [7:4] of a header do not reach its length field (44_framer.md R210). -/
theorem headerLength_flipBit {j : Nat} (hlo : 4 ≤ j) (hj : j < 8) (h : Byte) :
    headerLength (flipBit j h) = headerLength h := by
  have hmask : ∀ j < 8, 4 ≤ j → (1#8 <<< j).extractLsb' 0 4 = 0#4 := by decide
  rw [headerLength, flipBit, BitVec.extractLsb'_xor, hmask j hj hlo, BitVec.xor_zero]
  rfl

section Modify

variable {α : Type} {f : α → α}

theorem modify_concat_of_lt {l : List α} {i : Nat} (h : i < l.length) (c : α) :
    (l ++ [c]).modify i f = l.modify i f ++ [c] := by
  obtain ⟨before, a, after, rfl, rfl, hmodify⟩ := List.exists_of_modify f h
  rw [hmodify]
  simp [List.modify_eq_take_drop]

theorem modify_concat_length (l : List α) (c : α) : (l ++ [c]).modify l.length f = l ++ [f c] := by
  simp [List.modify_eq_take_drop]

end Modify

theorem checksum_modify_ne {f : Byte → Byte} (hf : ∀ b, f b ≠ b) {bs : List Byte} {i : Nat} (hi : i < bs.length) :
    checksum (bs.modify i f) ≠ checksum bs := by
  obtain ⟨before, a, after, rfl, -, hmodify⟩ := List.exists_of_modify f hi
  rw [hmodify, checksum_eq_sum, checksum_eq_sum, List.sum_append, List.sum_append, List.sum_cons, List.sum_cons]
  intro h
  exact hf a (by bv_omega)

/-- A frame with one bit flipped, its length field excepted, has the length its header says and a checksum that does
not match (44_framer.md R222 (c)). -/
theorem encodeBytes_flipped {payload : List Byte} (cmd : Bool) {i j : Nat} (hlen : payload.length < 16)
    (hi : i < payload.length + 2) (hj : j < 8) (hfield : i = 0 → 4 ≤ j) :
    ∃ h payload' c, (encodeBytes payload cmd).modify i (flipBit j) = [h] ++ payload' ++ [c] ∧
      headerLength h = payload'.length ∧ payload'.length = payload.length ∧ checksum ([h] ++ payload') ≠ c := by
  have hheader := headerLength_frameHeader hlen cmd
  by_cases hlast : i = payload.length + 1
  · refine ⟨frameHeader payload.length cmd, payload, _, ?_, hheader, rfl, (flipBit_ne hj _).symm⟩
    subst hlast
    exact modify_concat_length ([frameHeader payload.length cmd] ++ payload) _
  · have hfront : i < ([frameHeader payload.length cmd] ++ payload).length := by
      simp
      omega
    have hsum := checksum_modify_ne (flipBit_ne hj) hfront
    have hmodify := modify_concat_of_lt (f := flipBit j) hfront (checksum ([frameHeader payload.length cmd] ++ payload))
    cases i with
    | zero => exact ⟨_, payload, _, hmodify, (headerLength_flipBit (hfield rfl) hj _).trans hheader, rfl, hsum⟩
    | succ i => exact ⟨_, payload.modify i (flipBit j), _, hmodify, by rw [List.length_modify, hheader],
        List.length_modify _ _ _, hsum⟩

/-- A judged candidate whose checksum does not match is resolved as invalid (44_framer.md R216, R217). -/
theorem settled_failed {s : State} {resolved : List (Id × Verdict)} (y : Candidate) :
    settled (.failed { y with isValid := .invalid }) s resolved =
      { s := { s with frm.cand := [] }, resolved := resolved ++ [(y.id, .invalid)], changed := true } := rfl

end Sys2Proof.Machine

open Sys2Proof Sys2Proof.Machine

/-- Settles O44: the flipped bytes are still one whole frame, and its checksum does not match. -/
theorem flippedBitIsDetected : Obligations.FlippedBitIsDetected := by
  intro s payload cmd ids i j hmax hlen hcand hids hi hj hfield bs
  obtain ⟨h, payload', c, hbytes, hheader, hlen', hsum⟩ :=
    encodeBytes_flipped cmd (Nat.lt_succ_of_le (hlen.trans hmax)) hi hj hfield
  have hbytes : bs = [h] ++ payload' ++ [c] := hbytes
  have hfed : (bs.zip ids).map Prod.fst = [h] ++ payload' ++ [c] := by
    rw [List.map_fst_zip (by simp [hbytes, hids, hlen']), hbytes]
  have hlt : payload'.length < 16 := by omega
  rw [frmOnSync_start_of_nil hcand, deliverBytes_frame (s := candIdTaken s) hfed hheader (hlen' ▸ hlen) rfl,
    judge_complete hlt (Candidate.afterFrame_received hfed rfl) (Candidate.afterFrame_expected hheader), if_neg hsum,
    settled_failed]
  rfl

end

section
/-!
SUPPORT. Drift as a distance on the circle of one period (42_sync_tracker.md R164): the offset of the new clock from the
running one, as a number of samples, and its remainder.
-/

namespace Sys2Proof.Machine

section Drift

variable {c : SampleCount} {s : State}

/-- The samples in a symbol period. -/
def periodSamples (p : Params) : Nat := p.periodBlocks * p.fftSize

/-- How far the clock a sync at `c` would set is ahead of the running one, modulo 2^64. -/
def clockOffset (c : SampleCount) (s : State) : SampleCount := c + samplesOf s s.params.offsetBlocks - s.rx.nextSp

theorem drift_eq (c : SampleCount) (s : State) :
    drift c s = min ((clockOffset c s).toNat % periodSamples s.params)
      (periodSamples s.params - (clockOffset c s).toNat % periodSamples s.params) := rfl

theorem toNat_clockOffset (c : SampleCount) (s : State) :
    (clockOffset c s).toNat =
      (c.toNat + s.params.offsetBlocks * s.params.fftSize + (2 ^ 64 - s.rx.nextSp.toNat)) % 2 ^ 64 := by
  rw [clockOffset, samplesOf, BitVec.toNat_sub, BitVec.toNat_add, BitVec.toNat_ofNat]
  omega

theorem two_mul_drift_le (c : SampleCount) (s : State) : 2 * drift c s ≤ periodSamples s.params := by
  have hrem := Nat.mod_lt (clockOffset c s).toNat (y := periodSamples s.params)
  rw [drift_eq]
  omega

theorem drift_eq_zero_iff (hP : 0 < periodSamples s.params) :
    drift c s = 0 ↔ periodSamples s.params ∣ (clockOffset c s).toNat := by
  have hrem := Nat.mod_lt (clockOffset c s).toNat hP
  rw [drift_eq, Nat.dvd_iff_mod_eq_zero]
  omega

/-- A whole number of periods apart, as samples and as words. -/
theorem periodSamples_dvd_clockOffset_iff :
    periodSamples s.params ∣ (clockOffset c s).toNat ↔ ∃ k : Nat, k * periodSamples s.params < 2 ^ 64 ∧
      c + samplesOf s s.params.offsetBlocks = s.rx.nextSp + BitVec.ofNat 64 (k * periodSamples s.params) := by
  have hoffset : ∀ x : SampleCount, clockOffset c s = x ↔ c + samplesOf s s.params.offsetBlocks = s.rx.nextSp + x := by
    intro x
    rw [clockOffset]
    constructor <;> intro h <;> bv_omega
  constructor
  · rintro ⟨k, hk⟩
    rw [Nat.mul_comm] at hk
    refine ⟨k, hk ▸ (clockOffset c s).isLt, (hoffset _).1 ?_⟩
    rw [← hk, BitVec.ofNat_toNat, BitVec.setWidth_eq]
  · rintro ⟨k, hlt, hk⟩
    rw [(hoffset _).2 hk, BitVec.toNat_ofNat, Nat.mod_eq_of_lt hlt]
    exact Nat.dvd_mul_left _ _

/-- Between block boundaries the offset is a number of blocks (42_sync_tracker.md R162, R163). -/
theorem fftSize_dvd_clockOffset (hN : s.params.logFftSize ≤ 16) (hc : s.params.fftSize ∣ c.toNat)
    (hnext : s.params.fftSize ∣ s.rx.nextSp.toNat) : s.params.fftSize ∣ (clockOffset c s).toNat := by
  have hword : s.params.fftSize ∣ 2 ^ 64 := Nat.pow_dvd_pow 2 (by omega)
  rw [toNat_clockOffset, Nat.dvd_mod_iff hword]
  exact ((hc.add (Nat.dvd_mul_left _ _)).add (Nat.dvd_sub hword hnext))

theorem fftSize_dvd_drift (h : s.params.fftSize ∣ (clockOffset c s).toNat) : s.params.fftSize ∣ drift c s := by
  have hperiod : s.params.fftSize ∣ periodSamples s.params := Nat.dvd_mul_left _ _
  have hrem := (Nat.dvd_mod_iff hperiod).2 h
  rw [drift_eq]
  obtain hmin | hmin := min_choice ((clockOffset c s).toNat % periodSamples s.params)
    (periodSamples s.params - (clockOffset c s).toNat % periodSamples s.params) <;> rw [hmin]
  · exact hrem
  · exact Nat.dvd_sub hperiod hrem

end Drift

end Sys2Proof.Machine

open Sys2Proof Sys2Proof.Machine

/-- Settles O27: all of it through the remainder of the offset. -/
theorem driftIsCircularDistance : Obligations.DriftIsCircularDistance := by
  refine ⟨fun s c => ⟨?_, two_mul_drift_le c s⟩, fun s c hP => ?_, fun s c hN hc hnext => ?_, by decide, by decide⟩
  · rw [drift_eq, toNat_clockOffset]
    rfl
  · exact (drift_eq_zero_iff (Nat.mul_pos hP (Nat.two_pow_pos _))).trans periodSamples_dvd_clockOffset_iff
  · have hdvd := fftSize_dvd_drift (fftSize_dvd_clockOffset hN hc hnext)
    exact ⟨hdvd, fun hne => Nat.le_of_dvd (Nat.pos_of_ne_zero hne) hdvd⟩

end

section
/-!
SUPPORT. The mappings of 00_scope.md R12 to R14 undo one another, and the bytes of a word on a byte bus (20_memory.md
R65).
-/

namespace Sys2Proof.Machine

/-! ### Symbols, frequencies, bins and bytes -/

section Frequency

variable (p : Params) (rate : Nat)

/-- One symbol step in hertz, `F*sampleRate / N` (00_scope.md R12). -/
theorem symbolToFrequency_eq (s : Nat) :
    symbolToFrequency p rate s = s * (((p.fftFactor * rate : Nat) : ℚ) / (p.fftSize : Nat)) := by
  rw [symbolToFrequency, Nat.mul_right_comm, Nat.cast_mul _ s]
  ring

variable {K : Type} [Field K] [LinearOrder K]

section

variable [FloorRing K]

/-- The symbol of a frequency is the nearest whole number of symbol steps (00_scope.md R13). -/
theorem frequencyToSymbol_eq (f : K) :
    frequencyToSymbol p rate f = ⌊f / (((p.fftFactor * rate : Nat) : K) / (p.fftSize : Nat)) + 1 / 2⌋ := by
  rw [frequencyToSymbol, div_div_eq_mul_div]

variable [IsStrictOrderedRing K]

theorem floor_nat_add_half (n : Nat) : ⌊(n : K) + 1 / 2⌋ = n := by
  rw [Int.floor_eq_iff]
  constructor <;> norm_num

/-- Rounding to the nearest whole number of steps of size `d` errs by half a step at most. -/
theorem abs_round_mul_sub_le {d f : K} (hd : 0 < d) : |(⌊f / d + 1 / 2⌋ : K) * d - f| ≤ d / 2 := by
  have hlo := Int.floor_le (f / d + 1 / 2)
  have hhi := Int.lt_floor_add_one (f / d + 1 / 2)
  have hf : f = f / d * d := (div_mul_cancel₀ f hd.ne').symm
  have hnear : |(⌊f / d + 1 / 2⌋ : K) - f / d| ≤ 1 / 2 := abs_le.2 ⟨by linarith, by linarith⟩
  calc |(⌊f / d + 1 / 2⌋ : K) * d - f| = |(⌊f / d + 1 / 2⌋ : K) - f / d| * d := by
        rw [← abs_of_pos hd, ← abs_mul, abs_of_pos hd, sub_mul, ← hf]
    _ ≤ 1 / 2 * d := mul_le_mul_of_nonneg_right hnear hd.le
    _ = d / 2 := by ring

end

variable {p rate}

theorem symbolStep_pos [IsStrictOrderedRing K] (hF : 1 ≤ p.fftFactor) (hrate : 1 ≤ rate) :
    0 < ((p.fftFactor * rate : Nat) : K) / (p.fftSize : Nat) :=
  div_pos (Nat.cast_pos.2 (Nat.mul_pos hF hrate)) (Nat.cast_pos.2 (Nat.two_pow_pos _))

theorem frequencyToSymbol_symbolToFrequency (hF : 1 ≤ p.fftFactor) (hrate : 1 ≤ rate) (s : Nat) :
    frequencyToSymbol p rate (symbolToFrequency p rate s) = s := by
  rw [frequencyToSymbol_eq, symbolToFrequency_eq, mul_div_cancel_right₀ _ (symbolStep_pos hF hrate).ne',
    floor_nat_add_half]

/-- A frequency is read as a symbol whose own frequency is within half a step (00_scope.md R13). -/
theorem exists_frequencyToSymbol (hF : 1 ≤ p.fftFactor) (hrate : 1 ≤ rate) {f : ℝ} (hf : 0 ≤ f) :
    ∃ s : Nat, frequencyToSymbol p rate f = s ∧
      |(symbolToFrequency p rate s : ℝ) - f| ≤ ((p.fftFactor * rate : Nat) : ℝ) / (2 * (p.fftSize : Nat)) := by
  have hstep := symbolStep_pos (K := ℝ) hF hrate
  obtain ⟨s, hs⟩ := Int.eq_ofNat_of_zero_le (a := frequencyToSymbol p rate f) (by
    rw [frequencyToSymbol_eq]
    positivity)
  have hnear := abs_round_mul_sub_le (f := f) hstep
  rw [← frequencyToSymbol_eq, hs, Int.cast_natCast] at hnear
  refine ⟨s, hs, ?_⟩
  rw [symbolToFrequency_eq, mul_comm (2 : ℝ), ← div_div]
  push_cast at hnear ⊢
  exact hnear

end Frequency

theorem binToSymbol_symbolToBin {p : Params} (hF : 1 ≤ p.fftFactor) (s : Nat) : binToSymbol p (symbolToBin p s) = s :=
  Nat.mul_div_cancel_left s hF

/-- An encodable byte's symbol is a data symbol (00_scope.md R11, R14). -/
theorem isDataSymbol_byteToSymbol {symbolMin symbolMax : BitVec 15} {b : Byte}
    (h : byteEncodable symbolMin symbolMax b = true) :
    isDataSymbol symbolMin symbolMax (byteToSymbol symbolMin b).toNat = true := by
  rw [isDataSymbol, toNat_byteToSymbol, Bool.and_eq_true]
  exact ⟨decide_eq_true (Nat.le_add_right _ _), h⟩

/-! ### Bytes of a word -/

theorem toNat_wordOfBytes (b0 b1 b2 b3 : Byte) :
    (wordOfBytes b0 b1 b2 b3).toNat = b0.toNat + 2 ^ 8 * b1.toNat + 2 ^ 16 * b2.toNat + 2 ^ 24 * b3.toNat := by
  have hb0 := b0.isLt
  have hb1 := b1.isLt
  have hb2 := b2.isLt
  simp only [wordOfBytes, BitVec.toNat_append]
  rw [← Nat.shiftLeft_add_eq_or_of_lt hb1, ← Nat.shiftLeft_add_eq_or_of_lt hb0, ← Nat.shiftLeft_add_eq_or_of_lt hb2]
  simp only [Nat.shiftLeft_eq]
  omega

theorem decodeBytes_of_length_ne {bs : List Byte} (h : bs.length ≠ 4) : decodeBytes bs = none := by
  unfold decodeBytes
  split
  · exact absurd rfl h
  · rfl

/-- The bytes of a word, picked out again. -/
theorem extractLsb'_wordOfBytes (b0 b1 b2 b3 : Byte) :
    (wordOfBytes b0 b1 b2 b3).extractLsb' 0 8 = b0 ∧ (wordOfBytes b0 b1 b2 b3).extractLsb' 8 8 = b1 ∧
      (wordOfBytes b0 b1 b2 b3).extractLsb' 16 8 = b2 ∧ (wordOfBytes b0 b1 b2 b3).extractLsb' 24 8 = b3 := by
  have hb0 := b0.isLt
  have hb1 := b1.isLt
  have hb2 := b2.isLt
  have hb3 := b3.isLt
  refine ⟨?_, ?_, ?_, ?_⟩ <;> apply BitVec.eq_of_toNat_eq <;>
    rw [BitVec.extractLsb'_toNat, Nat.shiftRight_eq_div_pow, toNat_wordOfBytes] <;> omega

/-- Byte `b` of a packed word (20_memory.md R65). -/
theorem extractLsb'_packedBytes (bs : List Byte) (w : Nat) {b : Nat} (hb : b < 4) :
    (packedBytes bs w).extractLsb' (8 * b) 8 = bs.getD (4 * w + b) 0 := by
  obtain ⟨h0, h1, h2, h3⟩ := extractLsb'_wordOfBytes (bs.getD (4 * w) 0) (bs.getD (4 * w + 1) 0)
    (bs.getD (4 * w + 2) 0) (bs.getD (4 * w + 3) 0)
  match b, hb with
  | 0, _ => exact h0
  | 1, _ => exact h1
  | 2, _ => exact h2
  | 3, _ => exact h3

end Sys2Proof.Machine

open Sys2Proof Sys2Proof.Machine

/-- Settles O59: frequencies as numbers of symbol steps, bins by division, bytes by their symbols' values. -/
theorem frequencyMappingInverts : Obligations.FrequencyMappingInverts :=
  ⟨fun _ _ hF hrate => ⟨frequencyToSymbol_symbolToFrequency hF hrate, fun _ => exists_frequencyToSymbol hF hrate⟩,
    fun _ s hF => binToSymbol_symbolToBin hF s,
    fun symbolMin _ b h => ⟨isDataSymbol_byteToSymbol h, symbolToValue_byteToSymbol symbolMin b⟩⟩

/-- Settles O4: words and bytes by `wordOfBytes_bytesOfWord`, packed bytes one by one. -/
theorem bytesAreLittleEndian : Obligations.BytesAreLittleEndian :=
  ⟨toNat_wordOfBytes, fun w => congrArg decode (wordOfBytes_bytesOfWord w), fun _ => decodeBytes_of_length_ne,
    fun bs w _ => extractLsb'_packedBytes bs w⟩

end

section
/-!
SUPPORT. A step by what waits on CMD (20_memory.md R67, 70_reset_and_hazards.md R290).
-/

namespace Sys2Proof.Machine

section Step

variable {s : State}

theorem step_of_nothing (h : s.port.pending = []) : step s = .next s := by
  rw [step, takeInput_nil h]

/-- With nothing waiting the state is held (60_exceptions.md R279, log 2). -/
theorem run_of_nothing (n : Nat) (h : s.port.pending = []) : Sys2Proof.core.run n s = .next s := by
  induction n with
  | zero => rfl
  | succ n ih =>
    have hstep : Sys2Proof.core.step s = .next s := step_of_nothing h
    simp only [Host.Core.run, hstep]
    exact ih

theorem presentFirst_of_ne_block {w : Word32} (h : decode w ≠ some .block) :
    presentFirst w s = s.withPort { s.port with pending := .word w :: s.port.pending } := by
  rw [presentFirst, if_neg fun hblock => h hblock.1]

/-- A command's word put first is the one the next step executes, on the state as it was. -/
theorem step_withFetchWord {i : Instr} (h : i.WellFormed) (hne : i ≠ .block) :
    step (s.withFetchWord 32 (encode i).toNat) = exec i s := by
  have hword : BitVec.ofNat 32 ((encode i).toNat % 2 ^ 32) = encode i := by
    rw [Nat.mod_eq_of_lt (encode i).isLt, BitVec.ofNat_toNat, BitVec.setWidth_eq]
  have hdecode := decode_encode h
  have hblock : decode (encode i) ≠ some .block := by
    rw [hdecode]
    exact fun heq => hne (Option.some.inj heq)
  rw [State.withFetchWord, hword, presentFirst_of_ne_block hblock, step_of_decode rfl hdecode]
  rfl

/-- POR rebuilds the state from the parameters and the inputs that wait (70_reset_and_hazards.md R290, logs 7 and 8).
-/
theorem step_of_por {rest : List HostInput} (h : s.port.pending = .por :: rest) :
    step s =
      .next ((State.afterPor s.params).withPort { pending := rest, sin := s.port.sin, evt := [], tout := [] }) := by
  rw [step, takeInput_por h]
  rfl

end Step

end Sys2Proof.Machine

open Sys2Proof Sys2Proof.Machine

/-- Settles O2: each word decoded. -/
theorem exampleWordsDecode : Obligations.ExampleWordsDecode := by
  unfold Obligations.ExampleWordsDecode
  decide

/-- Settles O5: a word by `step_of_decode`, nothing by induction on the number of steps. -/
theorem stepRunsTheDecodedCommand : Obligations.StepRunsTheDecodedCommand :=
  ⟨fun _ n h => run_of_nothing n h, fun _ _ _ _ hw hd => step_of_decode hw hd,
    fun _ _ h hne => step_withFetchWord h hne⟩

/-- Settles O6: `step_of_por`, every field of `State.afterPor` being the reset table's. -/
theorem powerOnResetValues : Obligations.PowerOnResetValues := by
  refine ⟨fun s rest h => (step_of_por h).trans rfl, fun s h hsin hp => ?_, rfl⟩
  rw [step_of_por h, hp, hsin]
  rfl

end

section
/-!
SUPPORT. The register window (10_state.md section 8): which row an offset reads, and the value of a word put together
from fields that do not overlap.
-/

namespace Sys2Proof.Machine

/-! ### Fields of a word -/

/-- The word `x` shows the value `n` in its lowest `bits` bits and 0 above. -/
structure Shows (x : Word32) (bits n : Nat) : Prop where
  toNat_eq : x.toNat = n
  lt : n < 2 ^ bits

section Fields

variable {w lo bits n : Nat} {x : Word32}

theorem toNat_fieldAt (v : BitVec w) (hw : lo + w ≤ 32 := by decide) : (fieldAt lo v).toNat = 2 ^ lo * v.toNat := by
  have hv : 2 ^ lo * v.toNat < 2 ^ 32 :=
    calc 2 ^ lo * v.toNat < 2 ^ lo * 2 ^ w := Nat.mul_lt_mul_of_pos_left v.isLt (Nat.two_pow_pos lo)
      _ = 2 ^ (lo + w) := (Nat.pow_add 2 lo w).symm
      _ ≤ 2 ^ 32 := Nat.pow_le_pow_right (by decide) hw
  rw [fieldAt, BitVec.toNat_shiftLeft, BitVec.toNat_setWidth_of_le (by omega), Nat.shiftLeft_eq, Nat.mul_comm,
    Nat.mod_eq_of_lt hv]

theorem shows_fieldAt (v : BitVec w) (hw : w ≤ 32 := by decide) : Shows (fieldAt 0 v) w v.toNat :=
  ⟨by rw [toNat_fieldAt v (by omega), Nat.pow_zero, Nat.one_mul], v.isLt⟩

/-- A field put above what a word shows adds its value there. -/
theorem Shows.or_fieldAt (h : Shows x bits n) (v : BitVec w) (hlo : bits ≤ lo := by decide)
    (hw : lo + w ≤ 32 := by decide) : Shows (x ||| fieldAt lo v) (lo + w) (n + 2 ^ lo * v.toNat) := by
  have hn : n < 2 ^ lo := h.lt.trans_le (Nat.pow_le_pow_right (by decide) hlo)
  refine ⟨?_, ?_⟩
  · rw [BitVec.toNat_or, h.toNat_eq, toNat_fieldAt v hw, Nat.or_comm, ← Nat.two_pow_add_eq_or_of_lt hn, Nat.add_comm]
  · calc n + 2 ^ lo * v.toNat < 2 ^ lo * (v.toNat + 1) := by rw [Nat.mul_succ]; omega
      _ ≤ 2 ^ lo * 2 ^ w := Nat.mul_le_mul_left _ v.isLt
      _ = 2 ^ (lo + w) := (Nat.pow_add 2 lo w).symm

theorem shows_countField (m : Nat) (hw : w ≤ 32 := by decide) : Shows (countField w 0 m) w (m % 2 ^ w) := by
  rw [← BitVec.toNat_ofNat]
  exact shows_fieldAt _ hw

theorem Shows.or_countField (h : Shows x bits n) (m : Nat) (hlo : bits ≤ lo := by decide)
    (hw : lo + w ≤ 32 := by decide) : Shows (x ||| countField w lo m) (lo + w) (n + 2 ^ lo * (m % 2 ^ w)) := by
  rw [← BitVec.toNat_ofNat]
  exact h.or_fieldAt _ hlo hw

theorem shows_bitField (b : Bool) : Shows (bitField 0 b) 1 b.toNat := by
  rw [← BitVec.toNat_ofBool]
  exact shows_fieldAt _

theorem Shows.or_bitField (h : Shows x bits n) (b : Bool) (hlo : bits ≤ lo := by decide)
    (hw : lo + 1 ≤ 32 := by decide) : Shows (x ||| bitField lo b) (lo + 1) (n + 2 ^ lo * b.toNat) := by
  rw [← BitVec.toNat_ofBool]
  exact h.or_fieldAt _ hlo hw

theorem toNat_extractLsb'_low (c : SampleCount) : (c.extractLsb' 0 32).toNat = c.toNat % 2 ^ 32 :=
  BitVec.extractLsb'_toNat 0 32 c

theorem toNat_extractLsb'_high (c : SampleCount) : (c.extractLsb' 32 32).toNat = c.toNat / 2 ^ 32 := by
  have hc := c.isLt
  rw [BitVec.extractLsb'_toNat, Nat.shiftRight_eq_div_pow]
  omega

end Fields

/-! ### Which row an offset reads -/

section Rows

variable (s : State)

theorem regRead_of_refused {off : Nat} (h : off % 4 ≠ 0 ∨ 0xBFC < off) : regRead s off = 0 :=
  if_neg fun hok => h.elim (fun hmis => hmis hok.1) (fun hhigh => not_lt.2 hok.2 hhigh)

theorem keys_fixedRegisters : (fixedRegisters s).map Prod.fst = singleRows := rfl

/-- A read no other row answers is the history's, or 0 (10_state.md R47, log 10). -/
theorem regRead_of_not_listed {off : Nat} (halign : off % 4 = 0) (hoff : off ≤ 0xBFC)
    (h : listedBesideHistory s.params off = false) :
    regRead s off =
      if 0x100 ≤ off ∧ (off - 0x100) / 4 < s.params.rawSymbolMax then histWindow s ((off - 0x100) / 4) else 0 := by
  simp only [listedBesideHistory, Bool.or_eq_false_iff, Bool.and_eq_false_iff, decide_eq_false_iff_not] at h
  obtain ⟨⟨hrow, hwindows⟩, hcand⟩ := h
  have hnone : (fixedRegisters s).lookup off = none := by
    rw [List.lookup_eq_none_iff]
    intro p hp
    have hmem : singleRows.contains p.1 = true := by
      rw [List.contains_iff_mem, ← keys_fixedRegisters s]
      exact List.mem_map_of_mem hp
    rw [bne_iff_ne]
    rintro rfl
    exact Bool.false_ne_true (hrow.symm.trans hmem)
  rw [regRead, if_pos ⟨halign, hoff⟩, mappedWord, if_neg (by omega), if_neg (by omega), if_neg (by omega),
    registerOrHistory, hnone]

/-- RXSTATE's codes count the states in the order of the register map (10_state.md R47). -/
theorem rxState_of_code :
    [RxState.idleInit, .firstSyncWait, .firstSync, .idle, .symbol, .sync, .guard, .error, .fatalError][
      (fieldAt 0 s.rx.rxState.code).toNat]? = some s.rx.rxState := by
  cases s.rx.rxState <;> rfl

theorem regRead_lastFrame {w : Nat} (hw : w < 4) :
    regRead s (0x40C + 4 * w) = packedBytes s.frm.lastFrame.payload w := by
  match w, hw with
  | 0, _ | 1, _ | 2, _ | 3, _ => rfl

theorem regRead_pbuf {i : Nat} (hi : i < 32) : regRead s (0x200 + 4 * i) = fieldAt 0 s.tx.pbuf[i] := by
  rw [regRead, if_pos (by omega), mappedWord, if_pos (by omega), pbufWindow, Nat.add_sub_cancel_left,
    Nat.mul_div_cancel_left i (by decide), List.getD_eq_getElem?_getD, Vector.getElem?_toList,
    Vector.getElem?_eq_getElem hi]
  rfl

theorem regRead_txq {i : Nat} (hi : i < 64) : regRead s (0x280 + 4 * i) = fieldAt 0 (s.tx.txq.getD i noSymbol) := by
  rw [regRead, if_pos (by omega), mappedWord, if_neg (by omega), if_pos (by omega), txqWindow, Nat.add_sub_cancel_left,
    Nat.mul_div_cancel_left i (by decide)]

/-- A word of a slot of the candidate window (10_state.md R47). -/
theorem regRead_slot {j r off : Nat} (hoff : off = 0x800 + 0x80 * j + r) (hj : j < s.params.maxCandidates) (hj8 : j < 8)
    (hr : r < 0x64) (halign : r % 4 = 0) : regRead s off = candidateWindow s j r := by
  have hslot : (off - 0x800) / 0x80 = j := by omega
  have hword : (off - 0x800) % 0x80 = r := by omega
  rw [regRead, if_pos (by omega), mappedWord, if_neg (by omega), if_neg (by omega), hslot, hword,
    if_pos ⟨by omega, hj, hr⟩]

theorem candidateWindow_of_empty {j : Nat} (h : s.frm.cand.length ≤ j) (r : Nat) : candidateWindow s j r = 0 := by
  rw [candidateWindow, List.getElem?_eq_none h]

variable {s} in
/-- A word of a candidate in the table. -/
theorem regRead_candidate {j r off : Nat} {x : Candidate} (hx : s.frm.cand[j]? = some x)
    (hoff : off = 0x800 + 0x80 * j + r) (hj : j < s.params.maxCandidates) (hj8 : j < 8) (hr : r < 0x64)
    (halign : r % 4 = 0) : regRead s off = candidateWord x r := by
  rw [regRead_slot s hoff hj hj8 hr halign, candidateWindow, hx]

theorem candidateWord_received (x : Candidate) {w : Nat} (hw : w < 5) :
    candidateWord x (0x0C + 4 * w) = packedBytes x.received w := by
  rw [candidateWord, if_neg (by omega), if_neg (by omega), if_neg (by omega), if_pos (by omega), Nat.add_sub_cancel_left,
    Nat.mul_div_cancel_left w (by decide)]

theorem candidateWord_symbolId (x : Candidate) (i : Nat) : candidateWord x (0x20 + 4 * i) = x.symbolId.getD i 0 := by
  rw [candidateWord, if_neg (by omega), if_neg (by omega), if_neg (by omega), if_neg (by omega), Nat.add_sub_cancel_left,
    Nat.mul_div_cancel_left i (by decide)]

/-- The verdict's code counts the verdicts in the order of the register map (10_state.md R41). -/
theorem verdict_of_code (v : Verdict) : [Verdict.unknown, .valid, .invalid][v.code.toNat]? = some v := by
  cases v <;> rfl

end Rows

end Sys2Proof.Machine

open Sys2Proof Sys2Proof.Machine

/-- Settles O58: which row an offset reads, then each row's fields. -/
theorem registerWindowReads : Obligations.RegisterWindowReads := by
  intro s word byteAt
  refine ⟨fun _ _ => rfl, fun _ h => regRead_of_refused s h, ?unlisted, ?parameters, ?configuration, ?status, ?counters,
    ⟨?history, ?pbuf, ?txq⟩, ?lastFrame, ?candidates⟩
  case parameters =>
    exact ⟨rfl, rfl,
      ((((shows_countField _).or_countField _).or_countField _).or_countField _).toNat_eq,
      ((((shows_countField _).or_countField _).or_countField _).or_countField _).toNat_eq,
      (shows_countField _).toNat_eq, (shows_countField _).toNat_eq⟩
  case configuration =>
    exact ⟨(shows_fieldAt _).toNat_eq, (shows_fieldAt _).toNat_eq, ((shows_fieldAt _).or_fieldAt _).toNat_eq,
      ((shows_fieldAt _).or_fieldAt _).toNat_eq, ((shows_fieldAt _).or_fieldAt _).toNat_eq,
      ((shows_bitField _).or_bitField _).toNat_eq, (shows_fieldAt _).toNat_eq, (shows_fieldAt _).toNat_eq⟩
  case status =>
    exact ⟨(shows_fieldAt _).toNat_eq, rxState_of_code s, toNat_extractLsb'_low _, toNat_extractLsb'_high _,
      toNat_extractLsb'_low _, toNat_extractLsb'_high _,
      ((((((shows_bitField _).or_bitField _).or_bitField _).or_bitField _).or_bitField _).or_fieldAt _).toNat_eq,
      rfl, rfl, ((shows_fieldAt _).or_fieldAt _).toNat_eq,
      (((((shows_fieldAt _).or_fieldAt _).or_fieldAt _).or_fieldAt _).or_fieldAt _).toNat_eq, rfl⟩
  case counters =>
    exact ⟨rfl, rfl, (shows_countField _).toNat_eq, ((shows_fieldAt _).or_fieldAt _).toNat_eq,
      (shows_countField _).toNat_eq, ((shows_countField _).or_countField _).toNat_eq⟩
  case lastFrame =>
    refine ⟨rfl, ((((shows_fieldAt _).or_fieldAt _).or_bitField _).or_bitField _).or_countField _ |>.toNat_eq, rfl,
      fun w hw b hb => ?_⟩
    exact (congrArg (BitVec.extractLsb' (8 * b) 8) (regRead_lastFrame s hw)).trans (extractLsb'_packedBytes _ w hb)
  case unlisted =>
    intro off hlisted hoff
    by_cases hread : off % 4 = 0 ∧ off ≤ 0xBFC
    · rw [regRead_of_not_listed s hread.1 hread.2 hlisted, if_neg (by omega)]
    · exact if_neg hread
  case history =>
    intro i hi hoff hlisted
    have hread : regRead s (0x100 + 4 * i) = fieldAt 0 ((histAll s).getD i noSymbol) := by
      rw [regRead_of_not_listed s (by omega) hoff hlisted, if_pos (by omega), histWindow, Nat.add_sub_cancel_left,
        Nat.mul_div_cancel_left i (by decide)]
    exact (congrArg BitVec.toNat hread).trans (shows_fieldAt _).toNat_eq
  case pbuf => exact fun i => (congrArg BitVec.toNat (regRead_pbuf s i.isLt)).trans (shows_fieldAt _).toNat_eq
  case txq => exact fun i hi => (congrArg BitVec.toNat (regRead_txq s hi)).trans (shows_fieldAt _).toNat_eq
  case candidates =>
    intro j hj hj8
    refine ⟨fun hempty r hr halign => ?_, fun x hx => ?_⟩
    · have hread := (regRead_slot s rfl hj hj8 hr halign).trans (candidateWindow_of_empty s hempty r)
      exact congrArg BitVec.toNat hread
    · refine ⟨congrArg BitVec.toNat (regRead_candidate (r := 0) hx rfl hj hj8 (by decide) rfl),
        ⟨x.isValid.code.toNat,
          (congrArg BitVec.toNat (regRead_candidate (r := 4) hx (by omega) hj hj8 (by decide) rfl)).trans
            (((shows_countField _).or_fieldAt _).or_fieldAt _).toNat_eq, verdict_of_code _⟩,
        congrArg BitVec.toNat (regRead_candidate (r := 8) hx (by omega) hj hj8 (by decide) rfl),
        fun w hw b hb => ?_, fun i hi => ?_⟩
      · have hword : regRead s (0x80C + 0x80 * j + 4 * w) = packedBytes x.received w :=
          (regRead_candidate (r := 0x0C + 4 * w) hx (by omega) hj hj8 (by omega) (by omega)).trans
            (candidateWord_received x hw)
        exact (congrArg (BitVec.extractLsb' (8 * b) 8) hword).trans (extractLsb'_packedBytes _ w hb)
      · have hword : regRead s (0x820 + 0x80 * j + 4 * i) = x.symbolId.getD i 0 :=
          (regRead_candidate (r := 0x20 + 4 * i) hx (by omega) hj hj8 (by omega) (by omega)).trans
            (candidateWord_symbolId x i)
        exact congrArg BitVec.toNat hword

end
